-- ==== Sys2Proof/Word.lean ====
section
/-! DEFINITION. The word types: the byte (`u8`, R9) that the bus, the Frame Buffer, the glyph ROM and the chip
registers hold, and the 16-bit command field `imm16` (R80). -/

namespace Sys2Proof

/-- `u8`: an unsigned integer in [0, 255], bit 0 least significant (R9). -/
abbrev Byte := BitVec 8

/-- `imm16`: the only wider operand of the command format (R80, R81). -/
abbrev Half := BitVec 16

end Sys2Proof
end

