-- ==== Sys2Proof/Config.lean ====
section
/-! DEFINITION. The parameters of R7 that the spec leaves OPEN, as constants with no body: nothing in Lean knows a value
of theirs.  `State.reset` loads those that a rule reads into `State.par` (log entries 8, 9, 24); `ledMap` and `chainOrder`
are read by no rule (D33, D8).  The parameters that have a value in the spec stand in Machine/Params.lean. -/

namespace Sys2Proof

/-- `GLYPH[k]`, k < 94: the glyph ROM's byte at index k (R7, R54; OPEN, N7). -/
opaque Config.glyph : Nat → Byte

/-- `UNKNOWN_GLYPH`: the "unknown character" pattern (R7; OPEN, N8). -/
opaque Config.unknownGlyph : Byte

/-- `TIME_SOURCE`: whether a time source is supplied, so that the time-formatting variants exist (R7, R159; OPEN, Boolean). -/
opaque Config.timeSource : Bool

/-- The size of `WRITERS`, the host's table of drawing procedures: the writer ids below it name an entry (R7, R182; OPEN,
host). -/
opaque Config.writerCount : Nat

/-- `DELAY_UNIT`: the unit of the settle delay (R7, R106; OPEN, N4), as a number of some unit of time. -/
opaque Config.delayUnit : Nat

/-- `UPDATE_INTERVAL`: the scheduler's period in milliseconds (R7, R260; OPEN, host). -/
opaque Config.updateInterval : Nat

/-- `BUS`: the bus handle given at construction (R7, R260; OPEN, host). -/
opaque Config.busHandle : Nat

/-- `CS_LINE`: the chip-select line given at construction (R7, R260; OPEN, host). -/
opaque Config.csLine : Nat

/-- `LED_MAP`: which LED (row, column of the module) bit `b` of row register `a` lights (R7, R202; OPEN, D33). -/
opaque Config.ledMap : Nat → Nat → Nat × Nat

/-- `CHAIN_ORDER`: the physical position of logical chip `j` in a chain of `n` chips (D8; OPEN). -/
opaque Config.chainOrder : Nat → Nat → Nat

end Sys2Proof
end

