-- ==== Sys2Proof/Machine/Params.lean ====
section
/-! DEFINITION. The implementation parameters of R7 that have a value in the spec, each under its own name, so that a model
can correct one without touching the rules (I15).  The values the spec marks as general knowledge are log entry 13. -/

namespace Sys2Proof

/-- `ROWS`: rows per chip, and row transactions per refresh. -/
@[simp] def Param.rows : Nat := 8

/-- `HEIGHT`: the value `HEIGHT` returns. -/
@[simp] def Param.height : Nat := 8

/-- `COLS_PER_CHIP`: columns per chip. -/
@[simp] def Param.colsPerChip : Nat := 8

/-- `GLYPH_BASE`: the codepoint of glyph 0, ' '. -/
@[simp] def Param.glyphBase : Nat := 0x20

/-- `GLYPH_COUNT`: entries in the glyph ROM (codepoints 0x20–0x7D). -/
@[simp] def Param.glyphCount : Nat := 94

/-- `DP_BIT`: the decimal-point bit. -/
@[simp] def Param.dpBit : Byte := 0x80#8

/-- The '.' character (R152). -/
@[simp] def Param.dot : Byte := 0x2E#8

/-- `SCAN_LIMIT_VALUE`. -/
@[simp] def Param.scanLimitValue : Byte := 0x07#8

/-- `DECODE_VALUE`. -/
@[simp] def Param.decodeValue : Byte := 0x00#8

/-- `SHUTDOWN_ENTER`: display off (D5). -/
@[simp] def Param.shutdownEnter : Byte := 0x00#8

/-- `SHUTDOWN_EXIT`: display on (D5). -/
@[simp] def Param.shutdownExit : Byte := 0x01#8

/-- `DISPTEST_OFF` (D6). -/
@[simp] def Param.dispTestOff : Byte := 0x00#8

/-- `REG_NOOP` (D9). -/
@[simp] def Param.regNoop : Byte := 0x00#8

/-- `REG_ROW(i)` = 8 − i, for row index i in [0, 8): pass 0 is register 8, pass 7 is register 1 (R73). -/
@[simp] def Param.regRow (i : Nat) : Byte := BitVec.ofNat 8 (8 - i)

/-- `REG_DECODE` (D4). -/
@[simp] def Param.regDecode : Byte := 0x09#8

/-- `REG_INTENSITY` (D4). -/
@[simp] def Param.regIntensity : Byte := 0x0A#8

/-- `REG_SCANLIMIT` (D4). -/
@[simp] def Param.regScanLimit : Byte := 0x0B#8

/-- `REG_SHUTDOWN` (D4). -/
@[simp] def Param.regShutdown : Byte := 0x0C#8

/-- `REG_DISPTEST` (D4). -/
@[simp] def Param.regDispTest : Byte := 0x0F#8

/-- `SETTLE_DELAY`, in units of `DELAY_UNIT`. -/
@[simp] def Param.settleDelay : Nat := 250

/-- `INTENSITY_MAX`. -/
@[simp] def Param.intensityMax : Nat := 15

/-- `CHIPS_MIN`. -/
@[simp] def Param.chipsMin : Nat := 1

/-- `CHIPS_MAX`. -/
@[simp] def Param.chipsMax : Nat := 255

/-- `FMT_MAX`: capacity of the printf adapter (D22). -/
@[simp] def Param.fmtMax : Nat := 63

/-- `TIME_MAX`: bound on a time-source string. -/
@[simp] def Param.timeMax : Nat := 63

end Sys2Proof
end

