-- ==== Sys2Proof/Syntax.lean ====
section
/-! DEFINITION. The instructions: the 16 host commands (R82) and the 14 frames at the chain (R72, R201–R207), one
constructor per row of spec/opcode_table.json, in the table's order. -/

namespace Sys2Proof

/-- One row of the opcode table each.  Commands carry their operands (R80); a frame carries its value byte (R70),
its register byte being the row itself. -/
inductive Instr where
  /-- `SETINT v` (R180). -/
  | setint (v : Byte)
  /-- `SETCHIPS n` (R181). -/
  | setchips (n : Byte)
  /-- `SETWR w` (R182). -/
  | setwr (w : Byte)
  /-- `SETUP` (R110). -/
  | setup
  /-- `UPDATE` (R135). -/
  | update
  /-- `DISPLAY` (R136). -/
  | display
  /-- `DRAW_DONE` (R138). -/
  | drawDone
  /-- `SETCOL idx, v` (R183). -/
  | setcol (idx : Half) (v : Byte)
  /-- `PRINTAT pos, s` (R155). -/
  | printat (pos : Half) (str : List Byte)
  /-- `PRINT s` (R156). -/
  | print (str : List Byte)
  /-- `PRINTFAT pos, s` (R157): `s` is the host-formatted result. -/
  | printfat (pos : Half) (str : List Byte)
  /-- `PRINTF s` (R158). -/
  | printf (str : List Byte)
  /-- `STRFTAT pos, s` (R159): `s` is the time source's result. -/
  | strftat (pos : Half) (str : List Byte)
  /-- `STRFT s` (R160). -/
  | strft (str : List Byte)
  /-- `WIDTH` (R184). -/
  | width
  /-- `HEIGHT` (R185). -/
  | height
  /-- NOOP frame (R201). -/
  | noop (val : Byte)
  /-- ROW1 frame (R202). -/
  | row1 (val : Byte)
  /-- ROW2 frame (R202). -/
  | row2 (val : Byte)
  /-- ROW3 frame (R202). -/
  | row3 (val : Byte)
  /-- ROW4 frame (R202). -/
  | row4 (val : Byte)
  /-- ROW5 frame (R202). -/
  | row5 (val : Byte)
  /-- ROW6 frame (R202). -/
  | row6 (val : Byte)
  /-- ROW7 frame (R202). -/
  | row7 (val : Byte)
  /-- ROW8 frame (R202). -/
  | row8 (val : Byte)
  /-- DECODE frame (R203). -/
  | decode (val : Byte)
  /-- INTENSITY frame (R204). -/
  | intensity (val : Byte)
  /-- SCANLIMIT frame (R205). -/
  | scanlimit (val : Byte)
  /-- SHUTDOWN frame (R206). -/
  | shutdown (val : Byte)
  /-- DISPTEST frame (R207). -/
  | disptest (val : Byte)
deriving DecidableEq, Repr

/-- The two places an instruction can arrive: the host command port (R2, R81) or one chip of the chain (R70, R200). -/
inductive Port where
  /-- The host command port: byte-string commands. -/
  | host
  /-- A chip of the chain: 16-bit frames. -/
  | chain
deriving DecidableEq, Repr

/-- The port at which an instruction arrives. -/
def Instr.port : Instr → Port
  | .setint _ | .setchips _ | .setwr _ | .setup | .update | .display | .drawDone | .setcol _ _ | .printat _ _ | .print _
  | .printfat _ _ | .printf _ | .strftat _ _ | .strft _ | .width | .height => .host
  | .noop _ | .row1 _ | .row2 _ | .row3 _ | .row4 _ | .row5 _ | .row6 _ | .row7 _ | .row8 _ | .decode _ | .intensity _
  | .scanlimit _ | .shutdown _ | .disptest _ => .chain

end Sys2Proof
end

