-- ==== Sys2Proof/Machine/State.lean ====
section
/-! DEFINITION. The state of the machine as plain data: the engine's record (R22), the chain's register images (R34), the
host command port's input and output, the parameters the model takes (R7), and the codes of the model's two outcome marks
(R234, R236); and the state after reset (R260, R261). -/

namespace Sys2Proof.Machine

/-- The fault codes (R234).  A fault is no stop of the machine: the operation that raises it sets the sticky mark
`faulted` and records the code with the command (R235, log entry 1), so `exec` and `step` never answer `Outcome.fault`.
Unsafe for a claim that ignores the mark: a marked state is never final (R31). -/
inductive Fault where
  /-- `F_UNSET`: a command reads `cfg.chips` or `cfg.intensity` while it is `⊥`; raised by `SETUP` and `WIDTH` (and by any
  command that iterates chips in a state no run reaches).  Safe: toward unprovable (D10). -/
  | fUnset
  /-- `F_NO_BUFFER`: a command needs the Frame Buffer in `PRE_SETUP`; raised by `UPDATE`, `DISPLAY`, `SETCOL` and the six
  print commands.  Safe: toward unprovable (D14). -/
  | fNoBuffer
  /-- `F_OOB`: a Frame Buffer access, glyph index or chip position outside its range, with the index; raised by the
  memory primitives, `WRITE_ONE` and a frame received at a position that is no chip's.  Safe (D19). -/
  | fOob (index : Nat)
  /-- `F_TXN`: a bus primitive in the wrong transaction state; raised by the bus primitives, in no state a run reaches.
  Safe (R100). -/
  | fTxn
deriving DecidableEq, Repr

/-- The refusal codes (R236).  A refusal is no stop of the machine: it sets the sticky mark `refused` and records the code
with the command, which has no effect (log entry 1), so no meaning answers `Outcome.refused`. -/
inductive Refusal where
  /-- An instruction without a meaning in this model, rejected by name; raised by no arm of `exec`.  Safe. -/
  | notModelled (mnemonic : String)
  /-- `R_ILLEGAL`: the command bytes decode to no command; raised by the fetch.  Safe: toward unprovable (D2). -/
  | rIllegal
  /-- `R_RANGE`: `SETINT v` with `v > 15`, `SETCHIPS 0`.  Safe: toward unprovable (D11). -/
  | rRange
  /-- `R_FROZEN`: `SETCHIPS` after `SETUP`.  Safe: toward unprovable (D12). -/
  | rFrozen
  /-- `R_RESETUP`: a second `SETUP`.  Safe: toward unprovable (D15). -/
  | rResetup
  /-- `R_CONTEXT`: a command not admitted in the callback window, or `DRAW_DONE` outside one.  Safe: toward unprovable
  (D16). -/
  | rContext
  /-- `R_BAD_WRITER`: `SETWR w` with `w` no entry of `WRITERS`.  Safe (D17). -/
  | rBadWriter
  /-- `R_NO_TIMESRC`: `STRFTAT`, `STRFT` with `TIME_SOURCE` false.  Safe: toward unprovable (D23). -/
  | rNoTimesrc
  /-- `R_TOO_LONG`: `STRFTAT`, `STRFT` with a string longer than `TIME_MAX`.  Safe: toward unprovable (D23). -/
  | rTooLong
deriving DecidableEq, Repr

/-- The command that is recorded with a mark (R235, R236): a decoded instruction, or bytes that spell none. -/
inductive Issued where
  /-- The instruction that raised or was refused. -/
  | instr (i : Instr)
  /-- Bytes that decode to no instruction (R84), or a frame with a reserved register (R210). -/
  | bytes (bs : List Byte)
deriving DecidableEq, Repr

/-- The engine's lifecycle (R26). -/
inductive Phase where
  /-- `PRE_SETUP`. -/
  | preSetup
  /-- `RUNNING`. -/
  | running
  /-- `IN_CALLBACK`. -/
  | inCallback
deriving DecidableEq, Repr

/-- The events of the bus port (R29). -/
inductive BusEvent where
  /-- `BEGIN`: assert select (R100). -/
  | txnBegin
  /-- `BYTE(b)` (R101). -/
  | byte (b : Byte)
  /-- `END`: deassert (R102). -/
  | txnEnd
  /-- `DELAY(n)` (R106). -/
  | delay (n : Nat)
deriving DecidableEq, Repr

/-- The events of the log port (R30, R232). -/
inductive LogEvent where
  /-- `LOG(LOG_UNKNOWN_GLYPH, (ch, cur))`. -/
  | unknownGlyph (ch : Byte) (cur : Nat)
  /-- `LOG(LOG_OVERFLOW, cur)`. -/
  | overflow (cur : Nat)
deriving DecidableEq, Repr

/-- The Frame Buffer's storage (R27, R51): `size` bytes at addresses 0 … size − 1, held as the bytes that differ from the
0x00 every address holds when the buffer is created (D13), addresses strictly rising. -/
structure Memory where
  /-- The number of bytes, `W` (R51). -/
  size  : Nat
  /-- The listed bytes; an unlisted address below `size` reads as 0x00. -/
  cells : List Host.Cell
deriving DecidableEq, Repr

/-- The registers of a chip that have a cell (R34). -/
inductive ChipReg where
  /-- Row register 1. -/
  | row1
  /-- Row register 2. -/
  | row2
  /-- Row register 3. -/
  | row3
  /-- Row register 4. -/
  | row4
  /-- Row register 5. -/
  | row5
  /-- Row register 6. -/
  | row6
  /-- Row register 7. -/
  | row7
  /-- Row register 8. -/
  | row8
  /-- The decode-mode register. -/
  | decode
  /-- The intensity register. -/
  | intensity
  /-- The scan-limit register. -/
  | scanLimit
  /-- The shutdown register. -/
  | shutdown
  /-- The display-test register. -/
  | dispTest
deriving DecidableEq, Repr

/-- The register image of one chip (R34): every cell is a byte, or `none` for `⊥`, the spec's "any value". -/
structure ChipImage where
  /-- `reg[1]`. -/
  row1      : Option Byte
  /-- `reg[2]`. -/
  row2      : Option Byte
  /-- `reg[3]`. -/
  row3      : Option Byte
  /-- `reg[4]`. -/
  row4      : Option Byte
  /-- `reg[5]`. -/
  row5      : Option Byte
  /-- `reg[6]`. -/
  row6      : Option Byte
  /-- `reg[7]`. -/
  row7      : Option Byte
  /-- `reg[8]`. -/
  row8      : Option Byte
  /-- `reg[REG_DECODE]`. -/
  decode    : Option Byte
  /-- `reg[REG_INTENSITY]`. -/
  intensity : Option Byte
  /-- `reg[REG_SCANLIMIT]`. -/
  scanLimit : Option Byte
  /-- `reg[REG_SHUTDOWN]`. -/
  shutdown  : Option Byte
  /-- `reg[REG_DISPTEST]`. -/
  dispTest  : Option Byte
deriving DecidableEq, Repr

/-- A chip whose every cell is `⊥` (R34, R261). -/
def ChipImage.unknown : ChipImage :=
  { row1 := none, row2 := none, row3 := none, row4 := none, row5 := none, row6 := none, row7 := none, row8 := none,
    decode := none, intensity := none, scanLimit := none, shutdown := none, dispTest := none }

/-- One thing the outside world has sent the machine and the machine has not yet run (log entries 3, 5). -/
inductive Input where
  /-- Bytes issued on the host command port: one command, or several after one another (R81). -/
  | command (bytes : List Byte)
  /-- A frame received by logical chip `chip` (R200, R210). -/
  | frame (chip : Nat) (reg val : Byte)
deriving DecidableEq, Repr

/-- The parameters of R7 that the model takes as an argument; no instruction writes one (R36, log entry 8). -/
structure Params where
  /-- `GLYPH`: the glyph ROM's bytes, index 0 first (R54). -/
  glyphs         : List Byte
  /-- `UNKNOWN_GLYPH`. -/
  unknownGlyph   : Byte
  /-- `TIME_SOURCE`: whether a time source is supplied. -/
  timeSource     : Bool
  /-- The number of entries of the host's table `WRITERS`; `w` names an entry when it is below (R182). -/
  writerCount    : Nat
  /-- `DELAY_UNIT`. -/
  delayUnit      : Nat
  /-- `UPDATE_INTERVAL`. -/
  updateInterval : Nat
  /-- `BUS`. -/
  busHandle      : Nat
  /-- `CS_LINE`. -/
  csLine         : Nat
deriving DecidableEq, Repr

/-- The machine: the fields of R22 under their names, then the chain (R34), then the model's own fields. -/
structure State where
  /-- `cfg.chips`, `none` for `⊥` (R23). -/
  chips      : Option Byte
  /-- `cfg.intensity`, `none` for `⊥` (R24). -/
  intensity  : Option Byte
  /-- `cfg.writer` (R25). -/
  writer     : Option Byte
  /-- `phase` (R26). -/
  phase      : Phase
  /-- `fb`, absent before `SETUP` (R27). -/
  fb         : Option Memory
  /-- `txn_open` (R28). -/
  txnOpen    : Bool
  /-- `bus_trace`, oldest first (R29). -/
  busTrace   : List BusEvent
  /-- `log_trace`, oldest first (R30). -/
  logTrace   : List LogEvent
  /-- `faulted`, sticky (R31). -/
  faulted    : Bool
  /-- `refused`, sticky (R31). -/
  refused    : Bool
  /-- The code and command recorded with the mark `faulted`, each fault's, oldest first (R235, log entry 2). -/
  faultLog   : List (Fault × Issued)
  /-- The code and command recorded with the mark `refused`, each refusal's, oldest first (R236, log entry 2). -/
  refusalLog : List (Refusal × Issued)
  /-- `chip[j]`, position j of the list; 255 positions, those from `cfg.chips` up being no chip's (R34, log entry 7). -/
  chain      : List ChipImage
  /-- The results returned on the host command port, oldest first (R2, R10, log entry 12). -/
  results    : List Nat
  /-- What has been sent to the machine and not yet run, oldest first (R21, log entry 3). -/
  inbox      : List Input
  /-- The chip position at which the frame being run was received (R210, log entry 5). -/
  rxChip     : Nat
  /-- The parameters (R7). -/
  par        : Params
deriving DecidableEq, Repr

/-- The parameters as the machine is built: every OPEN one is Config's, which nothing knows (log entries 8, 9). -/
def Params.built : Params :=
  { glyphs := (List.range Param.glyphCount).map Config.glyph
    unknownGlyph := Config.unknownGlyph
    timeSource := Config.timeSource
    writerCount := Config.writerCount
    delayUnit := Config.delayUnit
    updateInterval := Config.updateInterval
    busHandle := Config.busHandle
    csLine := Config.csLine }

/-- The machine right after reset (R260, R261). -/
def State.reset : State :=
  { chips := none, intensity := none, writer := none, phase := .preSetup, fb := none, txnOpen := false
    busTrace := [], logTrace := [], faulted := false, refused := false, faultLog := [], refusalLog := []
    chain := List.replicate Param.chipsMax ChipImage.unknown
    results := [], inbox := [], rxChip := 0, par := Params.built }

end Sys2Proof.Machine
end

