-- ==== Sys2Proof/Machine/Ops.lean ====
section
/-! DEFINITION. The named operations over the state: the model's outcome marks (R233–R236), the storage primitives
(R53, R54), the chain's cells and the latch (R34, R200–R210), the bus primitives (R100–R106) and the ports. -/

namespace Sys2Proof.Machine

/-- An internal operation: a result and the state after it, or a fault and the state at which it was raised ("the command
has no further effect", R235). -/
abbrev Act := EStateM Fault State

/-! ### Outcome marks -/

/-- `raise Fault(code)` on the state: the mark is set and the code and command recorded; nothing else changes (R235). -/
def State.markFault (s : State) (f : Fault) (c : Issued) : State :=
  { s with faulted := true, faultLog := s.faultLog ++ [(f, c)] }

/-- `refuse(code)` on the state: the mark is set and the code and command recorded; nothing else changes (R236). -/
def State.markRefusal (s : State) (r : Refusal) (c : Issued) : State :=
  { s with refused := true, refusalLog := s.refusalLog ++ [(r, c)] }

/-- An instruction raises a fault before its first write (R235). -/
def raise (f : Fault) (i : Instr) (s : State) : State := s.markFault f (.instr i)

/-- An instruction is refused and has no effect (R236). -/
def refuse (r : Refusal) (i : Instr) (s : State) : State := s.markRefusal r (.instr i)

/-- The state an instruction's execution ends in: the operation's, or the one at the fault with the fault marked (R235). -/
def concluded (i : Instr) (act : Act Unit) (s : State) : State :=
  match act s with
  | .ok _ t => t
  | .error f t => t.markFault f (.instr i)

/-- An instruction that every phase admits runs to its end; whatever happens, the machine goes on (R230). -/
def conclude (i : Instr) (act : Act Unit) (s : State) : Host.Outcome State Fault Refusal := .next (concluded i act s)

/-- Run an operation for each index in turn: the `for` of the spec's pseudocode. -/
def forEach : List Nat → (Nat → Act Unit) → Act Unit
  | [], _ => pure ()
  | k :: ks, body => do
    body k
    forEach ks body

/-! ### The Frame Buffer (R51, R53) -/

/-- What an unlisted address of the buffer reads as: the byte the buffer is created with (D13). -/
def blankByte : Byte := 0x00#8

/-- The byte at an address among listed cells. -/
def cellAt : List Host.Cell → Nat → Byte
  | [], _ => blankByte
  | (a, b) :: rest, c => if a = c then b else cellAt rest c

/-- Put a byte at an address, keeping the canonical form: addresses rising, no blank byte listed. -/
def putCell : List Host.Cell → Nat → Byte → List Host.Cell
  | [], c, v => if v = blankByte then [] else [(c, v)]
  | (a, b) :: rest, c, v =>
    if c < a then (if v = blankByte then (a, b) :: rest else (c, v) :: (a, b) :: rest)
    else if c = a then (if v = blankByte then rest else (c, v) :: rest)
    else (a, b) :: putCell rest c v

/-- Listed addresses are at least `lo`, strictly rising and below `size`, and no listed byte is blank. -/
def cellsWf (size : Nat) : Nat → List Host.Cell → Bool
  | _, [] => true
  | lo, (a, b) :: rest => decide (lo ≤ a) && decide (a < size) && decide (b ≠ blankByte) && cellsWf size (a + 1) rest

/-- The canonical form of a buffer: equal contents are equal data. -/
def Memory.wf (m : Memory) : Bool := cellsWf m.size 0 m.cells

/-- A buffer of `size` bytes, all 0x00 (R27, R131). -/
def Memory.zeros (size : Nat) : Memory := { size := size, cells := [] }

/-- The byte at column `c`, where there is one (R53). -/
def Memory.read (m : Memory) (c : Nat) : Option Byte := if c < m.size then some (cellAt m.cells c) else none

/-- The buffer with column `c` set to `v`, where there is such a column (R53). -/
def Memory.write (m : Memory) (c : Nat) (v : Byte) : Option Memory :=
  if c < m.size then some { m with cells := putCell m.cells c v } else none

/-- `fb[c]` as a value: none where there is no buffer or no such column. -/
def State.column (s : State) (c : Nat) : Option Byte := s.fb.bind (·.read c)

/-- The buffer; without one, `F_NO_BUFFER` (R234). -/
def buffer : Act Memory := fun s =>
  match s.fb with
  | some m => .ok m s
  | none => .error .fNoBuffer s

/-- Replace the buffer. -/
def setBuffer (m : Memory) : Act Unit := fun s => .ok () { s with fb := some m }

/-- `MemRead(FB, c, 1)` (R53). -/
def memRead (c : Nat) : Act Byte := fun s =>
  match s.fb with
  | none => .error .fNoBuffer s
  | some m =>
    match m.read c with
    | some b => .ok b s
    | none => .error (.fOob c) s

/-- `MemWrite(FB, c, 1, v)` (R53). -/
def memWrite (c : Nat) (v : Byte) : Act Unit := fun s =>
  match s.fb with
  | none => .error .fNoBuffer s
  | some m =>
    match m.write c v with
    | some m' => .ok () { s with fb := some m' }
    | none => .error (.fOob c) s

/-- `GLYPH[k]`: the ROM is never read out of bounds (R54). -/
def glyphRead (k : Nat) : Act Byte := fun s =>
  match s.par.glyphs[k]? with
  | some b => .ok b s
  | none => .error (.fOob k) s

/-! ### Configuration (R23) -/

/-- `N`, the chip count; `F_UNSET` while it is `⊥` (R8, R234). -/
def chipCount : Act Nat := fun s =>
  match s.chips with
  | some n => .ok n.toNat s
  | none => .error .fUnset s

/-- `W = 8 × N` for a chip count `N`, exact (R8, R184). -/
def widthOf (n : Nat) : Nat := Param.colsPerChip * n

/-- `W`. -/
def bufferWidth : Act Nat := do
  let n ← chipCount
  pure (widthOf n)

/-! ### The log port and the command port's results -/

/-- `Log(code, info)` (R232). -/
def log (e : LogEvent) : Act Unit := fun s => .ok () { s with logTrace := s.logTrace ++ [e] }

/-- The number of a log code (R232). -/
def LogEvent.code : LogEvent → Nat
  | .unknownGlyph _ _ => 1
  | .overflow _ => 2

/-- `return v`: the result on the host command port (R10). -/
def reply (v : Nat) : Act Unit := fun s => .ok () { s with results := s.results ++ [v] }

/-- Enter a phase (R26). -/
def setPhase (p : Phase) : Act Unit := fun s => .ok () { s with phase := p }

/-! ### The chain (R34, R200–R210) -/

/-- The register at an address; none for `REG_NOOP` and the reserved addresses (R34, R35). -/
def ChipReg.ofAddr (a : Byte) : Option ChipReg :=
  if a = Param.regRow 7 then some .row1
  else if a = Param.regRow 6 then some .row2
  else if a = Param.regRow 5 then some .row3
  else if a = Param.regRow 4 then some .row4
  else if a = Param.regRow 3 then some .row5
  else if a = Param.regRow 2 then some .row6
  else if a = Param.regRow 1 then some .row7
  else if a = Param.regRow 0 then some .row8
  else if a = Param.regDecode then some .decode
  else if a = Param.regIntensity then some .intensity
  else if a = Param.regScanLimit then some .scanLimit
  else if a = Param.regShutdown then some .shutdown
  else if a = Param.regDispTest then some .dispTest
  else none

/-- A register's cell. -/
def ChipImage.get (c : ChipImage) : ChipReg → Option Byte
  | .row1 => c.row1
  | .row2 => c.row2
  | .row3 => c.row3
  | .row4 => c.row4
  | .row5 => c.row5
  | .row6 => c.row6
  | .row7 => c.row7
  | .row8 => c.row8
  | .decode => c.decode
  | .intensity => c.intensity
  | .scanLimit => c.scanLimit
  | .shutdown => c.shutdown
  | .dispTest => c.dispTest

/-- `reg[r] <- v`. -/
def ChipImage.set (c : ChipImage) (r : ChipReg) (v : Byte) : ChipImage :=
  match r with
  | .row1 => { c with row1 := some v }
  | .row2 => { c with row2 := some v }
  | .row3 => { c with row3 := some v }
  | .row4 => { c with row4 := some v }
  | .row5 => { c with row5 := some v }
  | .row6 => { c with row6 := some v }
  | .row7 => { c with row7 := some v }
  | .row8 => { c with row8 := some v }
  | .decode => { c with decode := some v }
  | .intensity => { c with intensity := some v }
  | .scanLimit => { c with scanLimit := some v }
  | .shutdown => { c with shutdown := some v }
  | .dispTest => { c with dispTest := some v }

/-- What a chip does with one frame: nothing for `REG_NOOP` (R201), the register's write (R202–R207), and every cell `⊥`
for a reserved address (R210). -/
def ChipImage.receive (c : ChipImage) (reg val : Byte) : ChipImage :=
  if reg = Param.regNoop then c
  else
    match ChipReg.ofAddr reg with
    | some r => c.set r val
    | none => ChipImage.unknown

/-- Chip `j` applies frame `j`, for every frame; the chips after the last frame keep their image (R200). -/
def applyFrames : List (Byte × Byte) → List ChipImage → List ChipImage
  | (reg, val) :: fs, c :: cs => c.receive reg val :: applyFrames fs cs
  | [], cs => cs
  | _ :: _, [] => []

/-- The bytes of a transaction as frames `(b[2j], b[2j+1])` (R200). -/
def framesOf : List Byte → List (Byte × Byte)
  | reg :: val :: rest => (reg, val) :: framesOf rest
  | _ => []

/-- The bytes after the last `BEGIN` of a list of events, `acc` being those before it. -/
def openBytesFrom : List BusEvent → List Byte → List Byte
  | [], acc => acc
  | .txnBegin :: es, _ => openBytesFrom es []
  | .byte b :: es, acc => openBytesFrom es (acc ++ [b])
  | .txnEnd :: es, acc => openBytesFrom es acc
  | .delay _ :: es, acc => openBytesFrom es acc

/-- The bytes sent since the last `BEGIN`. -/
def openBytes (trace : List BusEvent) : List Byte := openBytesFrom trace []

/-- The latch at an `END` (R200): a transaction of exactly `N` frames is applied, all chips at once; after any other, or
while `N` is `⊥` (log entry 16), every cell of every chip is `⊥`. -/
def latch (chips : Option Byte) (bytes : List Byte) (chain : List ChipImage) : List ChipImage :=
  match chips with
  | some n =>
    if bytes.length = 2 * n.toNat then applyFrames (framesOf bytes) chain
    else chain.map fun _ => ChipImage.unknown
  | none => chain.map fun _ => ChipImage.unknown

/-- The image of chip `j`. -/
def State.chip (s : State) (j : Nat) : ChipImage := s.chain.getD j ChipImage.unknown

/-- The cell at a register address, none for `⊥` and for an address without a cell (R34, R35). -/
def ChipImage.cell (c : ChipImage) (a : Byte) : Option Byte :=
  match ChipReg.ofAddr a with
  | some r => c.get r
  | none => none

/-- `chip[j].reg[a]`. -/
def State.chipReg (s : State) (j : Nat) (a : Byte) : Option Byte := (s.chip j).cell a

/-- The number of chip positions: `N`, or while `N` is `⊥` the most there can be (log entry 5). -/
def State.chipLimit (s : State) : Nat :=
  match s.chips with
  | some n => n.toNat
  | none => Param.chipsMax

/-- Chip `j`'s image replaced by what the chip makes of it. -/
def updateChip (f : ChipImage → ChipImage) : Nat → List ChipImage → List ChipImage
  | _, [] => []
  | 0, c :: cs => f c :: cs
  | j + 1, c :: cs => c :: updateChip f j cs

/-- The chip at the receiving position takes one frame; a position that is no chip's is `F_OOB` (R234). -/
def chipReceives (reg val : Byte) : Act Unit := fun s =>
  if s.rxChip < s.chipLimit then .ok () { s with chain := updateChip (·.receive reg val) s.rxChip s.chain }
  else .error (.fOob s.rxChip) s

/-! ### The bus primitives (R100–R106) -/

/-- `BusBegin()` (R100). -/
def busBegin : Act Unit := fun s =>
  if s.txnOpen then .error .fTxn s
  else .ok () { s with txnOpen := true, busTrace := s.busTrace ++ [.txnBegin] }

/-- `BusWrite(b)` (R101). -/
def busWrite (b : Byte) : Act Unit := fun s =>
  if s.txnOpen then .ok () { s with busTrace := s.busTrace ++ [.byte b] }
  else .error .fTxn s

/-- `BusEnd()` (R102): the transaction closes and the chain latches (R200). -/
def busEnd : Act Unit := fun s =>
  if s.txnOpen then
    .ok () { s with txnOpen := false, busTrace := s.busTrace ++ [.txnEnd]
                    chain := latch s.chips (openBytes s.busTrace) s.chain }
  else .error .fTxn s

/-- `SendFrame(reg, val)` (R103): the register byte first. -/
def sendFrame (reg val : Byte) : Act Unit := do
  busWrite reg
  busWrite val

/-- `Delay(n)` (R106). -/
def delay (n : Nat) : Act Unit := fun s =>
  if s.txnOpen then .error .fTxn s
  else .ok () { s with busTrace := s.busTrace ++ [.delay n] }

/-- The bits of a byte in the order in which they leave: most significant first (R55, R101). -/
def wireBits (b : Byte) : List Bool := (List.range 8).map fun k => b.getLsbD (7 - k)

/-- The bits that these events put on the wire, in order; only bytes do (R56, R106). -/
def wireOf : List BusEvent → List Bool
  | [] => []
  | .byte b :: es => wireBits b ++ wireOf es
  | .txnBegin :: es => wireOf es
  | .txnEnd :: es => wireOf es
  | .delay _ :: es => wireOf es

end Sys2Proof.Machine
end

