-- ==== Sys2Proof/Machine/Flags.lean ====
section
/-! DEFINITION. The engine has no flags and no condition codes (R32): no instruction sets one.  Its only status is the
phase and the model's marks; here stand the tests of the status that the commands' admission rules make (R137, R162, R180,
R182, R183), each answering the first test that fails in the order of R237, and the status of a completed run (R272). -/

namespace Sys2Proof.Machine

/-- What an admission test says of a command. -/
inductive Admission where
  /-- The command executes. -/
  | admitted
  /-- It is refused with this code. -/
  | refusedWith (r : Refusal)
  /-- It raises this fault. -/
  | raises (f : Fault)
deriving DecidableEq, Repr

/-- A setter that may run before and after setup, but not in the callback window (`SETINT` R180, `SETWR` R182). -/
def admitSetter : Phase → Admission
  | .preSetup => .admitted
  | .running => .admitted
  | .inCallback => .refusedWith .rContext

/-- `SETCHIPS` (R181). -/
def admitSetchips : Phase → Admission
  | .preSetup => .admitted
  | .running => .refusedWith .rFrozen
  | .inCallback => .refusedWith .rContext

/-- `SETUP` (R110). -/
def admitSetup : Phase → Admission
  | .preSetup => .admitted
  | .running => .refusedWith .rResetup
  | .inCallback => .refusedWith .rContext

/-- `UPDATE` and `DISPLAY` (R135, R136). -/
def admitCycle : Phase → Admission
  | .preSetup => .raises .fNoBuffer
  | .running => .admitted
  | .inCallback => .refusedWith .rContext

/-- `DRAW_DONE` (R138). -/
def admitDrawDone : Phase → Admission
  | .preSetup => .refusedWith .rContext
  | .running => .refusedWith .rContext
  | .inCallback => .admitted

/-- `SETCOL` and the print family (R183, R162). -/
def admitBufferUse : Phase → Admission
  | .preSetup => .raises .fNoBuffer
  | .running => .admitted
  | .inCallback => .admitted

/-- Run a command that has been tested: execute it, or mark its refusal or fault; whatever the test says, the machine goes on
(R230). -/
def guarded (a : Admission) (i : Instr) (run : State → State) (s : State) : Host.Outcome State Fault Refusal :=
  .next (match a with
    | .admitted => run s
    | .refusedWith r => refuse r i s
    | .raises f => raise f i s)

/-- The engine is idle: no window and no transaction is open (R272). -/
def State.idle (s : State) : Bool := decide (s.phase ≠ .inCallback) && !s.txnOpen

/-- The run ends here: the host's last command has run, so nothing sent is waiting, and the engine is idle (R272). -/
def State.ended (s : State) : Bool := s.inbox.isEmpty && s.idle

/-- A completed run ends here: ended, and neither mark set (R31, R272). -/
def State.completed (s : State) : Bool := s.ended && !s.faulted && !s.refused

end Sys2Proof.Machine
end

