-- ==== Sys2Proof/Machine/Refresh.lean ====
section
/-! DEFINITION. The refresh engine and the update cycle (41_refresh_engine.md): `CLEAR`, `REFRESH`, `UPDATE`, `DISPLAY`
and `DRAW_DONE`. -/

namespace Sys2Proof.Machine

/-- `CLEAR` (R131): every byte of the buffer is 0x00. -/
def clear : Act Unit := do
  let _ ← bufferWidth
  let m ← buffer
  setBuffer (Memory.zeros m.size)

/-- One frame of pass `i`, for chip `j` (R132): the value is the buffer's byte, unchanged (R73). -/
def sendColumn (i j : Nat) : Act Unit := do
  let v ← memRead (Param.colsPerChip * j + i)
  sendFrame (Param.regRow i) v

/-- Pass `i` of a refresh: one transaction, a frame for each chip from 0 to N − 1 (R132). -/
def refreshPass (n i : Nat) : Act Unit := do
  busBegin
  forEach (List.range n) (sendColumn i)
  busEnd

/-- `REFRESH` (R132): eight passes, row index 0 to 7, registers 8 down to 1. -/
def refresh : Act Unit := do
  let n ← chipCount
  forEach (List.range Param.rows) (refreshPass n)

/-- Step U1 of `UPDATE` with no writer, and U3 at once (R135). -/
def updateNoWriter : Act Unit := do
  clear
  refresh

/-- Step U1 of `UPDATE` with a writer: the window opens (R135). -/
def updateOpenWindow : Act Unit := do
  clear
  setPhase .inCallback

/-- `UPDATE` (R135). -/
def execUpdate (s : State) : Host.Outcome State Fault Refusal :=
  guarded (admitCycle s.phase) .update
    (concluded .update (match s.writer with | none => updateNoWriter | some _ => updateOpenWindow)) s

/-- `DISPLAY` (R136). -/
def execDisplay (s : State) : Host.Outcome State Fault Refusal :=
  guarded (admitCycle s.phase) .display (concluded .display refresh) s

/-- The return of the drawing callback (R138): step U3, then the window closes. -/
def closeWindow : Act Unit := do
  refresh
  setPhase .running

/-- `DRAW_DONE` (R138). -/
def execDrawDone (s : State) : Host.Outcome State Fault Refusal :=
  guarded (admitDrawDone s.phase) .drawDone (concluded .drawDone closeWindow) s

end Sys2Proof.Machine
end

