-- ==== Sys2Proof/Machine/Controller.lean ====
section
/-! DEFINITION. The chip chain controller (40_chain_controller.md): `BROADCAST`, `WRITE_ONE` and `SETUP`. -/

namespace Sys2Proof.Machine

/-- `BROADCAST(reg, val)` (R104). -/
def broadcast (reg val : Byte) : Act Unit := do
  let n ← chipCount
  busBegin
  forEach (List.range n) fun _ => sendFrame reg val
  busEnd

/-- One frame of `WRITE_ONE`: the real one for chip `k`, the dummy frame for every other chip (R105, D9). -/
def sendOneOrDummy (k : Nat) (reg val : Byte) (j : Nat) : Act Unit :=
  if j = k then sendFrame reg val else sendFrame Param.regNoop 0x00#8

/-- A chip position that is none is `F_OOB` (R105, R234). -/
def checkPosition (k n : Nat) : Act Unit := fun s => if k < n then .ok () s else .error (.fOob k) s

/-- `WRITE_ONE(k, reg, val)` (R105); no command calls it. -/
def writeOne (k : Nat) (reg val : Byte) : Act Unit := do
  let n ← chipCount
  checkPosition k n
  busBegin
  forEach (List.range n) (sendOneOrDummy k reg val)
  busEnd

/-- The initialization sequence of `SETUP`, with both settings known (R110). -/
def setupSequence (intensity : Byte) : Act Unit := do
  let w ← bufferWidth
  setBuffer (Memory.zeros w)
  broadcast Param.regShutdown Param.shutdownEnter
  broadcast Param.regDispTest Param.dispTestOff
  broadcast Param.regScanLimit Param.scanLimitValue
  broadcast Param.regDecode Param.decodeValue
  broadcast Param.regIntensity intensity
  delay Param.settleDelay
  refresh
  broadcast Param.regShutdown Param.shutdownExit
  setPhase .running

/-- `SETUP` admitted: it reads both settings before it writes anything (R110, R235). -/
def runSetup (s : State) : State :=
  match s.chips, s.intensity with
  | some _, some v => concluded .setup (setupSequence v) s
  | _, _ => raise .fUnset .setup s

/-- `SETUP` (R110). -/
def execSetup (s : State) : Host.Outcome State Fault Refusal :=
  guarded (admitSetup s.phase) .setup runSetup s

end Sys2Proof.Machine
end

