-- ==== Sys2Proof/Machine/Frames.lean ====
section
/-! DEFINITION. The frames at the chain (44_chain_frames.md): what the chip at the receiving position does with each frame.
The latch of `BusEnd()` applies the same `ChipImage.receive` to every chip at once (R200). -/

namespace Sys2Proof.Machine

/-- NOOP frame at the receiving chip: no cell changes (R201). -/
def execNoop (val : Byte) (s : State) : Host.Outcome State Fault Refusal :=
  conclude (.noop val) (chipReceives Param.regNoop val) s

/-- ROW1 frame at the receiving chip: `reg[1] <- val` (R202). -/
def execRow1 (val : Byte) (s : State) : Host.Outcome State Fault Refusal :=
  conclude (.row1 val) (chipReceives (Param.regRow 7) val) s

/-- ROW2 frame at the receiving chip: `reg[2] <- val` (R202). -/
def execRow2 (val : Byte) (s : State) : Host.Outcome State Fault Refusal :=
  conclude (.row2 val) (chipReceives (Param.regRow 6) val) s

/-- ROW3 frame at the receiving chip: `reg[3] <- val` (R202). -/
def execRow3 (val : Byte) (s : State) : Host.Outcome State Fault Refusal :=
  conclude (.row3 val) (chipReceives (Param.regRow 5) val) s

/-- ROW4 frame at the receiving chip: `reg[4] <- val` (R202). -/
def execRow4 (val : Byte) (s : State) : Host.Outcome State Fault Refusal :=
  conclude (.row4 val) (chipReceives (Param.regRow 4) val) s

/-- ROW5 frame at the receiving chip: `reg[5] <- val` (R202). -/
def execRow5 (val : Byte) (s : State) : Host.Outcome State Fault Refusal :=
  conclude (.row5 val) (chipReceives (Param.regRow 3) val) s

/-- ROW6 frame at the receiving chip: `reg[6] <- val` (R202). -/
def execRow6 (val : Byte) (s : State) : Host.Outcome State Fault Refusal :=
  conclude (.row6 val) (chipReceives (Param.regRow 2) val) s

/-- ROW7 frame at the receiving chip: `reg[7] <- val` (R202). -/
def execRow7 (val : Byte) (s : State) : Host.Outcome State Fault Refusal :=
  conclude (.row7 val) (chipReceives (Param.regRow 1) val) s

/-- ROW8 frame at the receiving chip: `reg[8] <- val` (R202). -/
def execRow8 (val : Byte) (s : State) : Host.Outcome State Fault Refusal :=
  conclude (.row8 val) (chipReceives (Param.regRow 0) val) s

/-- DECODE frame at the receiving chip: `reg[REG_DECODE] <- val` (R203). -/
def execDecode (val : Byte) (s : State) : Host.Outcome State Fault Refusal :=
  conclude (.decode val) (chipReceives Param.regDecode val) s

/-- INTENSITY frame at the receiving chip: `reg[REG_INTENSITY] <- val` (R204). -/
def execIntensity (val : Byte) (s : State) : Host.Outcome State Fault Refusal :=
  conclude (.intensity val) (chipReceives Param.regIntensity val) s

/-- SCANLIMIT frame at the receiving chip: `reg[REG_SCANLIMIT] <- val` (R205). -/
def execScanlimit (val : Byte) (s : State) : Host.Outcome State Fault Refusal :=
  conclude (.scanlimit val) (chipReceives Param.regScanLimit val) s

/-- SHUTDOWN frame at the receiving chip: `reg[REG_SHUTDOWN] <- val` (R206). -/
def execShutdown (val : Byte) (s : State) : Host.Outcome State Fault Refusal :=
  conclude (.shutdown val) (chipReceives Param.regShutdown val) s

/-- DISPTEST frame at the receiving chip: `reg[REG_DISPTEST] <- val` (R207). -/
def execDisptest (val : Byte) (s : State) : Host.Outcome State Fault Refusal :=
  conclude (.disptest val) (chipReceives Param.regDispTest val) s

end Sys2Proof.Machine
end

