-- ==== Sys2Proof/Machine/Operands.lean ====
section
/-! DEFINITION. The operand forms: how an `imm16` stands in the byte string (R81), what a natural number an operand is
(R80: zero-extended), and the capacity of the printf adapter (R157). -/

namespace Sys2Proof.Machine

/-- An `imm16` from its two bytes, high byte first (R81). -/
def imm16 (hi lo : Byte) : Half := hi ++ lo

/-- The high byte of an `imm16`. -/
def imm16Hi (h : Half) : Byte := h.extractLsb' 8 8

/-- The low byte of an `imm16`. -/
def imm16Lo (h : Half) : Byte := h.extractLsb' 0 8

/-- An operand of the command format as the natural number its rule reads: zero-extended, never signed (R9, R80). -/
def operand {w : Nat} (v : BitVec w) : Nat := v.toNat

/-- The formatted string the printf adapter keeps: at most `FMT_MAX` bytes, the tail lost (R157, D22). -/
def formatted (str : List Byte) : List Byte := str.take Param.fmtMax

/-- The time source's bound on its result (R159): no time source yields a longer string. -/
def withinTimeMax (str : List Byte) : Bool := str.length ≤ Param.timeMax

end Sys2Proof.Machine
end

