-- ==== Sys2Proof/Machine/Surface.lean ====
section
/-! DEFINITION. The configuration setters and the column surface (43_config_and_surface.md): `SETINT`, `SETCHIPS`, `SETWR`,
`SETCOL`, `WIDTH` and `HEIGHT`. -/

namespace Sys2Proof.Machine

/-- `SETINT v` (R180). -/
def execSetint (v : Byte) (s : State) : Host.Outcome State Fault Refusal :=
  guarded (admitSetter s.phase) (.setint v)
    (fun s => if operand v ≤ Param.intensityMax then { s with intensity := some v } else refuse .rRange (.setint v) s) s

/-- `SETCHIPS n` (R181). -/
def execSetchips (n : Byte) (s : State) : Host.Outcome State Fault Refusal :=
  guarded (admitSetchips s.phase) (.setchips n)
    (fun s => if Param.chipsMin ≤ operand n then { s with chips := some n } else refuse .rRange (.setchips n) s) s

/-- `SETWR w` (R182). -/
def execSetwr (w : Byte) (s : State) : Host.Outcome State Fault Refusal :=
  guarded (admitSetter s.phase) (.setwr w)
    (fun s => if operand w < s.par.writerCount then { s with writer := some w } else refuse .rBadWriter (.setwr w) s) s

/-- The column write of `SETCOL` (R183): out of range it is dropped, with no log. -/
def writeColumn (idx : Nat) (v : Byte) : Act Unit := do
  let w ← bufferWidth
  if idx < w then memWrite idx v else pure ()

/-- `SETCOL idx, v` (R183). -/
def execSetcol (idx : Half) (v : Byte) (s : State) : Host.Outcome State Fault Refusal :=
  guarded (admitBufferUse s.phase) (.setcol idx v) (concluded (.setcol idx v) (writeColumn (operand idx) v)) s

/-- Return `W` (R184). -/
def replyWidth : Act Unit := do
  let w ← bufferWidth
  reply w

/-- `WIDTH` (R184): in every phase. -/
def execWidth (s : State) : Host.Outcome State Fault Refusal := conclude .width replyWidth s

/-- `HEIGHT` (R185): in every phase. -/
def execHeight (s : State) : Host.Outcome State Fault Refusal := conclude .height (reply Param.height) s

end Sys2Proof.Machine
end

