-- ==== Sys2Proof/Machine/Text.lean ====
section
/-! DEFINITION. The text renderer (42_text_renderer.md): `RENDER` and the six print commands. -/

namespace Sys2Proof.Machine

/-- The glyph ROM has an entry for the byte: codepoints 0x20–0x7D (R151). -/
def representable (ch : Byte) : Bool :=
  decide (Param.glyphBase ≤ ch.toNat) && decide (ch.toNat < Param.glyphBase + Param.glyphCount)

/-- `UNKNOWN_GLYPH`, with its warning (R151, R232). -/
def unknownPattern (ch : Byte) (cur : Nat) : Act Byte := fun s =>
  .ok s.par.unknownGlyph { s with logTrace := s.logTrace ++ [.unknownGlyph ch cur] }

/-- The pattern of a character met at column `cur` (R150, R151). -/
def patternFor (ch : Byte) (cur : Nat) : Act Byte :=
  if representable ch then glyphRead (ch.toNat - Param.glyphBase) else unknownPattern ch cur

/-- Set the decimal-point bit of a column, its other bits kept (R152). -/
def setDot (c : Nat) : Act Unit := do
  let b ← memRead c
  memWrite c (b ||| Param.dpBit)

/-- `Log(LOG_OVERFLOW, cur); break` (R153). -/
def overflowAt (start cur : Nat) : Act Nat := do
  log (.overflow cur)
  pure (cur - start)

/-- The character loop of `RENDER` (R150), at cursor `cur`, for a buffer of width `w`. -/
def renderFrom (w start : Nat) : Nat → List Byte → Act Nat
  | cur, [] => pure (cur - start)
  | cur, ch :: rest =>
    if ch = Param.dot then
      if cur = start then
        if w ≤ start then overflowAt start cur
        else do
          setDot start
          renderFrom w start (start + 1) rest
      else do
        setDot (cur - 1)
        renderFrom w start cur rest
    else do
      let pat ← patternFor ch cur
      if w ≤ cur then overflowAt start cur
      else do
        memWrite cur pat
        renderFrom w start (cur + 1) rest

/-- `RENDER(start, s)` (R150). -/
def render (start : Nat) (str : List Byte) : Act Nat := do
  let w ← bufferWidth
  renderFrom w start start str

/-- Render and return the number of columns consumed (R155). -/
def renderAndReply (start : Nat) (str : List Byte) : Act Unit := do
  let r ← render start str
  reply r

/-- A print command on a string the engine renders whole, under the phase rule of the family (R162). -/
def printCommand (i : Instr) (start : Nat) (str : List Byte) (s : State) : Host.Outcome State Fault Refusal :=
  guarded (admitBufferUse s.phase) i (concluded i (renderAndReply start str)) s

/-- The admission of a time-formatted command: `TIME_SOURCE`, then the phase, then the length (R159, R237). -/
def admitTime (timeSource : Bool) (phase : Phase) (str : List Byte) : Admission :=
  if timeSource then
    match admitBufferUse phase with
    | .admitted => if withinTimeMax str then .admitted else .refusedWith .rTooLong
    | other => other
  else .refusedWith .rNoTimesrc

/-- A time-formatted print command (R159). -/
def timeCommand (i : Instr) (start : Nat) (str : List Byte) (s : State) : Host.Outcome State Fault Refusal :=
  guarded (admitTime s.par.timeSource s.phase str) i (concluded i (renderAndReply start str)) s

/-- `PRINTAT pos, s` (R155). -/
def execPrintat (pos : Half) (str : List Byte) (s : State) : Host.Outcome State Fault Refusal :=
  printCommand (.printat pos str) (operand pos) str s

/-- `PRINT s` (R156): column 0. -/
def execPrint (str : List Byte) (s : State) : Host.Outcome State Fault Refusal :=
  printCommand (.print str) 0 str s

/-- `PRINTFAT pos, s` (R157): the tail beyond the adapter's capacity is lost. -/
def execPrintfat (pos : Half) (str : List Byte) (s : State) : Host.Outcome State Fault Refusal :=
  printCommand (.printfat pos str) (operand pos) (formatted str) s

/-- `PRINTF s` (R158). -/
def execPrintf (str : List Byte) (s : State) : Host.Outcome State Fault Refusal :=
  printCommand (.printf str) 0 (formatted str) s

/-- `STRFTAT pos, s` (R159). -/
def execStrftat (pos : Half) (str : List Byte) (s : State) : Host.Outcome State Fault Refusal :=
  timeCommand (.strftat pos str) (operand pos) str s

/-- `STRFT s` (R160). -/
def execStrft (str : List Byte) (s : State) : Host.Outcome State Fault Refusal :=
  timeCommand (.strft str) 0 str s

end Sys2Proof.Machine
end

