-- ==== Sys2Proof/Machine/Dispatch.lean ====
section
/-! DEFINITION. The meaning of every instruction: one arm for each row of spec/opcode_table.json. -/

namespace Sys2Proof.Machine

def exec (i : Instr) (s : State) : Host.Outcome State Fault Refusal :=
  match i with
  | .setint v => Sys2Proof.Machine.execSetint v s
  | .setchips n => Sys2Proof.Machine.execSetchips n s
  | .setwr w => Sys2Proof.Machine.execSetwr w s
  | .setup => Sys2Proof.Machine.execSetup s
  | .update => Sys2Proof.Machine.execUpdate s
  | .display => Sys2Proof.Machine.execDisplay s
  | .drawDone => Sys2Proof.Machine.execDrawDone s
  | .setcol idx v => Sys2Proof.Machine.execSetcol idx v s
  | .printat pos str => Sys2Proof.Machine.execPrintat pos str s
  | .print str => Sys2Proof.Machine.execPrint str s
  | .printfat pos str => Sys2Proof.Machine.execPrintfat pos str s
  | .printf str => Sys2Proof.Machine.execPrintf str s
  | .strftat pos str => Sys2Proof.Machine.execStrftat pos str s
  | .strft str => Sys2Proof.Machine.execStrft str s
  | .width => Sys2Proof.Machine.execWidth s
  | .height => Sys2Proof.Machine.execHeight s
  | .noop val => Sys2Proof.Machine.execNoop val s
  | .row1 val => Sys2Proof.Machine.execRow1 val s
  | .row2 val => Sys2Proof.Machine.execRow2 val s
  | .row3 val => Sys2Proof.Machine.execRow3 val s
  | .row4 val => Sys2Proof.Machine.execRow4 val s
  | .row5 val => Sys2Proof.Machine.execRow5 val s
  | .row6 val => Sys2Proof.Machine.execRow6 val s
  | .row7 val => Sys2Proof.Machine.execRow7 val s
  | .row8 val => Sys2Proof.Machine.execRow8 val s
  | .decode val => Sys2Proof.Machine.execDecode val s
  | .intensity val => Sys2Proof.Machine.execIntensity val s
  | .scanlimit val => Sys2Proof.Machine.execScanlimit val s
  | .shutdown val => Sys2Proof.Machine.execShutdown val s
  | .disptest val => Sys2Proof.Machine.execDisptest val s

end Sys2Proof.Machine
end

