-- ==== Sys2Proof/WellFormed.lean ====
section
/-! DEFINITION. Which instructions the command format can express: a `str` operand is a length byte and that many
bytes, so a string holds at most 255 bytes (R80, R81, R85).  Every other operand is the width its field has; the ranges
that a command's rule refuses (intensity, chip count) are no matter of form (R85). -/

namespace Sys2Proof

/-- The longest string whose length the `len` byte of a `str` operand can state (R85). -/
def maxStr : Nat := 255

/-- The command format can express the instruction. -/
def Instr.wellFormed : Instr → Bool
  | .printat _ str | .print str | .printfat _ str | .printf str | .strftat _ str | .strft str => str.length ≤ maxStr
  | .setint _ | .setchips _ | .setwr _ | .setup | .update | .display | .drawDone | .setcol _ _ | .width | .height
  | .noop _ | .row1 _ | .row2 _ | .row3 _ | .row4 _ | .row5 _ | .row6 _ | .row7 _ | .row8 _ | .decode _ | .intensity _
  | .scanlimit _ | .shutdown _ | .disptest _ => true

end Sys2Proof
end

