-- ==== Sys2Proof/Decode.lean ====
section
/-! DEFINITION. The decoder of the two encodings (the command format R80–R85 and the wire frame R70–R75), total on any
bytes and rejecting by name; after it the encoder, written from the same tables; and the host's numbering of a table
row's bits. -/

namespace Sys2Proof

/-- Why bytes spell no instruction.  For a command this is `INVALID(…)` of R83, R84, refused as `R_ILLEGAL` (R236). -/
inductive DecodeError where
  /-- `INVALID(truncated)`: the byte string ends before the command does (R83). -/
  | truncated
  /-- `INVALID(opcode)`: byte 0 is no opcode of the table (R84). -/
  | opcode (op : Byte)
  /-- A frame whose register address the spec reserves: 0x0D, 0x0E, 0x10–0xFF (R75, R210). -/
  | reserved (reg : Byte)
deriving DecidableEq, Repr

/-- The first `k` bytes and the bytes after them; none if there are fewer. -/
def takeBytes : Nat → List Byte → Option (List Byte × List Byte)
  | 0, bytes => some ([], bytes)
  | _ + 1, [] => none
  | k + 1, b :: bytes =>
    match takeBytes k bytes with
    | some (str, rest) => some (b :: str, rest)
    | none => none

/-- A `str` operand: `len : u8`, then `len` bytes; a 0x00 among them is an ordinary byte (R81). -/
def takeStr : List Byte → Except DecodeError (List Byte × List Byte)
  | [] => .error .truncated
  | len :: bytes =>
    match takeBytes len.toNat bytes with
    | some found => .ok found
    | none => .error .truncated

/-- One `imm8` operand. -/
def withImm8 (mk : Byte → Instr) : List Byte → Except DecodeError (Instr × List Byte)
  | v :: rest => .ok (mk v, rest)
  | [] => .error .truncated

/-- An `imm16` operand and then an `imm8` (the operands of `SETCOL`). -/
def withImm16Imm8 (mk : Half → Byte → Instr) : List Byte → Except DecodeError (Instr × List Byte)
  | hi :: lo :: v :: rest => .ok (mk (Machine.imm16 hi lo) v, rest)
  | _ => .error .truncated

/-- One `str` operand. -/
def withStr (mk : List Byte → Instr) (bytes : List Byte) : Except DecodeError (Instr × List Byte) :=
  match takeStr bytes with
  | .ok (str, rest) => .ok (mk str, rest)
  | .error e => .error e

/-- An `imm16` operand and then a `str`. -/
def withImm16Str (mk : Half → List Byte → Instr) : List Byte → Except DecodeError (Instr × List Byte)
  | hi :: lo :: rest => withStr (mk (Machine.imm16 hi lo)) rest
  | _ => .error .truncated

/-- The command that a byte string begins with, and the bytes after it (R82, R83). -/
def decodeCommand : List Byte → Except DecodeError (Instr × List Byte)
  | [] => .error .truncated
  | op :: rest =>
    if op = 0x01#8 then withImm8 .setint rest
    else if op = 0x02#8 then withImm8 .setchips rest
    else if op = 0x03#8 then withImm8 .setwr rest
    else if op = 0x10#8 then .ok (.setup, rest)
    else if op = 0x11#8 then .ok (.update, rest)
    else if op = 0x12#8 then .ok (.display, rest)
    else if op = 0x13#8 then .ok (.drawDone, rest)
    else if op = 0x20#8 then withImm16Imm8 .setcol rest
    else if op = 0x21#8 then withImm16Str .printat rest
    else if op = 0x22#8 then withStr .print rest
    else if op = 0x23#8 then withImm16Str .printfat rest
    else if op = 0x24#8 then withStr .printf rest
    else if op = 0x25#8 then withImm16Str .strftat rest
    else if op = 0x26#8 then withStr .strft rest
    else if op = 0x30#8 then .ok (.width, rest)
    else if op = 0x31#8 then .ok (.height, rest)
    else .error (.opcode op)

/-- The frame with register byte `reg` and value byte `val` (R70, R72, R201–R207). -/
def decodeFrame (reg val : Byte) : Except DecodeError Instr :=
  if reg = Param.regNoop then .ok (.noop val)
  else if reg = Param.regRow 7 then .ok (.row1 val)
  else if reg = Param.regRow 6 then .ok (.row2 val)
  else if reg = Param.regRow 5 then .ok (.row3 val)
  else if reg = Param.regRow 4 then .ok (.row4 val)
  else if reg = Param.regRow 3 then .ok (.row5 val)
  else if reg = Param.regRow 2 then .ok (.row6 val)
  else if reg = Param.regRow 1 then .ok (.row7 val)
  else if reg = Param.regRow 0 then .ok (.row8 val)
  else if reg = Param.regDecode then .ok (.decode val)
  else if reg = Param.regIntensity then .ok (.intensity val)
  else if reg = Param.regScanLimit then .ok (.scanlimit val)
  else if reg = Param.regShutdown then .ok (.shutdown val)
  else if reg = Param.regDispTest then .ok (.disptest val)
  else .error (.reserved reg)

/-- The decoder of both ports: the instruction the bytes begin with, and the bytes after it.  At the chain the register
byte comes first and the value byte second (R56, R70). -/
def decode : Port → List Byte → Except DecodeError (Instr × List Byte)
  | .host, bytes => decodeCommand bytes
  | .chain, reg :: val :: rest =>
    match decodeFrame reg val with
    | .ok i => .ok (i, rest)
    | .error e => .error e
  | .chain, _ => .error .truncated

/-- A `str` operand as bytes: its length, then its bytes (R81). -/
def encodeStr (str : List Byte) : List Byte := BitVec.ofNat 8 str.length :: str

/-- An `imm16` operand as bytes, high byte first (R81). -/
def encodeImm16 (h : Half) : List Byte := [Machine.imm16Hi h, Machine.imm16Lo h]

/-- The bytes of an instruction: opcode and operands of a command (R82), register and value of a frame (R70, R72). -/
def encode : Instr → List Byte
  | .setint v => [0x01#8, v]
  | .setchips n => [0x02#8, n]
  | .setwr w => [0x03#8, w]
  | .setup => [0x10#8]
  | .update => [0x11#8]
  | .display => [0x12#8]
  | .drawDone => [0x13#8]
  | .setcol idx v => 0x20#8 :: encodeImm16 idx ++ [v]
  | .printat pos str => 0x21#8 :: encodeImm16 pos ++ encodeStr str
  | .print str => 0x22#8 :: encodeStr str
  | .printfat pos str => 0x23#8 :: encodeImm16 pos ++ encodeStr str
  | .printf str => 0x24#8 :: encodeStr str
  | .strftat pos str => 0x25#8 :: encodeImm16 pos ++ encodeStr str
  | .strft str => 0x26#8 :: encodeStr str
  | .width => [0x30#8]
  | .height => [0x31#8]
  | .noop val => [0x00#8, val]
  | .row1 val => [0x01#8, val]
  | .row2 val => [0x02#8, val]
  | .row3 val => [0x03#8, val]
  | .row4 val => [0x04#8, val]
  | .row5 val => [0x05#8, val]
  | .row6 val => [0x06#8, val]
  | .row7 val => [0x07#8, val]
  | .row8 val => [0x08#8, val]
  | .decode val => [0x09#8, val]
  | .intensity val => [0x0A#8, val]
  | .scanlimit val => [0x0B#8, val]
  | .shutdown val => [0x0C#8, val]
  | .disptest val => [0x0F#8, val]

/-- The longest command, in bytes: opcode, `imm16`, length and 255 bytes (R82, R85). -/
def maxCommandBytes : Nat := 259

/-- `k` bytes of a number, the least significant first. -/
def bytesOfNat : Nat → Nat → List Byte
  | 0, _ => []
  | k + 1, w => BitVec.ofNat 8 w :: bytesOfNat k (w / 256)

/-- The command bytes of a table word: byte k is bits 8k+7 … 8k of `w`, and every bit from `nbits` up is 0. -/
def commandBytes (nbits w : Nat) : List Byte := bytesOfNat maxCommandBytes (w % 2 ^ nbits)

/-- The register byte of a table word of 16 bits: bits 15:8 (R70). -/
def frameReg (w : Nat) : Byte := BitVec.ofNat 8 (w >>> 8)

/-- The value byte of a table word of 16 bits: bits 7:0 (R70). -/
def frameVal (w : Nat) : Byte := BitVec.ofNat 8 w

/-- The port of a table row from its width: the FRAME16 rows have 16 bits, the CMD rows 8 (log entry 14). -/
def tablePort (nbits : Nat) : Port := if nbits = 16 then .chain else .host

/-- The bytes of a table word, as the port it arrives at receives them. -/
def tableBytes (nbits w : Nat) : List Byte :=
  match tablePort nbits with
  | .chain => [frameReg w, frameVal w]
  | .host => commandBytes nbits w

/-- The instruction the decoder reads from an instruction whose bits, as spec/opcode_table.json numbers them, are `w`. -/
def decodeTableWord (nbits w : Nat) : Option Instr :=
  match decode (tablePort nbits) (tableBytes nbits w) with
  | .ok (i, _) => some i
  | .error _ => none

end Sys2Proof
end

