-- ==== Sys2Proof/Machine/Fetch.lean ====
section
/-! DEFINITION. How the machine comes by its next instruction: it has no program counter and no stored program (R21); the
host's commands and the chain's frames stand in `inbox` in the order in which they were sent (log entries 3, 5). -/

namespace Sys2Proof.Machine

/-- What the head of the inbox is. -/
inductive Fetched where
  /-- Nothing has been sent: the machine waits. -/
  | idle
  /-- An instruction, and the state without its bytes. -/
  | run (i : Instr) (s : State)
  /-- A command string that spells no command (R83, R84), and the state without it. -/
  | illegal (bytes : List Byte) (s : State)
  /-- A frame with a reserved register (R210), and the state without it. -/
  | reserved (reg val : Byte) (s : State)

/-- The bytes after a command go back to the head of the inbox: they are the commands issued after it. -/
def requeue (tail : List Byte) (rest : List Input) : List Input :=
  match tail with
  | [] => rest
  | _ :: _ => .command tail :: rest

/-- Take the next instruction from the inbox. -/
def fetch (s : State) : Fetched :=
  match s.inbox with
  | [] => .idle
  | .command bytes :: rest =>
    match decode .host bytes with
    | .ok (i, tail) => .run i { s with inbox := requeue tail rest }
    | .error _ => .illegal bytes { s with inbox := rest }
  | .frame chip reg val :: rest =>
    match decode .chain [reg, val] with
    | .ok (i, _) => .run i { s with inbox := rest, rxChip := chip }
    | .error _ => .reserved reg val { s with inbox := rest, rxChip := chip }

/-- `refuse(R_ILLEGAL)`: the whole string is dropped (R84, R236, log entry 4). -/
def refuseIllegal (bytes : List Byte) (s : State) : Host.Outcome State Fault Refusal :=
  .next (s.markRefusal .rIllegal (.bytes bytes))

/-- A frame with a reserved register: every cell of the receiving chip is `⊥` (R210). -/
def receiveReserved (reg val : Byte) (s : State) : Host.Outcome State Fault Refusal :=
  match chipReceives reg val s with
  | .ok _ t => .next t
  | .error f t => .next (t.markFault f (.bytes [reg, val]))

/-- A table word as an input: a frame for chip 0, or as many of the command bytes as the command they begin with has. -/
def inputOfWord (nbits w : Nat) : Input :=
  match tablePort nbits with
  | .chain => .frame 0 (frameReg w) (frameVal w)
  | .host =>
    match decode .host (commandBytes nbits w) with
    | .ok (i, _) => .command ((commandBytes nbits w).take (encode i).length)
    | .error _ => .command ((commandBytes nbits w).take ((nbits + 7) / 8))

end Sys2Proof.Machine
end

