-- ==== Sys2Proof/Machine/Step.lean ====
section
/-! DEFINITION. One step of the machine: the next thing sent to it, run (R11, R64); and the host's placing of an
instruction where the next step takes it. -/

namespace Sys2Proof.Machine

/-- One step.  With nothing sent the machine waits: the state stays as it is. -/
def step (s : State) : Host.Outcome State Fault Refusal :=
  match fetch s with
  | .idle => .next s
  | .run i t => exec i t
  | .illegal bytes t => refuseIllegal bytes t
  | .reserved reg val t => receiveReserved reg val t

/-- The state with a table word sent to the machine ahead of everything else, so that the next step runs it (log entries
3, 14). -/
def State.withFetchWord (s : State) (nbits w : Nat) : State :=
  { s with inbox := inputOfWord nbits w :: s.inbox }

end Sys2Proof.Machine
end

