-- ==== Sys2Proof/Safety.lean ====
section
/-! DEFINITION. What counts as a good state: the invariants of R38 with the canonical form of the data, the shape of the bus
trace, and the words in which claims speak of a run. -/

namespace Sys2Proof.Machine

/-- The shape of a bus trace for a chip count `n` (R38 (4), (5), R71): `open?` is the number of bytes sent in the open
transaction, none outside one.  Every `BEGIN … END` bracket holds exactly `2n` bytes and no `DELAY`, and no bracket opens
inside another; the trace ends outside a transaction. -/
def bracketed (n : Nat) : Option Nat → List BusEvent → Bool
  | none, [] => true
  | some _, [] => false
  | none, .txnBegin :: es => bracketed n (some 0) es
  | some k, .byte _ :: es => bracketed n (some (k + 1)) es
  | some k, .txnEnd :: es => decide (k = 2 * n) && bracketed n none es
  | none, .delay _ :: es => bracketed n none es
  | none, .byte _ :: _ => false
  | none, .txnEnd :: _ => false
  | some _, .txnBegin :: _ => false
  | some _, .delay _ :: _ => false

/-- The invariant of the machine: R38, the ranges of R23 and R24, and the form of the data. -/
structure State.Inv (s : State) : Prop where
  /-- R38 (1). -/
  noBufferIffPreSetup : s.phase = .preSetup ↔ s.fb = none
  /-- R23: 0 is never stored. -/
  chipsRange : ∀ n, s.chips = some n → 1 ≤ n.toNat
  /-- R24: values above 15 are never stored. -/
  intensityRange : ∀ v, s.intensity = some v → v.toNat ≤ 15
  /-- R38 (2): after setup the settings are known. -/
  settingsKnown : s.phase ≠ .preSetup → s.chips ≠ none ∧ s.intensity ≠ none
  /-- R38 (2): `|fb| = 8 × cfg.chips`. -/
  bufferSize : ∀ m n, s.fb = some m → s.chips = some n → m.size = 8 * n.toNat
  /-- The buffer is in canonical form. -/
  bufferWf : ∀ m, s.fb = some m → m.wf = true
  /-- R38 (3). -/
  noOpenTransaction : s.txnOpen = false
  /-- R38 (4), (5). -/
  traceBracketed : ∀ n, s.chips = some n → bracketed n.toNat none s.busTrace = true
  /-- Reset emits nothing (R260), and only `SETUP` ends `PRE_SETUP`. -/
  traceEmptyPreSetup : s.phase = .preSetup → s.busTrace = []
  /-- R182: a registered writer is an entry of `WRITERS`. -/
  writerKnown : ∀ w, s.writer = some w → w.toNat < s.par.writerCount
  /-- R26: a window opens only for a registered writer. -/
  windowHasWriter : s.phase = .inCallback → s.writer ≠ none
  /-- R235: the mark and its record agree. -/
  faultMark : s.faulted = !s.faultLog.isEmpty
  /-- R236: the mark and its record agree. -/
  refusalMark : s.refused = !s.refusalLog.isEmpty
  /-- R54: the ROM has 94 entries. -/
  glyphRom : s.par.glyphs.length = Param.glyphCount
  /-- The chain has its 255 positions (log entry 7). -/
  chainLength : s.chain.length = Param.chipsMax

/-- The states in which the buffer commands execute: `RUNNING` or a window, with a chip count, a buffer of that width, no
open transaction and a whole glyph ROM.  A consequence of the invariant after setup; `n` is the chip count, `m` the buffer. -/
structure State.Drawable (s : State) (n : Byte) (m : Memory) : Prop where
  /-- After setup (R26). -/
  afterSetup : s.phase ≠ .preSetup
  /-- `N` is known. -/
  chips : s.chips = some n
  /-- The buffer exists. -/
  fb : s.fb = some m
  /-- Its length is `8 × N` (R38). -/
  size : m.size = 8 * n.toNat
  /-- It is in canonical form. -/
  wf : m.wf = true
  /-- No transaction is open (R38). -/
  closed : s.txnOpen = false
  /-- The ROM is whole (R54). -/
  rom : s.par.glyphs.length = Param.glyphCount
  /-- The chain has its positions. -/
  chain : s.chain.length = Param.chipsMax

/-- The faults an instruction raises in a state that meets the invariant (R234): a setting or the buffer is missing, or a frame
arrives at a position that is no chip's.  `F_OOB` and `F_TXN` are no command's (R53, R100). -/
def State.faultsOf (s : State) : Instr → List Fault
  | .setup | .width => [.fUnset]
  | .update | .display | .setcol _ _ | .printat _ _ | .print _ | .printfat _ _ | .printf _ | .strftat _ _ | .strft _ =>
    [.fNoBuffer]
  | .setint _ | .setchips _ | .setwr _ | .drawDone | .height => []
  | .noop _ | .row1 _ | .row2 _ | .row3 _ | .row4 _ | .row5 _ | .row6 _ | .row7 _ | .row8 _ | .decode _ | .intensity _
  | .scanlimit _ | .shutdown _ | .disptest _ => [.fOob s.rxChip]

/-- The refusals an instruction meets (R236). -/
def refusalsOf : Instr → List Refusal
  | .setint _ => [.rRange, .rContext]
  | .setchips _ => [.rRange, .rFrozen, .rContext]
  | .setwr _ => [.rBadWriter, .rContext]
  | .setup => [.rResetup, .rContext]
  | .update | .display | .drawDone => [.rContext]
  | .strftat _ _ | .strft _ => [.rNoTimesrc, .rTooLong]
  | .setcol _ _ | .printat _ _ | .print _ | .printfat _ _ | .printf _ | .width | .height => []
  | .noop _ | .row1 _ | .row2 _ | .row3 _ | .row4 _ | .row5 _ | .row6 _ | .row7 _ | .row8 _ | .decode _ | .intensity _
  | .scanlimit _ | .shutdown _ | .disptest _ => []

/-- The six print commands (R37, R155–R160). -/
def isPrint : Instr → Bool
  | .printat _ _ | .print _ | .printfat _ _ | .printf _ | .strftat _ _ | .strft _ => true
  | .setint _ | .setchips _ | .setwr _ | .setup | .update | .display | .drawDone | .setcol _ _ | .width | .height
  | .noop _ | .row1 _ | .row2 _ | .row3 _ | .row4 _ | .row5 _ | .row6 _ | .row7 _ | .row8 _ | .decode _ | .intensity _
  | .scanlimit _ | .shutdown _ | .disptest _ => false

/-- The two states agree but for the outcome marks and their records. -/
def State.sameButMarks (s t : State) : Prop :=
  t = { s with faulted := t.faulted, refused := t.refused, faultLog := t.faultLog, refusalLog := t.refusalLog }

/-- The events of one transaction that carries these frames (R71): `BEGIN`, register and value of each, `END`. -/
def txnEvents (frames : List (Byte × Byte)) : List BusEvent :=
  .txnBegin :: frames.flatMap (fun f => [.byte f.1, .byte f.2]) ++ [.txnEnd]

/-- The frames of pass `i` of a refresh of `n` chips from the buffer `m` (R132, R133). -/
def passFrames (n : Nat) (m : Memory) (i : Nat) : List (Byte × Byte) :=
  (List.range n).map fun j => (BitVec.ofNat 8 (8 - i), (m.read (8 * j + i)).getD blankByte)

/-- The events of a whole refresh: eight transactions, row index 0 to 7 (R133). -/
def refreshEvents (n : Nat) (m : Memory) : List BusEvent :=
  (List.range 8).flatMap fun i => txnEvents (passFrames n m i)

/-- The state after one transaction that carries these frames (R102, R200): its events, and every chip's frame applied. -/
def State.afterFrames (s : State) (frames : List (Byte × Byte)) : State :=
  { s with busTrace := s.busTrace ++ txnEvents frames, chain := applyFrames frames s.chain }

/-- The chain after a whole refresh: the eight transactions' frames applied in order. -/
def refreshedChain (n : Nat) (m : Memory) (chain : List ChipImage) : List ChipImage :=
  (List.range 8).foldl (fun c i => applyFrames (passFrames n m i) c) chain

/-- The state after a whole refresh of `n` chips from the buffer `m`: nothing but the bus trace and the chain changes. -/
def State.afterRefresh (s : State) (n : Nat) (m : Memory) : State :=
  { s with busTrace := s.busTrace ++ refreshEvents n m, chain := refreshedChain n m s.chain }

/-- The events of a broadcast to `n` chips (R104). -/
def broadcastEvents (n : Nat) (reg val : Byte) : List BusEvent := txnEvents (List.replicate n (reg, val))

/-- The events of a `SETUP` of `n` chips at an intensity (R111). -/
def setupEvents (n : Nat) (intensity : Byte) : List BusEvent :=
  broadcastEvents n 0x0C#8 0x00#8 ++ broadcastEvents n 0x0F#8 0x00#8 ++ broadcastEvents n 0x0B#8 0x07#8
    ++ broadcastEvents n 0x09#8 0x00#8 ++ broadcastEvents n 0x0A#8 intensity ++ [.delay 250]
    ++ refreshEvents n (Memory.zeros (8 * n)) ++ broadcastEvents n 0x0C#8 0x01#8

/-- The number of transactions that begin among these events. -/
def beginsIn (es : List BusEvent) : Nat := es.countP (· = .txnBegin)

/-- The bytes among these events, in order. -/
def bytesIn : List BusEvent → List Byte
  | [] => []
  | .byte b :: es => b :: bytesIn es
  | .txnBegin :: es => bytesIn es
  | .txnEnd :: es => bytesIn es
  | .delay _ :: es => bytesIn es

/-- The delays among these events, in order. -/
def delaysIn : List BusEvent → List Nat
  | [] => []
  | .delay n :: es => n :: delaysIn es
  | .txnBegin :: es => delaysIn es
  | .txnEnd :: es => delaysIn es
  | .byte _ :: es => delaysIn es

/-- The register bytes among these events: the first, third, … byte after each `BEGIN` (R56, R70).  `next` says whether the
next byte is a register byte. -/
def sentRegsFrom : Bool → List BusEvent → List Byte
  | _, [] => []
  | _, .txnBegin :: es => sentRegsFrom true es
  | true, .byte b :: es => b :: sentRegsFrom false es
  | false, .byte _ :: es => sentRegsFrom true es
  | next, .txnEnd :: es => sentRegsFrom next es
  | next, .delay _ :: es => sentRegsFrom next es

/-- The register bytes of every frame of a trace. -/
def sentRegs (es : List BusEvent) : List Byte := sentRegsFrom true es

/-- The frame addresses the spec reserves (R75). -/
def reservedReg (r : Byte) : Bool := decide (r = 0x0D#8) || decide (r = 0x0E#8) || decide (0x10 ≤ r.toNat)

/-- The addresses of the five control registers (R72). -/
def controlRegs : List Byte := [0x09#8, 0x0A#8, 0x0B#8, 0x0C#8, 0x0F#8]

/-- One cell of the chain is written, and nothing else of the machine changes (R202–R207). -/
def WritesCell (s t : State) (j : Nat) (a v : Byte) : Prop :=
  t = { s with chain := t.chain } ∧ t.chipReg j a = some v ∧
    ∀ k b, k ≠ j ∨ b ≠ a → t.chipReg k b = s.chipReg k b

/-! ### What a rendered string looks like

A description of `RENDER`'s effect that does not walk the buffer: the columns a string consumes (R152: a dot belongs to the
column before it, a leading dot to a column of its own), each with the byte it leaves and the warning it raises. -/

/-- One column a string consumes. -/
structure Drawn where
  /-- The character whose pattern it holds; none for the column of a leading dot, which keeps its other bits (R152). -/
  char   : Option Byte
  /-- Whether a dot sets its decimal-point bit. -/
  dotted : Bool
deriving DecidableEq, Repr

/-- One more character, the latest column first: a dot marks the latest column, or opens one if there is none. -/
def layoutStep (columns : List Drawn) (ch : Byte) : List Drawn :=
  if ch = 0x2E#8 then
    match columns with
    | [] => [{ char := none, dotted := true }]
    | d :: ds => { d with dotted := true } :: ds
  else { char := some ch, dotted := false } :: columns

/-- The columns a string consumes when the buffer does not end, leftmost first. -/
def layout (str : List Byte) : List Drawn := (str.foldl layoutStep []).reverse

/-- The pattern of a character: its glyph for 0x20–0x7D, else the unknown glyph (R151). -/
def patternOf (par : Params) (ch : Byte) : Byte :=
  if 0x20 ≤ ch.toNat ∧ ch.toNat ≤ 0x7D then par.glyphs.getD (ch.toNat - 0x20) 0 else par.unknownGlyph

/-- The byte a column holds afterwards, `old` being the one it held before. -/
def Drawn.byte (par : Params) (old : Byte) (d : Drawn) : Byte :=
  let pattern := match d.char with
    | none => old
    | some ch => patternOf par ch
  if d.dotted then pattern ||| 0x80#8 else pattern

/-- The warning of a column whose character has no glyph (R151, R232). -/
def Drawn.warning (cur : Nat) (d : Drawn) : List LogEvent :=
  match d.char with
  | none => []
  | some ch => if 0x20 ≤ ch.toNat ∧ ch.toNat ≤ 0x7D then [] else [.unknownGlyph ch cur]

/-- The warnings of columns that begin at `cur`, in order. -/
def warnings : Nat → List Drawn → List LogEvent
  | _, [] => []
  | cur, d :: ds => d.warning cur ++ warnings (cur + 1) ds

/-- The number of columns a string consumes from `start` in a buffer of width `w`: no more than there is room for (R161). -/
def renderCount (w start : Nat) (str : List Byte) : Nat := min (layout str).length (w - start)

/-- What a render logs: the warnings of the columns it reaches, the first that does not fit among them (D25), and one
overflow if a column does not fit (R153). -/
def renderLog (w start : Nat) (str : List Byte) : List LogEvent :=
  warnings start ((layout str).take (w - start + 1)) ++ if w - start < (layout str).length then [.overflow (start + (w - start))] else []

/-- What column `c` holds after these columns are drawn from `start` over a buffer that held `old` there. -/
def drawnColumn (par : Params) (start : Nat) (ds : List Drawn) (c : Nat) (old : Option Byte) : Option Byte :=
  if start ≤ c then
    match ds[c - start]? with
    | some d => old.map fun b => d.byte par b
    | none => old
  else old

/-- `t` is `s` after `RENDER(start, str)` in a buffer `m` of `n` chips, and the return of its count (R150, R155): the buffer
holds the string's columns, the log its warnings, the results its count, and nothing else changes. -/
def RendersAt (s t : State) (n : Byte) (m : Memory) (start : Nat) (str : List Byte) : Prop :=
  t = { s with fb := t.fb, logTrace := s.logTrace ++ renderLog (8 * n.toNat) start str
               results := s.results ++ [renderCount (8 * n.toNat) start str] } ∧
    ∃ m', t.fb = some m' ∧ m'.size = m.size ∧ m'.wf = true ∧
      ∀ c, m'.read c = drawnColumn s.par start ((layout str).take (8 * n.toNat - start)) c (m.read c)

end Sys2Proof.Machine
end

