-- ==== Sys2Proof/Certificates/Slice0/Obligations.lean ====
section
/-! DEFINITION. The statements for the provers, each with the rule of spec/ it formalises in its docstring.  `n` is the chip
count, `m` the buffer, `s` the state before and `t` the state after. -/

open Sys2Proof Sys2Proof.Machine

/-! ## Reset and the invariant -/

/-- R260, R261: after reset every field of the engine record holds its value of R22, and every cell of the chain is `⊥`. -/
def Obligations.ResetHoldsTheResetValues : Prop :=
  State.reset.chips = none ∧ State.reset.intensity = none ∧ State.reset.writer = none ∧ State.reset.phase = .preSetup ∧
    State.reset.fb = none ∧ State.reset.txnOpen = false ∧ State.reset.busTrace = [] ∧ State.reset.logTrace = [] ∧
    State.reset.faulted = false ∧ State.reset.refused = false ∧ ∀ j a, State.reset.chipReg j a = none

/-- The invariant of the machine (R38 and the form of the data) holds at reset. -/
def Obligations.ResetMeetsTheInvariant : Prop := State.reset.Inv

/-- R38, for every state and not only for runs from reset: a step from a state that meets the invariant ends in one. -/
def Obligations.EveryStepKeepsTheInvariant : Prop :=
  ∀ s t : State, s.Inv → step s = .next t → t.Inv

/-- R230: no state and no input stops the machine; faults and refusals are marks (log entry 1), anomalies are log events. -/
def Obligations.EveryStepGoesOn : Prop := ∀ s : State, ∃ t, step s = .next t

/-- R31: once set, neither mark is cleared by any later step, whatever the state, and a state with either set is never the
end of a completed run (R272). -/
def Obligations.MarksAreSticky : Prop :=
  ∀ s t : State, step s = .next t →
    (s.faulted = true → t.faulted = true) ∧ (s.refused = true → t.refused = true) ∧
    (s.faulted = true ∨ s.refused = true → s.completed = false ∧ t.completed = false)

/-- R29, R30, R10: the bus trace, the log and the results only grow, in every state; nothing sent or logged is taken back. -/
def Obligations.TracesOnlyGrow : Prop :=
  ∀ s t : State, step s = .next t →
    (∃ es, t.busTrace = s.busTrace ++ es) ∧ (∃ es, t.logTrace = s.logTrace ++ es) ∧ ∃ vs, t.results = s.results ++ vs

/-- R36: the parameters are no state: no step changes one. -/
def Obligations.ParametersNeverChange : Prop := ∀ s t : State, step s = .next t → t.par = s.par

/-! ## Encoding -/

/-- Decoding an encoded instruction gives it back, with every operand and whatever bytes follow (R70, R80–R83). -/
def Obligations.DecodeOfEncodeIsTheInstruction : Prop :=
  ∀ (i : Instr) (rest : List Byte), i.wellFormed = true → decode i.port (encode i ++ rest) = .ok (i, rest)

/-- Every byte string that decodes is the encoding of the instruction it decodes to, which is well-formed and of that port:
each instruction has one spelling (R82, R84: no second encodings, no hints). -/
def Obligations.DecodedBytesAreTheEncoding : Prop :=
  ∀ (p : Port) (bytes : List Byte) (i : Instr) (rest : List Byte), decode p bytes = .ok (i, rest) →
    i.wellFormed = true ∧ i.port = p ∧ bytes = encode i ++ rest

/-- R83: a byte string that ends before its command does is `INVALID(truncated)`. -/
def Obligations.TruncatedCommandsAreInvalid : Prop :=
  ∀ (i : Instr) (k : Nat), i.wellFormed = true → i.port = .host → k < (encode i).length →
    decode .host ((encode i).take k) = .error .truncated

/-- R83, R84, R236: an opcode byte outside the table spells no command, whatever follows; and the step that meets a string the
decoder rejects, because of its opcode or because it ends before its command does, refuses it: `R_ILLEGAL` is marked with the
bytes and nothing else changes but that they are gone (that they wait in the inbox and are dropped whole: log entries 3, 4). -/
def Obligations.UndecodableCommandsAreRefused : Prop :=
  (∀ (op : Byte) (tail : List Byte),
    op.toNat = 0x00 ∨ (0x04 ≤ op.toNat ∧ op.toNat ≤ 0x0F) ∨ (0x14 ≤ op.toNat ∧ op.toNat ≤ 0x1F) ∨
      (0x27 ≤ op.toNat ∧ op.toNat ≤ 0x2F) ∨ 0x32 ≤ op.toNat →
    decode .host (op :: tail) = .error (.opcode op)) ∧
  ∀ (s : State) (bytes : List Byte) (rest : List Input) (e : DecodeError), s.inbox = .command bytes :: rest →
    decode .host bytes = .error e →
    (e = .truncated ∨ ∃ op tail, bytes = op :: tail ∧ e = .opcode op) ∧
      step s = .next { s with inbox := rest, refused := true
                              refusalLog := s.refusalLog ++ [(.rIllegal, .bytes bytes)] }

/-- R88 and the table of R82: words written out from the spec decode to what they stand for. -/
def Obligations.KnownWordsDecode : Prop :=
  decode .host [0x20, 0x00, 0x09, 0xAA] = .ok (.setcol 9 0xAA, []) ∧
    decode .host [0x21, 0x00, 0x00, 0x03, 0x31, 0x2E, 0x32] = .ok (.printat 0 [0x31, 0x2E, 0x32], []) ∧
    decode .host [0x22, 0x00] = .ok (.print [], []) ∧ decode .host [0x01, 0x0F] = .ok (.setint 15, []) ∧
    decode .host [0x13] = .ok (.drawDone, []) ∧ decode .host [0x10] = .ok (.setup, []) ∧
    decode .chain [0x08, 0x81] = .ok (.row8 0x81, []) ∧ decode .chain [0x0B, 0x07] = .ok (.scanlimit 7, []) ∧
    decode .chain [0x0D, 0x00] = .error (.reserved 0x0D)

/-! ## The step -/

/-- A step runs the command its bytes decode to: `exec` of it on the state without them, the bytes after it staying first in
the inbox. -/
def Obligations.StepRunsTheDecodedCommand : Prop :=
  ∀ (s : State) (bytes tail : List Byte) (rest : List Input) (i : Instr), s.inbox = .command bytes :: rest →
    decode .host bytes = .ok (i, tail) →
    step s = exec i { s with inbox := if tail = [] then rest else .command tail :: rest }

/-- A step runs the frame a chip has received: `exec` of it on the state without it, at that chip. -/
def Obligations.StepRunsTheReceivedFrame : Prop :=
  ∀ (s : State) (j : Nat) (reg val : Byte) (rest : List Input) (i : Instr) (tail : List Byte),
    s.inbox = .frame j reg val :: rest → decode .chain [reg, val] = .ok (i, tail) →
    step s = exec i { s with inbox := rest, rxChip := j }

/-! ## The setters -/

/-- R180, `SETINT v`: in `PRE_SETUP` and `RUNNING` a value up to 15 is stored and nothing else changes; a larger one is
refused `R_RANGE`; in a window it is refused `R_CONTEXT` whatever its value. -/
def Obligations.SetintStoresTheIntensity : Prop :=
  ∀ (v : Byte) (s : State) (rest : List Byte),
    decode .host (0x01 :: v :: rest) = .ok (.setint v, rest) ∧
    (s.phase ≠ .inCallback → v.toNat ≤ 15 → exec (.setint v) s = .next { s with intensity := some v }) ∧
    (s.phase ≠ .inCallback → 15 < v.toNat → exec (.setint v) s = .next (s.markRefusal .rRange (.instr (.setint v)))) ∧
    (s.phase = .inCallback → exec (.setint v) s = .next (s.markRefusal .rContext (.instr (.setint v))))

/-- R181, `SETCHIPS n`: in `PRE_SETUP` a count from 1 up is stored and nothing else changes; 0 is refused `R_RANGE`; in
`RUNNING` it is refused `R_FROZEN` and in a window `R_CONTEXT`, whatever the count. -/
def Obligations.SetchipsStoresTheCountBeforeSetup : Prop :=
  ∀ (n : Byte) (s : State) (rest : List Byte),
    decode .host (0x02 :: n :: rest) = .ok (.setchips n, rest) ∧
    (s.phase = .preSetup → 1 ≤ n.toNat → exec (.setchips n) s = .next { s with chips := some n }) ∧
    (s.phase = .preSetup → n.toNat = 0 → exec (.setchips n) s = .next (s.markRefusal .rRange (.instr (.setchips n)))) ∧
    (s.phase = .running → exec (.setchips n) s = .next (s.markRefusal .rFrozen (.instr (.setchips n)))) ∧
    (s.phase = .inCallback → exec (.setchips n) s = .next (s.markRefusal .rContext (.instr (.setchips n))))

/-- R182, `SETWR w`: in `PRE_SETUP` and `RUNNING` an entry of `WRITERS` is registered, replacing any earlier one, and nothing
else changes; any other id is refused `R_BAD_WRITER`; in a window it is refused `R_CONTEXT`. -/
def Obligations.SetwrRegistersTheWriter : Prop :=
  ∀ (w : Byte) (s : State) (rest : List Byte),
    decode .host (0x03 :: w :: rest) = .ok (.setwr w, rest) ∧
    (s.phase ≠ .inCallback → w.toNat < s.par.writerCount → exec (.setwr w) s = .next { s with writer := some w }) ∧
    (s.phase ≠ .inCallback → s.par.writerCount ≤ w.toNat →
      exec (.setwr w) s = .next (s.markRefusal .rBadWriter (.instr (.setwr w)))) ∧
    (s.phase = .inCallback → exec (.setwr w) s = .next (s.markRefusal .rContext (.instr (.setwr w))))

/-- R23, R24, R25: each setting is written by its own setter alone, in every state: the chip count by `SETCHIPS` in
`PRE_SETUP`, the intensity by `SETINT` outside a window, the writer by `SETWR` outside a window, which never writes `none`. -/
def Obligations.SettingsAreWrittenBySettersOnly : Prop :=
  ∀ (i : Instr) (s t : State), exec i s = .next t →
    (t.chips ≠ s.chips → s.phase = .preSetup ∧ ∃ n, i = .setchips n ∧ 1 ≤ n.toNat ∧ t.chips = some n) ∧
    (t.intensity ≠ s.intensity → s.phase ≠ .inCallback ∧ ∃ v, i = .setint v ∧ v.toNat ≤ 15 ∧ t.intensity = some v) ∧
    (t.writer ≠ s.writer → s.phase ≠ .inCallback ∧ ∃ w, i = .setwr w ∧ w.toNat < s.par.writerCount ∧ t.writer = some w)

/-! ## SETUP -/

/-- R110, `SETUP` in `PRE_SETUP` with both settings: the buffer is `8N` zero bytes, the bus receives five broadcasts, the delay,
eight row transactions and the power-on broadcast, the phase is `RUNNING`, and nothing else but the chain changes.  Before both
settings are written it is `F_UNSET`, a second one is `R_RESETUP`, one in a window `R_CONTEXT`, with no other effect. -/
def Obligations.SetupRunsTheInitializationSequence : Prop :=
  (∀ rest : List Byte, decode .host (0x10 :: rest) = .ok (.setup, rest)) ∧
  (∀ (s : State) (n v : Byte), s.phase = .preSetup → s.chips = some n → s.intensity = some v → s.txnOpen = false →
    ∃ chain, exec .setup s = .next { s with phase := .running, fb := some (Memory.zeros (8 * n.toNat)), chain := chain
                                            busTrace := s.busTrace ++ setupEvents n.toNat v }) ∧
  ∀ s : State,
    (s.phase = .preSetup → s.chips = none ∨ s.intensity = none →
      exec .setup s = .next (s.markFault .fUnset (.instr .setup))) ∧
    (s.phase = .running → exec .setup s = .next (s.markRefusal .rResetup (.instr .setup))) ∧
    (s.phase = .inCallback → exec .setup s = .next (s.markRefusal .rContext (.instr .setup)))

/-- R111: a successful `SETUP` emits exactly, in this order, five broadcasts, the delay of 250, eight row transactions of zeros
and one broadcast: 14 transactions, one delay, `28 × N` bytes. -/
def Obligations.SetupEmitsFourteenTransactions : Prop :=
  ∀ (s t : State) (n v : Byte), s.phase = .preSetup → s.chips = some n → s.intensity = some v → s.txnOpen = false →
    exec .setup s = .next t →
    ∃ es, t.busTrace = s.busTrace ++ es ∧
      es = [((0x0C : Byte), (0x00 : Byte)), (0x0F, 0x00), (0x0B, 0x07), (0x09, 0x00), (0x0A, v)].flatMap
            (fun f => txnEvents (List.replicate n.toNat f))
        ++ [.delay 250]
        ++ (List.range 8).flatMap (fun i => txnEvents (List.replicate n.toNat (BitVec.ofNat 8 (8 - i), 0x00)))
        ++ txnEvents (List.replicate n.toNat (0x0C, 0x01)) ∧
      beginsIn es = 14 ∧ delaysIn es = [250] ∧ (bytesIn es).length = 28 * n.toNat

/-- R208: after `SETUP` every chip of the chain holds the five control registers as programmed and 0x00 in every row
register, whatever it held before.  That the positions that are no chip's are kept is the model's choice (log entry 7). -/
def Obligations.SetupProgramsEveryChip : Prop :=
  ∀ (s t : State) (n v : Byte), s.phase = .preSetup → s.chips = some n → s.intensity = some v → s.txnOpen = false →
    s.chain.length = 255 → exec .setup s = .next t →
    (∀ j, j < n.toNat →
      t.chipReg j 0x0C = some 0x01 ∧ t.chipReg j 0x0F = some 0x00 ∧ t.chipReg j 0x0B = some 0x07 ∧
      t.chipReg j 0x09 = some 0x00 ∧ t.chipReg j 0x0A = some v ∧
      ∀ a, 1 ≤ a → a ≤ 8 → t.chipReg j (BitVec.ofNat 8 a) = some 0x00) ∧
    ∀ j, n.toNat ≤ j → t.chip j = s.chip j

/-! ## The refresh engine -/

/-- R133: a `REFRESH` emits exactly 8 transactions of N frames, pass `i` carrying columns `i, 8 + i, …` to register `8 − i`;
after it row register `a` of chip `j` holds column `8j + 8 − a`; the buffer is unchanged. -/
def Obligations.RefreshSerializesTheBuffer : Prop :=
  ∀ (s : State) (n : Byte) (m : Memory), s.Drawable n m →
    ∃ t es, refresh s = .ok () t ∧ t.fb = s.fb ∧ t.busTrace = s.busTrace ++ es ∧
      es = (List.range 8).flatMap (fun i => txnEvents ((List.range n.toNat).map fun j =>
        (BitVec.ofNat 8 (8 - i), (s.column (8 * j + i)).getD 0))) ∧
      beginsIn es = 8 ∧ delaysIn es = [] ∧ (bytesIn es).length = 16 * n.toNat ∧
      ∀ j, j < n.toNat → ∀ a, 1 ≤ a → a ≤ 8 →
        t.chipReg j (BitVec.ofNat 8 a) = s.column (8 * j + 8 - a) ∧ s.column (8 * j + 8 - a) ≠ none

/-- R136, `DISPLAY` in `RUNNING`: it is a `REFRESH` and nothing else of the machine changes; before setup it is
`F_NO_BUFFER`, in a window `R_CONTEXT`. -/
def Obligations.DisplaySendsTheBuffer : Prop :=
  (∀ rest : List Byte, decode .host (0x12 :: rest) = .ok (.display, rest)) ∧
  (∀ (s : State) (n : Byte) (m : Memory), s.Drawable n m → s.phase = .running →
    exec .display s = .next (s.afterRefresh n.toNat m)) ∧
  (∀ s : State, s.phase = .preSetup → exec .display s = .next (s.markFault .fNoBuffer (.instr .display))) ∧
  ∀ s : State, s.phase = .inCallback → exec .display s = .next (s.markRefusal .rContext (.instr .display))

/-- R60, R136: two `DISPLAY`s in a row emit the same events and leave the buffer as it was. -/
def Obligations.DisplayTwiceSendsTheSame : Prop :=
  ∀ (s t u : State) (n : Byte) (m : Memory), s.Drawable n m → s.phase = .running → exec .display s = .next t →
    exec .display t = .next u →
    ∃ es, t.busTrace = s.busTrace ++ es ∧ u.busTrace = t.busTrace ++ es ∧ t.fb = s.fb ∧ u.fb = s.fb ∧ es ≠ []

/-- R135, `UPDATE` in `RUNNING` with no writer: the buffer is cleared and the zero buffer is sent, and nothing else changes;
before setup it is `F_NO_BUFFER`, in a window `R_CONTEXT`. -/
def Obligations.UpdateWithoutWriterClearsAndSends : Prop :=
  (∀ rest : List Byte, decode .host (0x11 :: rest) = .ok (.update, rest)) ∧
  (∀ (s : State) (n : Byte) (m : Memory), s.Drawable n m → s.phase = .running → s.writer = none →
    exec .update s = .next ({ s with fb := some (Memory.zeros (8 * n.toNat)) }.afterRefresh n.toNat
      (Memory.zeros (8 * n.toNat)))) ∧
  (∀ s : State, s.phase = .preSetup → exec .update s = .next (s.markFault .fNoBuffer (.instr .update))) ∧
  ∀ s : State, s.phase = .inCallback → exec .update s = .next (s.markRefusal .rContext (.instr .update))

/-- R141: an update cycle with no writer transmits exactly 8 transactions of `N` frames `(8 − i, 0x00)`. -/
def Obligations.IdleUpdateCycleSendsZeros : Prop :=
  ∀ (s t : State) (n : Byte) (m : Memory), s.Drawable n m → s.phase = .running → s.writer = none →
    exec .update s = .next t →
    t.busTrace = s.busTrace ++
      (List.range 8).flatMap fun i => txnEvents (List.replicate n.toNat (BitVec.ofNat 8 (8 - i), 0x00))

/-- R135, `UPDATE` in `RUNNING` with a writer: the buffer is cleared, the window opens, and nothing else changes; no bus event
yet. -/
def Obligations.UpdateWithWriterOpensTheWindow : Prop :=
  ∀ (s : State) (n w : Byte) (m : Memory), s.Drawable n m → s.phase = .running → s.writer = some w →
    exec .update s = .next { s with fb := some (Memory.zeros (8 * n.toNat)), phase := .inCallback }

/-- R138, `DRAW_DONE` in a window: a `REFRESH`, the phase is `RUNNING` again, and nothing else changes; outside a window it is
refused `R_CONTEXT`. -/
def Obligations.DrawDoneSendsAndClosesTheWindow : Prop :=
  (∀ rest : List Byte, decode .host (0x13 :: rest) = .ok (.drawDone, rest)) ∧
  (∀ (s : State) (n : Byte) (m : Memory), s.Drawable n m → s.phase = .inCallback →
    exec .drawDone s = .next { s.afterRefresh n.toNat m with phase := .running }) ∧
  ∀ s : State, s.phase ≠ .inCallback → exec .drawDone s = .next (s.markRefusal .rContext (.instr .drawDone))

/-- R138: a window with no command in it behaves as an `UPDATE` with no writer: the same state but for the registered
writer. -/
def Obligations.EmptyWindowIsAnUpdateWithoutWriter : Prop :=
  ∀ (s t u : State) (n w : Byte) (m : Memory), s.Drawable n m → s.phase = .running → s.writer = some w →
    exec .update s = .next t → exec .drawDone t = .next u →
    ∃ v, exec .update { s with writer := none } = .next v ∧ u = { v with writer := some w }

/-- R209, R133: after a `DISPLAY`, every control register of every chip is as before and every row register holds its
column. -/
def Obligations.DisplayShowsTheBufferOnTheChain : Prop :=
  ∀ (s t : State) (n : Byte) (m : Memory), s.Drawable n m → s.phase = .running → exec .display s = .next t →
    ∀ j, j < n.toNat →
      (∀ a ∈ controlRegs, t.chipReg j a = s.chipReg j a) ∧
      ∀ a, 1 ≤ a → a ≤ 8 → t.chipReg j (BitVec.ofNat 8 a) = m.read (8 * j + 8 - a)

/-- R26: the phase changes only by `SETUP` from `PRE_SETUP`, by an `UPDATE` with a writer from `RUNNING`, and by `DRAW_DONE`
from the window; nothing returns to `PRE_SETUP`. -/
def Obligations.PhaseChangesAsTheLifecycleSays : Prop :=
  ∀ (i : Instr) (s t : State), s.Inv → exec i s = .next t → t.phase ≠ s.phase →
    (i = .setup ∧ s.phase = .preSetup ∧ t.phase = .running) ∨
    (i = .update ∧ s.phase = .running ∧ s.writer ≠ none ∧ t.phase = .inCallback) ∨
    (i = .drawDone ∧ s.phase = .inCallback ∧ t.phase = .running)

/-- R266, the clear-before-draw hazard: a column written in `RUNNING` is erased unsent by the next `UPDATE`: it leaves the
machine as if the column had not been written. -/
def Obligations.UpdateErasesAnEarlierColumn : Prop :=
  ∀ (s t : State) (n : Byte) (m : Memory) (idx : Half) (v : Byte), s.Drawable n m → s.phase = .running →
    exec (.setcol idx v) s = .next t → ∃ u, exec .update t = .next u ∧ exec .update s = .next u

/-- R114: no command but `SETUP` changes a control register of any chip or sends a frame to one, and no command but `SETUP`,
`UPDATE`, `DISPLAY` and `DRAW_DONE` changes any register of the chain or sends anything. -/
def Obligations.OnlySetupSendsControlRegisters : Prop :=
  ∀ (i : Instr) (s t : State), s.Inv → i.port = .host → i ≠ .setup → exec i s = .next t →
    (∀ j, j < s.chipLimit → ∀ a ∈ controlRegs, t.chipReg j a = s.chipReg j a) ∧
    (∃ es, t.busTrace = s.busTrace ++ es ∧ ∀ r ∈ sentRegs es, r ∉ controlRegs) ∧
    (i ∉ [Instr.update, .display, .drawDone] → t.chain = s.chain ∧ t.busTrace = s.busTrace)

/-- R75, R74: whatever the engine has sent, no register byte is a reserved frame address, so none has a bit of 7:4 set. -/
def Obligations.ReservedAddressesAreNeverEmitted : Prop :=
  ∀ s t : State, s.Inv → (∀ r ∈ sentRegs s.busTrace, reservedReg r = false) → step s = .next t →
    ∀ r ∈ sentRegs t.busTrace, reservedReg r = false ∧ r.toNat < 16

/-! ## The column surface -/

/-- R183, `SETCOL idx, v` after setup: in range the one column takes the whole byte, out of range nothing changes at all, no
log; before setup it is `F_NO_BUFFER`. -/
def Obligations.SetcolWritesOneColumn : Prop :=
  (∀ (hi lo v : Byte) (rest : List Byte), decode .host (0x20 :: hi :: lo :: v :: rest) = .ok (.setcol (hi ++ lo) v, rest)) ∧
  (∀ (s : State) (n : Byte) (m : Memory) (idx : Half) (v : Byte), s.Drawable n m → idx.toNat < 8 * n.toNat →
    ∃ m', exec (.setcol idx v) s = .next { s with fb := some m' } ∧ m'.size = m.size ∧ m'.wf = true ∧
      m'.read idx.toNat = some v ∧ ∀ c, c ≠ idx.toNat → m'.read c = m.read c) ∧
  (∀ (s : State) (n : Byte) (m : Memory) (idx : Half) (v : Byte), s.Drawable n m → 8 * n.toNat ≤ idx.toNat →
    exec (.setcol idx v) s = .next s) ∧
  ∀ (s : State) (idx : Half) (v : Byte), s.phase = .preSetup →
    exec (.setcol idx v) s = .next (s.markFault .fNoBuffer (.instr (.setcol idx v)))

/-- R184, `WIDTH` in every phase: it returns `8 × N`, exact, at most 2040, and changes nothing else; while `N` is `⊥` it is
`F_UNSET`. -/
def Obligations.WidthReturnsEightPerChip : Prop :=
  ∀ (s : State) (rest : List Byte),
    decode .host (0x30 :: rest) = .ok (.width, rest) ∧
    (∀ n : Byte, s.chips = some n →
      exec .width s = .next { s with results := s.results ++ [8 * n.toNat] } ∧ 8 * n.toNat ≤ 2040) ∧
    (s.chips = none → exec .width s = .next (s.markFault .fUnset (.instr .width)))

/-- R185, `HEIGHT` in every phase and state: it returns 8 and changes nothing else. -/
def Obligations.HeightReturnsEight : Prop :=
  ∀ (s : State) (rest : List Byte), decode .host (0x31 :: rest) = .ok (.height, rest) ∧
    exec .height s = .next { s with results := s.results ++ [8] }

/-! ## The text renderer -/

/-- R155, R156, `PRINTAT pos, s` and `PRINT s` after setup: the string's columns from `pos`, from column 0, are drawn, the
anomalies logged, the count returned, and nothing else changes; before setup they are `F_NO_BUFFER`. -/
def Obligations.PrintRendersTheString : Prop :=
  (∀ (s : State) (n : Byte) (m : Memory) (pos : Half) (str : List Byte), s.Drawable n m →
    (∃ t, exec (.printat pos str) s = .next t ∧ RendersAt s t n m pos.toNat str) ∧
    ∃ t, exec (.print str) s = .next t ∧ RendersAt s t n m 0 str) ∧
  ∀ (s : State) (pos : Half) (str : List Byte), s.phase = .preSetup →
    exec (.printat pos str) s = .next (s.markFault .fNoBuffer (.instr (.printat pos str))) ∧
    exec (.print str) s = .next (s.markFault .fNoBuffer (.instr (.print str)))

/-- R157, R158, `PRINTFAT pos, s` and `PRINTF s` after setup: the first 63 bytes of the formatted result are rendered; before
setup they are `F_NO_BUFFER`. -/
def Obligations.PrintfRendersAtMost63Bytes : Prop :=
  (∀ (s : State) (n : Byte) (m : Memory) (pos : Half) (str : List Byte), s.Drawable n m →
    (∃ t, exec (.printfat pos str) s = .next t ∧ RendersAt s t n m pos.toNat (str.take 63)) ∧
    ∃ t, exec (.printf str) s = .next t ∧ RendersAt s t n m 0 (str.take 63)) ∧
  ∀ (s : State) (pos : Half) (str : List Byte), s.phase = .preSetup →
    exec (.printfat pos str) s = .next (s.markFault .fNoBuffer (.instr (.printfat pos str))) ∧
    exec (.printf str) s = .next (s.markFault .fNoBuffer (.instr (.printf str)))

/-- R159, R160, `STRFTAT pos, s` and `STRFT s` with a time source, after setup, for a string of at most 63 bytes: the string is
rendered. -/
def Obligations.StrftRendersTheTimeString : Prop :=
  ∀ (s : State) (n : Byte) (m : Memory) (pos : Half) (str : List Byte), s.Drawable n m → s.par.timeSource = true →
    str.length ≤ 63 →
    (∃ t, exec (.strftat pos str) s = .next t ∧ RendersAt s t n m pos.toNat str) ∧
    ∃ t, exec (.strft str) s = .next t ∧ RendersAt s t n m 0 str

/-- R159, R160, R237: a time-formatted command is turned away in this order: no time source (`R_NO_TIMESRC`) in any phase, then
before setup (`F_NO_BUFFER`) whatever the length, then a string of more than 63 bytes (`R_TOO_LONG`). -/
def Obligations.StrftTestsComeInOrder : Prop :=
  ∀ (s : State) (str : List Byte) (i : Instr), (i = .strft str ∨ ∃ pos, i = .strftat pos str) →
    (s.par.timeSource = false → exec i s = .next (s.markRefusal .rNoTimesrc (.instr i))) ∧
    (s.par.timeSource = true → s.phase = .preSetup → exec i s = .next (s.markFault .fNoBuffer (.instr i))) ∧
    (s.par.timeSource = true → s.phase ≠ .preSetup → 63 < str.length →
      exec i s = .next (s.markRefusal .rTooLong (.instr i)))

/-- R87: `PRINT s` behaves as `PRINTAT 0, s`, `PRINTF s` as `PRINTFAT 0, s`, `STRFT s` as `STRFTAT 0, s`: after setup each pair
leaves the same state. -/
def Obligations.DefaultColumnIsZero : Prop :=
  ∀ (s : State) (n : Byte) (m : Memory) (str : List Byte), s.Drawable n m →
    exec (.print str) s = exec (.printat 0 str) s ∧ exec (.printf str) s = exec (.printfat 0 str) s ∧
    (s.par.timeSource = true → str.length ≤ 63 → exec (.strft str) s = exec (.strftat 0 str) s)

/-- R161: the laws of rendering, of `RENDER(start, s)` returning `r`: (1) the count is bounded by the room there is; (2) only
columns in `[start, start + r)` change; (3) the count is the number of non-dot characters written, and one for a leading dot
that has a column, what is written being every column the string consumes for which there is room, whatever `r` is; (4) `L`
non-dot bytes with room fill `L` columns with their patterns; (5) one overflow at most. -/
def Obligations.RenderingObeysItsLaws : Prop :=
  ∀ (s : State) (n : Byte) (m : Memory) (start : Nat) (str : List Byte), s.Drawable n m →
    ∃ r t lines, render start str s = .ok r t ∧ t.logTrace = s.logTrace ++ lines ∧
      (start < 8 * n.toNat → r ≤ 8 * n.toNat - start) ∧ (8 * n.toNat ≤ start → r = 0) ∧
      (∀ c, c < start ∨ start + r ≤ c → t.column c = s.column c) ∧
      (r = (((layout str).take (8 * n.toNat - start)).filter fun d => d.char.isSome).length
        + if str.head? = some 0x2E ∧ start < 8 * n.toNat then 1 else 0) ∧
      (r = renderCount (8 * n.toNat) start str ∧
        ∀ c, t.column c = drawnColumn s.par start ((layout str).take (8 * n.toNat - start)) c (s.column c)) ∧
      ((∀ ch ∈ str, ch ≠ 0x2E) → start + str.length ≤ 8 * n.toNat →
        r = str.length ∧ ∀ k, k < str.length → t.column (start + k) = (str[k]?).map (patternOf s.par)) ∧
      (lines.filter fun e => e.code = 2).length ≤ 1

/-- R151: one character other than '.', with room for it, takes its glyph's byte if it is in 0x20–0x7D; any other takes the
unknown glyph's, and one warning is logged; it consumes a column either way. -/
def Obligations.GlyphsAreSelectedByRange : Prop :=
  ∀ (s : State) (n : Byte) (m : Memory) (start : Nat) (ch : Byte), s.Drawable n m → start < 8 * n.toNat → ch ≠ 0x2E →
    ∃ t, render start [ch] s = .ok 1 t ∧ t.column start ≠ none ∧
      (0x20 ≤ ch.toNat ∧ ch.toNat ≤ 0x7D → t.column start = s.par.glyphs[ch.toNat - 0x20]? ∧ t.logTrace = s.logTrace) ∧
      (ch.toNat < 0x20 ∨ 0x7E ≤ ch.toNat →
        t.column start = some s.par.unknownGlyph ∧ t.logTrace = s.logTrace ++ [.unknownGlyph ch start])

/-- R152: a leading dot sets bit 7 of the start column, keeps its other bits and consumes it; a dot after a string that fits
sets bit 7 of the last column it wrote, and changes nothing else: not the count, not the log. -/
def Obligations.DotsCombineWithTheColumnBefore : Prop :=
  ∀ (s : State) (n : Byte) (m : Memory) (start : Nat), s.Drawable n m → start < 8 * n.toNat →
    (∃ t, render start [0x2E] s = .ok 1 t ∧ t.column start = (s.column start).map (· ||| 0x80) ∧
      t.logTrace = s.logTrace ∧ ∀ c, c ≠ start → t.column c = s.column c) ∧
    ∀ str : List Byte, str ≠ [] → (layout str).length ≤ 8 * n.toNat - start →
      ∃ r t u, render start str s = .ok (r + 1) t ∧ render start (str ++ [0x2E]) s = .ok (r + 1) u ∧
        u.column (start + r) = (t.column (start + r)).map (· ||| 0x80) ∧
        (∀ c, c ≠ start + r → u.column c = t.column c) ∧ u.logTrace = t.logTrace

/-- R153: rendering that runs out of columns stops at the boundary: it writes every column there is room for, logs one overflow
at the column it stopped at, and drops every later character, dots included; with no room at all it writes nothing. -/
def Obligations.OverflowTruncatesAndLogsOnce : Prop :=
  ∀ (s : State) (n : Byte) (m : Memory) (start : Nat) (str more : List Byte), s.Drawable n m →
    8 * n.toNat - start < (layout str).length →
    ∃ t lines, render start str s = .ok (8 * n.toNat - start) t ∧
      t.logTrace = s.logTrace ++ lines ++ [.overflow (start + (8 * n.toNat - start))] ∧
      (∀ e ∈ lines, e.code = 1) ∧ render start (str ++ more) s = render start str s ∧
      (∀ c, t.column c = drawnColumn s.par start ((layout str).take (8 * n.toNat - start)) c (s.column c)) ∧
      (8 * n.toNat ≤ start → t.fb = s.fb)

/-! ## Outcomes -/

/-- R234, R235, R236: from a state that meets the invariant, an instruction that records a fault or a refusal changes nothing but
the marks and their records: the mark is set and exactly one record is added, for that instruction, with a code the tables give
it.  A host command's fault is `F_UNSET` or `F_NO_BUFFER`: `F_OOB` and `F_TXN` are reached from none (R53, R100). -/
def Obligations.MarkedCommandsHaveNoOtherEffect : Prop :=
  ∀ (i : Instr) (s t : State), s.Inv → exec i s = .next t →
    (t.faultLog ≠ s.faultLog → ∃ f ∈ s.faultsOf i, t = s.markFault f (.instr i) ∧
      (i.port = .host → f = .fUnset ∨ f = .fNoBuffer)) ∧
    (t.refusalLog ≠ s.refusalLog → ∃ r ∈ refusalsOf i, t = s.markRefusal r (.instr i))

/-- R37, in every state.  Every w of the access table: each field is written by no instruction but those the table lets write it
(beside its rows stand `DRAW_DONE`, the end of an `UPDATE` (R138), which sends and ends the window, and the frames at the chain).
Of its r entries, those of the two settings with one reader: no instruction but `SETUP` reads the intensity and none but `UPDATE`
the writer, so that with another value there it does the same. -/
def Obligations.FieldsAreWrittenByTheirTableRowsOnly : Prop :=
  (∀ (i : Instr) (s t : State), exec i s = .next t →
    (t.chips ≠ s.chips → ∃ n, i = .setchips n) ∧ (t.intensity ≠ s.intensity → ∃ v, i = .setint v) ∧
    (t.writer ≠ s.writer → ∃ w, i = .setwr w) ∧ (t.phase ≠ s.phase → i ∈ [Instr.setup, .update, .drawDone]) ∧
    (t.fb ≠ s.fb → i ∈ [Instr.setup, .update] ∨ (∃ idx v, i = .setcol idx v) ∨ isPrint i = true) ∧
    (t.busTrace ≠ s.busTrace ∨ t.txnOpen ≠ s.txnOpen → i ∈ [Instr.setup, .update, .display, .drawDone]) ∧
    (t.logTrace ≠ s.logTrace → isPrint i = true) ∧
    (t.chain ≠ s.chain → i ∈ [Instr.setup, .update, .display, .drawDone] ∨ i.port = .chain) ∧
    (t.results ≠ s.results → i ∈ [Instr.width, .height] ∨ isPrint i = true)) ∧
  ∀ (i : Instr) (s t : State) (x : Option Byte), exec i s = .next t →
    (i ≠ .setup → (∀ v, i ≠ .setint v) → exec i { s with intensity := x } = .next { t with intensity := x }) ∧
    (i ≠ .update → (∀ w, i ≠ .setwr w) → exec i { s with writer := x } = .next { t with writer := x })

/-! ## The bus operations -/

/-- R100, R101, R102, R106: the bus primitives emit their event exactly when the transaction state allows it, `BusEnd` latching
at the chain the bytes sent since the `BEGIN` (R200; what the latch does while the chip count is `⊥` is log entry 16), and
otherwise raise `F_TXN` and leave the state as it is. -/
def Obligations.BusPrimitivesKeepTheTransactionState : Prop :=
  ∀ (s : State) (b : Byte) (k : Nat),
    (s.txnOpen = false →
      busBegin s = .ok () { s with txnOpen := true, busTrace := s.busTrace ++ [.txnBegin] } ∧
      delay k s = .ok () { s with busTrace := s.busTrace ++ [.delay k] } ∧
      busWrite b s = .error .fTxn s ∧ busEnd s = .error .fTxn s) ∧
    (s.txnOpen = true →
      busWrite b s = .ok () { s with busTrace := s.busTrace ++ [.byte b] } ∧
      busEnd s = .ok () { s with txnOpen := false, busTrace := s.busTrace ++ [.txnEnd]
                                 chain := latch s.chips (openBytes s.busTrace) s.chain } ∧
      busBegin s = .error .fTxn s ∧ delay k s = .error .fTxn s)

/-- R55, R56, R103: a frame is two byte events, register first, whose 16 bits leave in the order frame bit 15 down to bit 0. -/
def Obligations.FramesLeaveMostSignificantBitFirst : Prop :=
  ∀ (s : State) (reg val : Byte), s.txnOpen = true →
    sendFrame reg val s = .ok () { s with busTrace := s.busTrace ++ [.byte reg, .byte val] } ∧
    wireOf [.byte reg, .byte val] = (List.range 16).map fun k => (reg ++ val).getLsbD (15 - k)

/-- R200: at `BusEnd()` a transaction of exactly `N` frames is applied to every chip at once, chip `j` taking the pair
`(b[2j], b[2j+1])`; after any other transaction every cell of every chip is `⊥`.  That positions from `N` up are kept by the one
and become `⊥` by the other, and that a transaction with an odd number of bytes is one of the wrong length, is the model's choice
(log entry 7). -/
def Obligations.LatchAppliesFrameJToChipJ : Prop :=
  ∀ (s : State) (n : Byte) (bytes : List Byte) (earlier : List BusEvent), s.chips = some n → s.txnOpen = true →
    s.chain.length = 255 → s.busTrace = earlier ++ .txnBegin :: bytes.map .byte →
    ∃ t, busEnd s = .ok () t ∧
      (bytes.length = 2 * n.toNat →
        (∀ j, j < n.toNat → t.chip j = (s.chip j).receive (bytes.getD (2 * j) 0) (bytes.getD (2 * j + 1) 0)) ∧
        ∀ j, n.toNat ≤ j → t.chip j = s.chip j) ∧
      (bytes.length ≠ 2 * n.toNat → ∀ j a, t.chipReg j a = none)

/-- R200 and R201–R207 agree: what the latch does to chip `j` is what the frame's own instruction does when chip `j` receives
it, for every transaction of `N` frames (frames as instructions of one chip are the model's choice: log entry 5). -/
def Obligations.LatchIsTheFramesMeaning : Prop :=
  ∀ (s : State) (n : Byte) (frames : List (Byte × Byte)) (earlier : List BusEvent) (j : Nat) (i : Instr) (rest : List Byte),
    s.chips = some n → s.txnOpen = true → s.chain.length = 255 → frames.length = n.toNat →
    s.busTrace = earlier ++ .txnBegin :: frames.flatMap (fun f => [.byte f.1, .byte f.2]) → j < n.toNat →
    decode .chain [(frames.getD j (0, 0)).1, (frames.getD j (0, 0)).2] = .ok (i, rest) →
    ∃ t u, busEnd s = .ok () t ∧ exec i { s with rxChip := j } = .next u ∧ t.chip j = u.chip j

/-- R104: `BROADCAST(reg, val)` sends one transaction of `N` equal frames, every chip receives the frame, so that its register
takes the value where the address has a cell, and nothing else changes.  That the positions from `N` up are kept is the model's
choice (log entry 7). -/
def Obligations.BroadcastReachesEveryChip : Prop :=
  ∀ (s : State) (n : Byte) (reg val : Byte), s.chips = some n → s.txnOpen = false → s.chain.length = 255 →
    ∃ t, broadcast reg val s = .ok () t ∧
      t = { s with busTrace := s.busTrace ++ txnEvents (List.replicate n.toNat (reg, val)), chain := t.chain } ∧
      (∀ j, j < n.toNat → t.chip j = (s.chip j).receive reg val) ∧
      (ChipReg.ofAddr reg ≠ none →
        ∀ j, j < n.toNat → t.chipReg j reg = some val ∧ ∀ a, a ≠ reg → t.chipReg j a = s.chipReg j a) ∧
      ∀ j, n.toNat ≤ j → t.chip j = s.chip j

/-- R105: `WRITE_ONE(k, reg, val)` sends one transaction of `N` frames, the real one at position `k` and `(0x00, 0x00)` at every
other; chip `k` receives it, so that its register alone takes the value where the address has a cell, every other chip is as
before, and nothing else of the machine changes; a position that is no chip's is `F_OOB` with nothing sent.  That the positions
from `N` up are kept is the model's choice (log entry 7). -/
def Obligations.WriteOneTargetsOneChip : Prop :=
  ∀ (s : State) (n : Byte) (k : Nat) (reg val : Byte), s.chips = some n → s.txnOpen = false → s.chain.length = 255 →
    (k < n.toNat → ∃ t, writeOne k reg val s = .ok () t ∧
      t = { s with chain := t.chain
                   busTrace := s.busTrace
                     ++ txnEvents ((List.range n.toNat).map fun j => if j = k then (reg, val) else (0x00, 0x00)) } ∧
      t.chip k = (s.chip k).receive reg val ∧ (∀ j, j ≠ k → t.chip j = s.chip j) ∧
      (ChipReg.ofAddr reg ≠ none →
        t.chipReg k reg = some val ∧ ∀ j a, j ≠ k ∨ a ≠ reg → t.chipReg j a = s.chipReg j a)) ∧
    (n.toNat ≤ k → writeOne k reg val s = .error (.fOob k) s)

/-- R53: `MemRead` and `MemWrite` act on column `c` alone when there is one, and raise `F_OOB` with the state unchanged when
there is not. -/
def Obligations.MemoryPrimitivesAreBounded : Prop :=
  ∀ (s : State) (m : Memory) (c : Nat) (v : Byte), s.fb = some m → m.wf = true →
    (c < m.size → (∃ b, memRead c s = .ok b s ∧ s.column c = some b) ∧
      ∃ t, memWrite c v s = .ok () t ∧ t = { s with fb := t.fb } ∧ t.column c = some v ∧
        ∀ d, d ≠ c → t.column d = s.column d) ∧
    (m.size ≤ c → memRead c s = .error (.fOob c) s ∧ memWrite c v s = .error (.fOob c) s)

/-! ## Frames at the chain -/

/-- R202, the frames ROW1 to ROW8: the receiving chip's row register takes the value, and nothing else of the machine
changes. -/
def Obligations.RowFramesWriteTheirRegister : Prop :=
  ∀ (s : State) (v : Byte), s.rxChip < s.chipLimit → s.chain.length = 255 →
    (∃ t, exec (.row1 v) s = .next t ∧ WritesCell s t s.rxChip 0x01 v) ∧
    (∃ t, exec (.row2 v) s = .next t ∧ WritesCell s t s.rxChip 0x02 v) ∧
    (∃ t, exec (.row3 v) s = .next t ∧ WritesCell s t s.rxChip 0x03 v) ∧
    (∃ t, exec (.row4 v) s = .next t ∧ WritesCell s t s.rxChip 0x04 v) ∧
    (∃ t, exec (.row5 v) s = .next t ∧ WritesCell s t s.rxChip 0x05 v) ∧
    (∃ t, exec (.row6 v) s = .next t ∧ WritesCell s t s.rxChip 0x06 v) ∧
    (∃ t, exec (.row7 v) s = .next t ∧ WritesCell s t s.rxChip 0x07 v) ∧
    ∃ t, exec (.row8 v) s = .next t ∧ WritesCell s t s.rxChip 0x08 v

/-- R203–R207, the frames DECODE, INTENSITY, SCANLIMIT, SHUTDOWN and DISPTEST: the receiving chip's register takes the value,
and nothing else of the machine changes. -/
def Obligations.ControlFramesWriteTheirRegister : Prop :=
  ∀ (s : State) (v : Byte), s.rxChip < s.chipLimit → s.chain.length = 255 →
    (∃ t, exec (.decode v) s = .next t ∧ WritesCell s t s.rxChip 0x09 v) ∧
    (∃ t, exec (.intensity v) s = .next t ∧ WritesCell s t s.rxChip 0x0A v) ∧
    (∃ t, exec (.scanlimit v) s = .next t ∧ WritesCell s t s.rxChip 0x0B v) ∧
    (∃ t, exec (.shutdown v) s = .next t ∧ WritesCell s t s.rxChip 0x0C v) ∧
    ∃ t, exec (.disptest v) s = .next t ∧ WritesCell s t s.rxChip 0x0F v

/-- R201, the NOOP frame: nothing changes, whatever its value. -/
def Obligations.NoopFrameChangesNothing : Prop :=
  ∀ (s : State) (v : Byte), s.rxChip < s.chipLimit → exec (.noop v) s = .next s

/-- R234: a frame at a position that is no chip's is `F_OOB`, with no other effect (the position's limit is the model's: log
entry 5). -/
def Obligations.FramesBeyondTheChainAreOutOfBounds : Prop :=
  ∀ (i : Instr) (s : State), i.port = .chain → s.chipLimit ≤ s.rxChip →
    exec i s = .next (s.markFault (.fOob s.rxChip) (.instr i))

/-- R210, R75: a frame with a reserved register address, fed from elsewhere, leaves every cell of the receiving chip `⊥` and
nothing else of the machine changed but the inbox and the receiving position. -/
def Obligations.ReservedFramesUnsettleTheirChip : Prop :=
  ∀ (s : State) (j : Nat) (reg val : Byte) (rest : List Input), s.inbox = .frame j reg val :: rest →
    reservedReg reg = true → j < s.chipLimit → s.chain.length = 255 →
    ∃ t, step s = .next t ∧ t = { s with inbox := rest, rxChip := j, chain := t.chain } ∧
      (∀ a, t.chipReg j a = none) ∧ ∀ k, k ≠ j → t.chip k = s.chip k
end

