-- ==== Sys2Proof/Laws/State.lean ====
section
/-! SUPPORT. The small lemmas of the state's updates: one per field per update, and the laws of running one operation after
another, so that no later proof unfolds a record update or a bind. -/

namespace Sys2Proof.Machine

/-! ### One operation after another -/

@[simp] theorem Act.pure_apply {α : Type} (a : α) (s : State) : (pure a : Act α) s = .ok a s := rfl

theorem Act.bind_ok {α β : Type} {x : Act α} {f : α → Act β} {s t : State} {a : α} (h : x s = .ok a t) :
    (x >>= f) s = f a t := by
  show EStateM.bind x f s = f a t
  simp [EStateM.bind, h]

/-- Run the first operation, then prove what the rest answers: the shape to walk through a sequence with `refine`. -/
theorem Act.run_ok {α β : Type} {x : Act α} {f : α → Act β} {s t : State} {a : α} {r : EStateM.Result Fault State β}
    (h : x s = .ok a t) (k : f a t = r) : (x >>= f) s = r := (Act.bind_ok h).trans k

theorem Act.bind_error {α β : Type} {x : Act α} {f : α → Act β} {s t : State} {e : Fault} (h : x s = .error e t) :
    (x >>= f) s = .error e t := by
  show EStateM.bind x f s = .error e t
  simp [EStateM.bind, h]

@[simp] theorem forEach_nil (body : Nat → Act Unit) (s : State) : forEach [] body s = .ok () s := rfl

theorem forEach_cons {k : Nat} {ks : List Nat} {body : Nat → Act Unit} {s t : State} (h : body k s = .ok () t) :
    forEach (k :: ks) body s = forEach ks body t := Act.bind_ok h

theorem forEach_run {k : Nat} {ks : List Nat} {body : Nat → Act Unit} {s t : State} {r : EStateM.Result Fault State Unit}
    (h : body k s = .ok () t) (rest : forEach ks body t = r) : forEach (k :: ks) body s = r := (forEach_cons h).trans rest

/-! ### The marks -/

@[simp] theorem State.markFault_chips (s : State) (f : Fault) (c : Issued) : (s.markFault f c).chips = s.chips := rfl
@[simp] theorem State.markFault_intensity (s : State) (f : Fault) (c : Issued) : (s.markFault f c).intensity = s.intensity := rfl
@[simp] theorem State.markFault_writer (s : State) (f : Fault) (c : Issued) : (s.markFault f c).writer = s.writer := rfl
@[simp] theorem State.markFault_phase (s : State) (f : Fault) (c : Issued) : (s.markFault f c).phase = s.phase := rfl
@[simp] theorem State.markFault_fb (s : State) (f : Fault) (c : Issued) : (s.markFault f c).fb = s.fb := rfl
@[simp] theorem State.markFault_txnOpen (s : State) (f : Fault) (c : Issued) : (s.markFault f c).txnOpen = s.txnOpen := rfl
@[simp] theorem State.markFault_busTrace (s : State) (f : Fault) (c : Issued) : (s.markFault f c).busTrace = s.busTrace := rfl
@[simp] theorem State.markFault_logTrace (s : State) (f : Fault) (c : Issued) : (s.markFault f c).logTrace = s.logTrace := rfl
@[simp] theorem State.markFault_faulted (s : State) (f : Fault) (c : Issued) : (s.markFault f c).faulted = true := rfl
@[simp] theorem State.markFault_refused (s : State) (f : Fault) (c : Issued) : (s.markFault f c).refused = s.refused := rfl
@[simp] theorem State.markFault_faultLog (s : State) (f : Fault) (c : Issued) : (s.markFault f c).faultLog = s.faultLog ++ [(f, c)] := rfl
@[simp] theorem State.markFault_refusalLog (s : State) (f : Fault) (c : Issued) : (s.markFault f c).refusalLog = s.refusalLog := rfl
@[simp] theorem State.markFault_chain (s : State) (f : Fault) (c : Issued) : (s.markFault f c).chain = s.chain := rfl
@[simp] theorem State.markFault_results (s : State) (f : Fault) (c : Issued) : (s.markFault f c).results = s.results := rfl
@[simp] theorem State.markFault_inbox (s : State) (f : Fault) (c : Issued) : (s.markFault f c).inbox = s.inbox := rfl
@[simp] theorem State.markFault_rxChip (s : State) (f : Fault) (c : Issued) : (s.markFault f c).rxChip = s.rxChip := rfl
@[simp] theorem State.markFault_par (s : State) (f : Fault) (c : Issued) : (s.markFault f c).par = s.par := rfl

@[simp] theorem State.markRefusal_chips (s : State) (r : Refusal) (c : Issued) : (s.markRefusal r c).chips = s.chips := rfl
@[simp] theorem State.markRefusal_intensity (s : State) (r : Refusal) (c : Issued) : (s.markRefusal r c).intensity = s.intensity := rfl
@[simp] theorem State.markRefusal_writer (s : State) (r : Refusal) (c : Issued) : (s.markRefusal r c).writer = s.writer := rfl
@[simp] theorem State.markRefusal_phase (s : State) (r : Refusal) (c : Issued) : (s.markRefusal r c).phase = s.phase := rfl
@[simp] theorem State.markRefusal_fb (s : State) (r : Refusal) (c : Issued) : (s.markRefusal r c).fb = s.fb := rfl
@[simp] theorem State.markRefusal_txnOpen (s : State) (r : Refusal) (c : Issued) : (s.markRefusal r c).txnOpen = s.txnOpen := rfl
@[simp] theorem State.markRefusal_busTrace (s : State) (r : Refusal) (c : Issued) : (s.markRefusal r c).busTrace = s.busTrace := rfl
@[simp] theorem State.markRefusal_logTrace (s : State) (r : Refusal) (c : Issued) : (s.markRefusal r c).logTrace = s.logTrace := rfl
@[simp] theorem State.markRefusal_faulted (s : State) (r : Refusal) (c : Issued) : (s.markRefusal r c).faulted = s.faulted := rfl
@[simp] theorem State.markRefusal_refused (s : State) (r : Refusal) (c : Issued) : (s.markRefusal r c).refused = true := rfl
@[simp] theorem State.markRefusal_faultLog (s : State) (r : Refusal) (c : Issued) : (s.markRefusal r c).faultLog = s.faultLog := rfl
@[simp] theorem State.markRefusal_refusalLog (s : State) (r : Refusal) (c : Issued) : (s.markRefusal r c).refusalLog = s.refusalLog ++ [(r, c)] := rfl
@[simp] theorem State.markRefusal_chain (s : State) (r : Refusal) (c : Issued) : (s.markRefusal r c).chain = s.chain := rfl
@[simp] theorem State.markRefusal_results (s : State) (r : Refusal) (c : Issued) : (s.markRefusal r c).results = s.results := rfl
@[simp] theorem State.markRefusal_inbox (s : State) (r : Refusal) (c : Issued) : (s.markRefusal r c).inbox = s.inbox := rfl
@[simp] theorem State.markRefusal_rxChip (s : State) (r : Refusal) (c : Issued) : (s.markRefusal r c).rxChip = s.rxChip := rfl
@[simp] theorem State.markRefusal_par (s : State) (r : Refusal) (c : Issued) : (s.markRefusal r c).par = s.par := rfl

theorem State.sameButMarks_refl (s : State) : s.sameButMarks s := rfl

theorem State.markFault_sameButMarks (s : State) (f : Fault) (c : Issued) : s.sameButMarks (s.markFault f c) := rfl

theorem State.markRefusal_sameButMarks (s : State) (r : Refusal) (c : Issued) : s.sameButMarks (s.markRefusal r c) := rfl

/-! ### The outcome of an instruction -/

@[simp] theorem raise_eq (f : Fault) (i : Instr) (s : State) : raise f i s = s.markFault f (.instr i) := rfl

@[simp] theorem refuse_eq (r : Refusal) (i : Instr) (s : State) : refuse r i s = s.markRefusal r (.instr i) := rfl

theorem concluded_ok {i : Instr} {act : Act Unit} {s t : State} (h : act s = .ok () t) : concluded i act s = t := by
  simp [concluded, h]

theorem concluded_error {i : Instr} {act : Act Unit} {s t : State} {f : Fault} (h : act s = .error f t) :
    concluded i act s = t.markFault f (.instr i) := by
  simp [concluded, h]

/-- What the end of an execution can be: the operation's state, or its state at a fault with the mark. -/
theorem concluded_cases (i : Instr) (act : Act Unit) (s : State) :
    (∃ t, act s = .ok () t ∧ concluded i act s = t) ∨
      ∃ f t, act s = .error f t ∧ concluded i act s = t.markFault f (.instr i) := by
  cases h : act s with
  | ok u t => exact .inl ⟨t, rfl, concluded_ok h⟩
  | error f t => exact .inr ⟨f, t, rfl, concluded_error h⟩

theorem conclude_ok {i : Instr} {act : Act Unit} {s t : State} (h : act s = .ok () t) : conclude i act s = .next t :=
  congrArg _ (concluded_ok h)

theorem conclude_error {i : Instr} {act : Act Unit} {s t : State} {f : Fault} (h : act s = .error f t) :
    conclude i act s = .next (t.markFault f (.instr i)) := congrArg _ (concluded_error h)

@[simp] theorem guarded_admitted (i : Instr) (run : State → State) (s : State) :
    guarded .admitted i run s = .next (run s) := rfl

@[simp] theorem guarded_refused (r : Refusal) (i : Instr) (run : State → State) (s : State) :
    guarded (.refusedWith r) i run s = .next (s.markRefusal r (.instr i)) := rfl

@[simp] theorem guarded_raises (f : Fault) (i : Instr) (run : State → State) (s : State) :
    guarded (.raises f) i run s = .next (s.markFault f (.instr i)) := rfl

/-! ### Reset -/

theorem State.reset_chain : State.reset.chain = List.replicate 255 ChipImage.unknown := rfl

/-- At reset every chip's every cell is `⊥` (R261). -/
theorem State.reset_chip (j : Nat) : State.reset.chip j = ChipImage.unknown := by
  rw [State.chip, State.reset_chain, List.getD_eq_getElem?_getD, List.getElem?_replicate]
  split <;> rfl

theorem State.reset_chain_length : State.reset.chain.length = Param.chipsMax := List.length_replicate

theorem State.reset_glyphs_length : State.reset.par.glyphs.length = Param.glyphCount := by
  show ((List.range Param.glyphCount).map Config.glyph).length = Param.glyphCount
  rw [List.length_map, List.length_range]

/-! ### What one operation leaves -/

/-- The operation extends the traces, the log, the results and the records, never shortening one, and leaves the inbox, the
receiving position, the parameters, the settings and the marks. -/
structure Extends (s t : State) : Prop where
  bus       : ∃ es, t.busTrace = s.busTrace ++ es
  log       : ∃ es, t.logTrace = s.logTrace ++ es
  results   : ∃ vs, t.results = s.results ++ vs
  chips     : t.chips = s.chips
  intensity : t.intensity = s.intensity
  writer    : t.writer = s.writer
  faulted   : t.faulted = s.faulted
  refused   : t.refused = s.refused
  faultLog  : t.faultLog = s.faultLog
  refusalLog : t.refusalLog = s.refusalLog
  inbox     : t.inbox = s.inbox
  rxChip    : t.rxChip = s.rxChip
  par       : t.par = s.par

theorem Extends.refl (s : State) : Extends s s :=
  ⟨⟨[], by simp⟩, ⟨[], by simp⟩, ⟨[], by simp⟩, rfl, rfl, rfl, rfl, rfl, rfl, rfl, rfl, rfl, rfl⟩

theorem Extends.trans {s t u : State} (h : Extends s t) (k : Extends t u) : Extends s u := by
  obtain ⟨⟨b, hb⟩, ⟨l, hl⟩, ⟨r, hr⟩, h1, h2, h3, h4, h5, h6, h7, h8, h9, h10⟩ := h
  obtain ⟨⟨b', kb⟩, ⟨l', kl⟩, ⟨r', kr⟩, k1, k2, k3, k4, k5, k6, k7, k8, k9, k10⟩ := k
  exact ⟨⟨b ++ b', by simp [kb, hb]⟩, ⟨l ++ l', by simp [kl, hl]⟩, ⟨r ++ r', by simp [kr, hr]⟩, k1.trans h1, k2.trans h2,
    k3.trans h3, k4.trans h4, k5.trans h5, k6.trans h6, k7.trans h7, k8.trans h8, k9.trans h9, k10.trans h10⟩

end Sys2Proof.Machine
end

