-- ==== Sys2Proof/Laws/Chain.lean ====
section
/-! SUPPORT. The laws of the chain: what one frame does to a chip's cells, what a transaction does to every chip, and what a
whole refresh leaves. -/

namespace Sys2Proof.Machine

/-- The address of a register: the inverse of `ChipReg.ofAddr`. -/
def ChipReg.addr : ChipReg → Byte
  | .row1 => 0x01#8
  | .row2 => 0x02#8
  | .row3 => 0x03#8
  | .row4 => 0x04#8
  | .row5 => 0x05#8
  | .row6 => 0x06#8
  | .row7 => 0x07#8
  | .row8 => 0x08#8
  | .decode => 0x09#8
  | .intensity => 0x0A#8
  | .scanLimit => 0x0B#8
  | .shutdown => 0x0C#8
  | .dispTest => 0x0F#8

theorem ChipReg.ofAddr_addr (r : ChipReg) : ChipReg.ofAddr r.addr = some r := by cases r <;> decide

theorem ite_some_cases {α : Type} {p : Prop} [Decidable p] {a r : α} {x : Option α} (h : (if p then some a else x) = some r) :
    (p ∧ a = r) ∨ x = some r := by
  by_cases hp : p
  · rw [if_pos hp] at h
    exact .inl ⟨hp, Option.some.inj h⟩
  · rw [if_neg hp] at h
    exact .inr h

theorem ChipReg.addr_of_ofAddr {a : Byte} {r : ChipReg} (h : ChipReg.ofAddr a = some r) : a = r.addr := by
  unfold ChipReg.ofAddr at h
  iterate 13
    rcases ite_some_cases h with ⟨he, rfl⟩ | h
    · exact he
  cases h

/-- Address 0 is no register's (R35). -/
@[simp] theorem ChipReg.ofAddr_noop : ChipReg.ofAddr 0x00#8 = none := rfl

theorem ChipReg.ofAddr_inj {a b : Byte} {r : ChipReg} (ha : ChipReg.ofAddr a = some r) (hb : ChipReg.ofAddr b = some r) :
    a = b := (addr_of_ofAddr ha).trans (addr_of_ofAddr hb).symm

@[simp] theorem ChipImage.get_set_same (c : ChipImage) (r : ChipReg) (v : Byte) : (c.set r v).get r = some v := by
  cases r <;> rfl

theorem ChipImage.get_set_other (c : ChipImage) {r q : ChipReg} (v : Byte) (h : q ≠ r) : (c.set r v).get q = c.get q := by
  cases r <;> cases q <;> first | rfl | exact absurd rfl h

@[simp] theorem ChipImage.cell_unknown (a : Byte) : ChipImage.unknown.cell a = none := by
  unfold ChipImage.cell
  cases ChipReg.ofAddr a with
  | none => rfl
  | some r => cases r <;> rfl

/-- Address 0 has no cell (R35). -/
@[simp] theorem ChipImage.cell_noop (c : ChipImage) : c.cell 0x00#8 = none := rfl

/-- `REG_NOOP` changes nothing (R201). -/
@[simp] theorem ChipImage.receive_noop (c : ChipImage) (v : Byte) : c.receive 0x00#8 v = c := rfl

/-- A frame to a register writes that cell (R202–R207). -/
theorem ChipImage.cell_receive_same (c : ChipImage) {a : Byte} {r : ChipReg} (v : Byte) (h : ChipReg.ofAddr a = some r) :
    (c.receive a v).cell a = some v := by
  have h0 : a ≠ 0x00#8 := by
    intro e
    rw [e, ChipReg.ofAddr_noop] at h
    cases h
  simp [ChipImage.receive, ChipImage.cell, h, h0]

/-- A frame to a register leaves every other cell (R202–R207). -/
theorem ChipImage.cell_receive_other (c : ChipImage) {a b : Byte} {r : ChipReg} (v : Byte) (h : ChipReg.ofAddr a = some r)
    (hb : b ≠ a) : (c.receive a v).cell b = c.cell b := by
  unfold ChipImage.receive
  split
  · rfl
  · simp only [h, ChipImage.cell]
    cases hq : ChipReg.ofAddr b with
    | none => rfl
    | some q => exact c.get_set_other v fun e => hb (ChipReg.ofAddr_inj hq (e ▸ h))

/-- A frame to a reserved register leaves every cell `⊥` (R210). -/
theorem ChipImage.receive_reserved (c : ChipImage) {a : Byte} (v : Byte) (h0 : a ≠ 0x00#8) (h : ChipReg.ofAddr a = none) :
    c.receive a v = ChipImage.unknown := by
  simp [ChipImage.receive, h0, h]

/-- The row registers, by refresh pass. -/
theorem ChipReg.ofAddr_row {i : Nat} (h : i < 8) : ∃ r, ChipReg.ofAddr (BitVec.ofNat 8 (8 - i)) = some r := by
  have : ∀ i : Fin 8, ∃ r, ChipReg.ofAddr (BitVec.ofNat 8 (8 - i.val)) = some r := by
    intro i
    fin_cases i
    · exact ⟨.row8, rfl⟩
    · exact ⟨.row7, rfl⟩
    · exact ⟨.row6, rfl⟩
    · exact ⟨.row5, rfl⟩
    · exact ⟨.row4, rfl⟩
    · exact ⟨.row3, rfl⟩
    · exact ⟨.row2, rfl⟩
    · exact ⟨.row1, rfl⟩
  exact this ⟨i, h⟩

/-! ### Transactions -/

@[simp] theorem applyFrames_length (fs : List (Byte × Byte)) (cs : List ChipImage) : (applyFrames fs cs).length = cs.length := by
  induction fs generalizing cs with
  | nil => rfl
  | cons f fs ih => cases cs with
    | nil => rfl
    | cons c cs => simp [applyFrames, ih]

/-- Chip `j` applies frame `j` (R200). -/
theorem applyFrames_get (fs : List (Byte × Byte)) (cs : List ChipImage) (j : Nat) (hj : j < fs.length) (hc : j < cs.length) :
    (applyFrames fs cs).getD j ChipImage.unknown
      = (cs.getD j ChipImage.unknown).receive (fs.getD j (0, 0)).1 (fs.getD j (0, 0)).2 := by
  induction fs generalizing cs j with
  | nil => exact absurd hj (Nat.not_lt_zero _)
  | cons f fs ih => cases cs with
    | nil => exact absurd hc (Nat.not_lt_zero _)
    | cons c cs =>
      cases j with
      | zero => rfl
      | succ j =>
        simpa [applyFrames] using ih cs j (by simpa using hj) (by simpa using hc)

/-- The chips after the last frame keep their image. -/
theorem applyFrames_get_beyond (fs : List (Byte × Byte)) (cs : List ChipImage) (j : Nat) (hj : fs.length ≤ j) :
    (applyFrames fs cs).getD j ChipImage.unknown = cs.getD j ChipImage.unknown := by
  induction fs generalizing cs j with
  | nil => rfl
  | cons f fs ih => cases cs with
    | nil => rfl
    | cons c cs =>
      cases j with
      | zero => exact absurd hj (by simp)
      | succ j => simpa [applyFrames] using ih cs j (by simpa using hj)

theorem framesOf_flatMap (fs : List (Byte × Byte)) : framesOf (fs.flatMap fun f => [f.1, f.2]) = fs := by
  induction fs with
  | nil => rfl
  | cons f fs ih => simp [framesOf, ih]

theorem length_flatMap_pairs (fs : List (Byte × Byte)) : (fs.flatMap fun f => [f.1, f.2]).length = 2 * fs.length := by
  induction fs with
  | nil => rfl
  | cons f fs ih => simp [ih]; omega

/-- The latch of a transaction of exactly N frames (R200). -/
theorem latch_frames {n : Byte} {fs : List (Byte × Byte)} (h : fs.length = n.toNat) (chain : List ChipImage) :
    latch (some n) (fs.flatMap fun f => [f.1, f.2]) chain = applyFrames fs chain := by
  have hlen := length_flatMap_pairs fs
  simp only [latch, framesOf_flatMap]
  rw [if_pos (by omega)]

theorem openBytesFrom_append (xs ys : List BusEvent) (acc : List Byte) :
    openBytesFrom (xs ++ ys) acc = openBytesFrom ys (openBytesFrom xs acc) := by
  induction xs generalizing acc with
  | nil => rfl
  | cons x xs ih => cases x <;> simp [openBytesFrom, ih]

theorem openBytesFrom_frames (fs : List (Byte × Byte)) (acc : List Byte) :
    openBytesFrom (fs.flatMap fun f => [.byte f.1, .byte f.2]) acc = acc ++ fs.flatMap fun f => [f.1, f.2] := by
  induction fs generalizing acc with
  | nil => simp [openBytesFrom]
  | cons f fs ih => simp [openBytesFrom, ih]

/-- The bytes of a transaction that has sent these frames. -/
theorem openBytes_frames (tr : List BusEvent) (fs : List (Byte × Byte)) :
    openBytes (tr ++ .txnBegin :: fs.flatMap fun f => [.byte f.1, .byte f.2]) = fs.flatMap fun f => [f.1, f.2] := by
  simp [openBytes, openBytesFrom_append, openBytesFrom, openBytesFrom_frames]

/-- The bytes of a transaction that has sent these bytes. -/
theorem openBytes_bytes (tr : List BusEvent) (bs : List Byte) : openBytes (tr ++ .txnBegin :: bs.map .byte) = bs := by
  have h : ∀ (bs acc : List Byte), openBytesFrom (bs.map .byte) acc = acc ++ bs := by
    intro bs
    induction bs with
    | nil => intro acc; simp [openBytesFrom]
    | cons b bs ih => intro acc; simp [openBytesFrom, ih]
  simp [openBytes, openBytesFrom_append, openBytesFrom, h]

/-- `2n` bytes are `n` frames, frame `j` being bytes `2j` and `2j + 1` (R200). -/
theorem framesOf_pairs (n : Nat) (bs : List Byte) (h : bs.length = 2 * n) :
    (framesOf bs).length = n ∧
      ∀ j, j < n → (framesOf bs).getD j (0, 0) = (bs.getD (2 * j) 0, bs.getD (2 * j + 1) 0) := by
  induction n generalizing bs with
  | zero =>
    obtain rfl : bs = [] := List.length_eq_zero_iff.mp (by omega)
    exact ⟨rfl, fun j hj => absurd hj (Nat.not_lt_zero _)⟩
  | succ n ih =>
    match bs, h with
    | a :: b :: r, h =>
      obtain ⟨h1, h2⟩ := ih r (by simp at h; omega)
      refine ⟨by simp [framesOf, h1], fun j hj => ?_⟩
      cases j with
      | zero => rfl
      | succ j =>
        have e : 2 * (j + 1) = 2 * j + 1 + 1 := by omega
        rw [e]
        simpa [framesOf] using h2 j (by omega)

/-- A transaction of equal frames writes their register in every chip and nothing else (R104). -/
theorem equalFrames_cell {n j : Nat} {reg : Byte} {r : ChipReg} (val : Byte) (chain : List ChipImage) (a : Byte) (hj : j < n)
    (hn : n ≤ chain.length) (hr : ChipReg.ofAddr reg = some r) :
    ((applyFrames (List.replicate n (reg, val)) chain).getD j ChipImage.unknown).cell a
      = if a = reg then some val else (chain.getD j ChipImage.unknown).cell a := by
  rw [applyFrames_get _ _ _ (by simpa using hj) (by omega)]
  simp only [List.getD_eq_getElem?_getD, List.getElem?_replicate, hj, if_true, Option.getD_some]
  split
  · next h => subst h; exact ChipImage.cell_receive_same _ _ hr
  · next h => exact ChipImage.cell_receive_other _ _ hr h

/-! ### A whole refresh -/

@[simp] theorem passFrames_length (n : Nat) (m : Memory) (i : Nat) : (passFrames n m i).length = n := by simp [passFrames]

theorem passFrames_get {n j : Nat} (m : Memory) (i : Nat) (h : j < n) :
    (passFrames n m i).getD j (0, 0) = (BitVec.ofNat 8 (8 - i), (m.read (8 * j + i)).getD blankByte) := by
  simp [passFrames, List.getD_eq_getElem?_getD, h]

/-- One pass writes its row register in every chip and nothing else. -/
theorem pass_cell {n j i : Nat} (m : Memory) (chain : List ChipImage) (a : Byte) (hi : i < 8) (hj : j < n)
    (hn : n ≤ chain.length) :
    ((applyFrames (passFrames n m i) chain).getD j ChipImage.unknown).cell a
      = if a = BitVec.ofNat 8 (8 - i) then some ((m.read (8 * j + i)).getD blankByte)
        else (chain.getD j ChipImage.unknown).cell a := by
  rw [applyFrames_get _ _ _ (by simpa using hj) (by omega), passFrames_get m i hj]
  obtain ⟨r, hr⟩ := ChipReg.ofAddr_row hi
  split
  · next h => subst h; exact ChipImage.cell_receive_same _ _ hr
  · next h => exact ChipImage.cell_receive_other _ _ hr h

theorem foldl_passes_length (n : Nat) (m : Memory) (is : List Nat) (chain : List ChipImage) :
    (is.foldl (fun c i => applyFrames (passFrames n m i) c) chain).length = chain.length := by
  induction is generalizing chain with
  | nil => rfl
  | cons i is ih => simp [ih]

@[simp] theorem refreshedChain_length (n : Nat) (m : Memory) (chain : List ChipImage) :
    (refreshedChain n m chain).length = chain.length := foldl_passes_length n m _ chain

theorem regRow_inj {i k : Nat} (hi : i < 8) (hk : k < 8) (h : BitVec.ofNat 8 (8 - i) = BitVec.ofNat 8 (8 - k)) : i = k := by
  have := congrArg BitVec.toNat h
  simp at this
  omega

theorem foldl_passes_row {n j k : Nat} (m : Memory) (is : List Nat) (chain : List ChipImage) (his : ∀ i ∈ is, i < 8)
    (hk : k < 8) (hj : j < n) (hn : n ≤ chain.length) :
    ((is.foldl (fun c i => applyFrames (passFrames n m i) c) chain).getD j ChipImage.unknown).cell (BitVec.ofNat 8 (8 - k))
      = if k ∈ is then some ((m.read (8 * j + k)).getD blankByte)
        else (chain.getD j ChipImage.unknown).cell (BitVec.ofNat 8 (8 - k)) := by
  induction is generalizing chain with
  | nil => rfl
  | cons i is ih =>
    have hi := his i (by simp)
    rw [List.foldl_cons, ih _ (fun x hx => his x (by simp [hx])) (by simpa using hn), pass_cell m chain _ hi hj hn]
    by_cases hki : k = i
    · subst hki
      by_cases hm : k ∈ is <;> simp [hm]
    · have : BitVec.ofNat 8 (8 - k) ≠ BitVec.ofNat 8 (8 - i) := fun e => hki (regRow_inj hk hi e)
      by_cases hm : k ∈ is <;> simp [hm, hki, this]

theorem foldl_passes_other {n j : Nat} (m : Memory) (is : List Nat) (chain : List ChipImage) (a : Byte)
    (his : ∀ i ∈ is, i < 8 ∧ a ≠ BitVec.ofNat 8 (8 - i)) (hj : j < n) (hn : n ≤ chain.length) :
    ((is.foldl (fun c i => applyFrames (passFrames n m i) c) chain).getD j ChipImage.unknown).cell a
      = (chain.getD j ChipImage.unknown).cell a := by
  induction is generalizing chain with
  | nil => rfl
  | cons i is ih =>
    rw [List.foldl_cons, ih _ (fun x hx => his x (by simp [hx])) (by simpa using hn),
      pass_cell m chain _ (his i (by simp)).1 hj hn, if_neg (his i (by simp)).2]

theorem foldl_passes_beyond {n j : Nat} (m : Memory) (is : List Nat) (chain : List ChipImage) (hj : n ≤ j) :
    (is.foldl (fun c i => applyFrames (passFrames n m i) c) chain).getD j ChipImage.unknown
      = chain.getD j ChipImage.unknown := by
  induction is generalizing chain with
  | nil => rfl
  | cons i is ih => rw [List.foldl_cons, ih, applyFrames_get_beyond _ _ _ (by simpa using hj)]

/-- After a refresh, row register 8 − i of chip j holds column 8j + i (R133). -/
theorem refreshedChain_row {n j i : Nat} (m : Memory) (chain : List ChipImage) (hi : i < 8) (hj : j < n)
    (hn : n ≤ chain.length) :
    ((refreshedChain n m chain).getD j ChipImage.unknown).cell (BitVec.ofNat 8 (8 - i))
      = some ((m.read (8 * j + i)).getD blankByte) := by
  rw [refreshedChain, foldl_passes_row m _ chain (by simp) hi hj hn, if_pos (by simpa using hi)]

/-- A refresh leaves every cell that is no row register's (R209). -/
theorem refreshedChain_other {n j : Nat} (m : Memory) (chain : List ChipImage) (a : Byte)
    (ha : ∀ i, i < 8 → a ≠ BitVec.ofNat 8 (8 - i)) (hj : j < n) (hn : n ≤ chain.length) :
    ((refreshedChain n m chain).getD j ChipImage.unknown).cell a = (chain.getD j ChipImage.unknown).cell a :=
  foldl_passes_other m _ chain a (fun i hi => ⟨by simpa using hi, ha i (by simpa using hi)⟩) hj hn

/-- A refresh leaves the positions from N up. -/
theorem refreshedChain_beyond {n j : Nat} (m : Memory) (chain : List ChipImage) (hj : n ≤ j) :
    (refreshedChain n m chain).getD j ChipImage.unknown = chain.getD j ChipImage.unknown :=
  foldl_passes_beyond m _ chain hj

/-! ### A frame at one chip -/

@[simp] theorem updateChip_length (f : ChipImage → ChipImage) (j : Nat) (cs : List ChipImage) :
    (updateChip f j cs).length = cs.length := by
  induction cs generalizing j with
  | nil => cases j <;> rfl
  | cons c cs ih => cases j <;> simp [updateChip, ih]

theorem updateChip_get_same (f : ChipImage → ChipImage) (j : Nat) (cs : List ChipImage) (h : j < cs.length) :
    (updateChip f j cs).getD j ChipImage.unknown = f (cs.getD j ChipImage.unknown) := by
  induction cs generalizing j with
  | nil => exact absurd h (Nat.not_lt_zero _)
  | cons c cs ih => cases j with
    | zero => rfl
    | succ j => simpa [updateChip] using ih j (by simpa using h)

theorem updateChip_get_other (f : ChipImage → ChipImage) (j k : Nat) (cs : List ChipImage) (h : k ≠ j) :
    (updateChip f j cs).getD k ChipImage.unknown = cs.getD k ChipImage.unknown := by
  induction cs generalizing j k with
  | nil => cases j <;> rfl
  | cons c cs ih => cases j with
    | zero => cases k with
      | zero => exact absurd rfl h
      | succ k => rfl
    | succ j => cases k with
      | zero => rfl
      | succ k => simpa [updateChip] using ih j k (by omega)

theorem chipReceives_ok {s : State} (reg val : Byte) (h : s.rxChip < s.chipLimit) :
    chipReceives reg val s = .ok () { s with chain := updateChip (·.receive reg val) s.rxChip s.chain } := by
  simp [chipReceives, h]

theorem chipReceives_oob {s : State} (reg val : Byte) (h : s.chipLimit ≤ s.rxChip) :
    chipReceives reg val s = .error (.fOob s.rxChip) s := by
  simp [chipReceives, Nat.not_lt.mpr h]

end Sys2Proof.Machine
end

