-- ==== Sys2Proof/Laws/Memory.lean ====
section
/-! SUPPORT. The laws of the Frame Buffer's storage: read after write, and that every operation keeps the canonical form. -/

namespace Sys2Proof.Machine

/-- An address below every listed one reads as blank. -/
theorem cellAt_below (size : Nat) (cs : List Host.Cell) (c lo : Nat) (hlt : c < lo) (h : cellsWf size lo cs = true) :
    cellAt cs c = blankByte := by
  induction cs generalizing lo with
  | nil => rfl
  | cons q rest ih =>
    simp only [cellsWf, Bool.and_eq_true, decide_eq_true_eq] at h
    have : q.1 ≠ c := by omega
    simp only [cellAt, this, if_false]
    exact ih _ (by omega) h.2

/-- The canonical form does not depend on a lower bound below the first address. -/
theorem cellsWf_weaken {size : Nat} {cs : List Host.Cell} {lo lo' : Nat} (hle : lo' ≤ lo) (h : cellsWf size lo cs = true) :
    cellsWf size lo' cs = true := by
  cases cs with
  | nil => rfl
  | cons q rest =>
    simp only [cellsWf, Bool.and_eq_true, decide_eq_true_eq] at h ⊢
    exact ⟨⟨⟨by omega, h.1.1.2⟩, h.1.2⟩, h.2⟩

theorem cellAt_putCell_same (cs : List Host.Cell) (c : Nat) (v : Byte) (lo size : Nat) (h : cellsWf size lo cs = true) :
    cellAt (putCell cs c v) c = v := by
  induction cs generalizing lo with
  | nil => by_cases hv : v = blankByte <;> simp [putCell, cellAt, hv]
  | cons p rest ih =>
    obtain ⟨a, b⟩ := p
    simp only [cellsWf, Bool.and_eq_true, decide_eq_true_eq] at h
    simp only [putCell]
    rcases Nat.lt_trichotomy c a with h1 | rfl | h1
    · by_cases hv : v = blankByte
      · simp only [h1, if_true, hv, cellAt, show a ≠ c by omega, if_false]
        exact cellAt_below size rest c (a + 1) (by omega) h.2
      · simp [h1, hv, cellAt]
    · by_cases hv : v = blankByte
      · simp only [Nat.lt_irrefl, if_false, if_true, hv]
        exact cellAt_below size rest c (c + 1) (by omega) h.2
      · simp [hv, cellAt]
    · simp only [show ¬c < a by omega, show ¬c = a by omega, if_false, cellAt, show a ≠ c by omega]
      exact ih _ h.2

theorem cellAt_putCell_other (cs : List Host.Cell) (c d : Nat) (v : Byte) (h : d ≠ c) :
    cellAt (putCell cs c v) d = cellAt cs d := by
  induction cs with
  | nil => by_cases hv : v = blankByte <;> simp [putCell, cellAt, hv, Ne.symm h]
  | cons p rest ih =>
    obtain ⟨a, b⟩ := p
    simp only [putCell]
    split
    · split <;> simp [cellAt, Ne.symm h]
    · split
      · next h2 =>
        subst h2
        split <;> simp [cellAt, Ne.symm h]
      · by_cases had : a = d <;> simp [cellAt, had, ih]

theorem putCell_wf (cs : List Host.Cell) (c : Nat) (v : Byte) (lo size : Nat) (h : cellsWf size lo cs = true) (hlo : lo ≤ c)
    (hc : c < size) : cellsWf size lo (putCell cs c v) = true := by
  induction cs generalizing lo with
  | nil => by_cases hv : v = blankByte <;> simp [putCell, cellsWf, hv, hlo, hc]
  | cons p rest ih =>
    obtain ⟨a, b⟩ := p
    have hall := h
    simp only [cellsWf, Bool.and_eq_true, decide_eq_true_eq] at h
    simp only [putCell]
    rcases Nat.lt_trichotomy c a with h1 | rfl | h1
    · by_cases hv : v = blankByte
      · simpa [h1, hv] using hall
      · simp only [h1, if_true, hv, if_false, cellsWf, Bool.and_eq_true, decide_eq_true_eq]
        exact ⟨⟨⟨hlo, hc⟩, hv⟩, ⟨⟨⟨by omega, h.1.1.2⟩, h.1.2⟩, h.2⟩⟩
    · by_cases hv : v = blankByte
      · simp only [Nat.lt_irrefl, if_false, if_true, hv]
        exact cellsWf_weaken (by omega) h.2
      · simp only [Nat.lt_irrefl, if_false, if_true, hv, cellsWf, Bool.and_eq_true, decide_eq_true_eq]
        exact ⟨⟨⟨hlo, hc⟩, hv⟩, h.2⟩
    · simp only [show ¬c < a by omega, show ¬c = a by omega, if_false, cellsWf, Bool.and_eq_true, decide_eq_true_eq]
      exact ⟨h.1, ih (a + 1) h.2 (by omega)⟩

/-- Equal contents are equal data: two canonical lists that read the same everywhere are the same list. -/
theorem cells_ext (size lo : Nat) (cs ds : List Host.Cell) (hc : cellsWf size lo cs = true) (hd : cellsWf size lo ds = true)
    (h : ∀ c, lo ≤ c → c < size → cellAt cs c = cellAt ds c) : cs = ds := by
  induction cs generalizing lo ds with
  | nil =>
    cases ds with
    | nil => rfl
    | cons q ds' =>
      simp only [cellsWf, Bool.and_eq_true, decide_eq_true_eq] at hd
      have := h q.1 (by omega) (by omega)
      simp only [cellAt, if_true] at this
      exact absurd this.symm hd.1.2
  | cons p cs' ih =>
    obtain ⟨a, b⟩ := p
    simp only [cellsWf, Bool.and_eq_true, decide_eq_true_eq] at hc
    cases ds with
    | nil =>
      have := h a (by omega) (by omega)
      simp only [cellAt, if_true] at this
      exact absurd this hc.1.2
    | cons q ds' =>
      obtain ⟨a', b'⟩ := q
      simp only [cellsWf, Bool.and_eq_true, decide_eq_true_eq] at hd
      rcases Nat.lt_trichotomy a a' with hlt | heq | hgt
      · have := h a (by omega) (by omega)
        simp only [cellAt, if_true, show a' ≠ a by omega, if_false] at this
        rw [cellAt_below size ds' a (a' + 1) (by omega) hd.2] at this
        exact absurd this hc.1.2
      · subst heq
        have hb := h a (by omega) (by omega)
        simp only [cellAt, if_true] at hb
        have : cs' = ds' := by
          apply ih (a + 1) ds' hc.2 hd.2
          intro c h1 h2
          have := h c (by omega) h2
          simpa only [cellAt, show a ≠ c by omega, if_false] using this
        rw [hb, this]
      · have := h a' (by omega) (by omega)
        simp only [cellAt, if_true, show a ≠ a' by omega, if_false] at this
        rw [cellAt_below size cs' a' (a + 1) (by omega) hc.2] at this
        exact absurd this.symm hd.1.2

/-! ### The buffer -/

@[simp] theorem Memory.zeros_size (w : Nat) : (Memory.zeros w).size = w := rfl

@[simp] theorem Memory.zeros_wf (w : Nat) : (Memory.zeros w).wf = true := rfl

@[simp] theorem Memory.read_zeros (w c : Nat) : (Memory.zeros w).read c = if c < w then some blankByte else none := rfl

theorem Memory.read_of_lt {m : Memory} {c : Nat} (h : c < m.size) : m.read c = some (cellAt m.cells c) := by
  simp [Memory.read, h]

theorem Memory.read_of_le {m : Memory} {c : Nat} (h : m.size ≤ c) : m.read c = none := by
  simp [Memory.read, Nat.not_lt.mpr h]

/-- What a write in range gives: same size, the byte written, every other byte kept, the canonical form kept. -/
theorem Memory.write_spec {m : Memory} {c : Nat} (v : Byte) (hw : m.wf = true) (hc : c < m.size) :
    ∃ m', m.write c v = some m' ∧ m'.size = m.size ∧ m'.wf = true ∧ m'.read c = some v ∧ ∀ d, d ≠ c → m'.read d = m.read d := by
  refine ⟨⟨m.size, putCell m.cells c v⟩, by simp [Memory.write, hc], rfl, putCell_wf _ _ _ _ _ hw (Nat.zero_le _) hc, ?_, ?_⟩
  · simp [Memory.read, hc, cellAt_putCell_same m.cells c v 0 m.size hw]
  · intro d hd
    simp [Memory.read, cellAt_putCell_other _ _ _ _ hd]

theorem Memory.write_none {m : Memory} {c : Nat} (v : Byte) (hc : m.size ≤ c) : m.write c v = none := by
  simp [Memory.write, Nat.not_lt.mpr hc]

theorem Memory.write_size {m m' : Memory} {c : Nat} {v : Byte} (h : m.write c v = some m') : m'.size = m.size := by
  unfold Memory.write at h
  split at h
  · cases h; rfl
  · cases h

theorem Memory.write_keeps_wf {m m' : Memory} {c : Nat} {v : Byte} (hw : m.wf = true) (h : m.write c v = some m') :
    m'.wf = true := by
  unfold Memory.write at h
  split at h
  · next hc => cases h; exact putCell_wf _ _ _ _ _ hw (Nat.zero_le _) hc
  · cases h

/-- Equal contents are equal data. -/
theorem Memory.ext_of_read {m m' : Memory} (hw : m.wf = true) (hw' : m'.wf = true) (hs : m.size = m'.size)
    (h : ∀ c, m.read c = m'.read c) : m = m' := by
  obtain ⟨w, cs⟩ := m
  obtain ⟨w', ds⟩ := m'
  cases hs
  congr
  apply cells_ext w 0 cs ds hw hw'
  intro c _ hc
  have := h c
  simpa [Memory.read, hc] using this

/-! ### The memory primitives -/

theorem memRead_ok {s : State} {m : Memory} {c : Nat} (hf : s.fb = some m) (hc : c < m.size) :
    memRead c s = .ok (cellAt m.cells c) s := by
  simp [memRead, hf, Memory.read, hc]

theorem memWrite_ok {s : State} {m m' : Memory} {c : Nat} {v : Byte} (hf : s.fb = some m) (hm : m.write c v = some m') :
    memWrite c v s = .ok () { s with fb := some m' } := by
  simp [memWrite, hf, hm]

theorem buffer_ok {s : State} {m : Memory} (hf : s.fb = some m) : buffer s = .ok m s := by simp [buffer, hf]

theorem chipCount_ok {s : State} {n : Byte} (h : s.chips = some n) : chipCount s = .ok n.toNat s := by simp [chipCount, h]

theorem bufferWidth_ok {s : State} {n : Byte} (h : s.chips = some n) : bufferWidth s = .ok (8 * n.toNat) s := by
  rw [bufferWidth, Act.bind_ok (chipCount_ok h)]
  rfl

end Sys2Proof.Machine
end

