-- ==== Sys2Proof/Laws/Bus.lean ====
section
/-! SUPPORT. The laws of the bus operations: one transaction, `BROADCAST`, `WRITE_ONE`, `REFRESH` and the sequence of `SETUP`,
each said once in closed form. -/

namespace Sys2Proof.Machine

/-- The two events of a frame (R103). -/
abbrev frameEvents (f : Byte × Byte) : List BusEvent := [.byte f.1, .byte f.2]

theorem busBegin_ok {s : State} (h : s.txnOpen = false) :
    busBegin s = .ok () { s with txnOpen := true, busTrace := s.busTrace ++ [.txnBegin] } := by simp [busBegin, h]

theorem busWrite_ok {s : State} (b : Byte) (h : s.txnOpen = true) :
    busWrite b s = .ok () { s with busTrace := s.busTrace ++ [.byte b] } := by simp [busWrite, h]

theorem busEnd_ok {s : State} (h : s.txnOpen = true) :
    busEnd s = .ok () { s with txnOpen := false, busTrace := s.busTrace ++ [.txnEnd],
                               chain := latch s.chips (openBytes s.busTrace) s.chain } := by simp [busEnd, h]

theorem delay_ok {s : State} (n : Nat) (h : s.txnOpen = false) :
    delay n s = .ok () { s with busTrace := s.busTrace ++ [.delay n] } := by simp [delay, h]

theorem sendFrame_ok {s : State} (reg val : Byte) (h : s.txnOpen = true) :
    sendFrame reg val s = .ok () { s with busTrace := s.busTrace ++ frameEvents (reg, val) } := by
  refine Act.run_ok (busWrite_ok reg h) (Eq.trans (busWrite_ok val h) ?_)
  simp

/-- A loop each of whose bodies sends one frame, in a state with the same buffer, sends the frames in order. -/
theorem forEach_frames (fb : Option Memory) (fr : Nat → Byte × Byte) (body : Nat → Act Unit) (ks : List Nat) {s : State}
    (hbody : ∀ k ∈ ks, ∀ t : State, t.txnOpen = true → t.fb = fb →
      body k t = .ok () { t with busTrace := t.busTrace ++ frameEvents (fr k) })
    (hopen : s.txnOpen = true) (hfb : s.fb = fb) :
    forEach ks body s = .ok () { s with busTrace := s.busTrace ++ (ks.map fr).flatMap frameEvents } := by
  induction ks generalizing s with
  | nil => simp
  | cons k ks ih =>
    refine forEach_run (hbody k (by simp) s hopen hfb) (Eq.trans (ih (fun x hx => hbody x (by simp [hx])) hopen hfb) ?_)
    simp

/-- One transaction: it opens, sends one frame for each chip, closes and latches (R71, R200). -/
theorem transaction_ok {n : Byte} (fr : Nat → Byte × Byte) (body : Nat → Act Unit) (ks : List Nat) {s : State}
    (hbody : ∀ k ∈ ks, ∀ t : State, t.txnOpen = true → t.fb = s.fb →
      body k t = .ok () { t with busTrace := t.busTrace ++ frameEvents (fr k) })
    (hlen : ks.length = n.toNat) (hn : s.chips = some n) (hclosed : s.txnOpen = false) :
    (busBegin >>= fun _ => forEach ks body >>= fun _ => busEnd) s = .ok () (s.afterFrames (ks.map fr)) := by
  refine Act.run_ok (busBegin_ok hclosed) (Act.run_ok (forEach_frames s.fb fr body ks hbody rfl rfl)
    (Eq.trans (busEnd_ok rfl) ?_))
  have hb : openBytes (s.busTrace ++ [.txnBegin] ++ (ks.map fr).flatMap frameEvents)
      = (ks.map fr).flatMap fun f => [f.1, f.2] := by
    rw [List.append_assoc]
    exact openBytes_frames _ _
  simp only [hb, hn]
  rw [latch_frames (by simpa using hlen)]
  simp [State.afterFrames, txnEvents, hclosed, hn]

/-! ### What a transaction leaves -/

@[simp] theorem State.afterFrames_chips (s : State) (fs : List (Byte × Byte)) : (s.afterFrames fs).chips = s.chips := rfl
@[simp] theorem State.afterFrames_intensity (s : State) (fs : List (Byte × Byte)) : (s.afterFrames fs).intensity = s.intensity := rfl
@[simp] theorem State.afterFrames_writer (s : State) (fs : List (Byte × Byte)) : (s.afterFrames fs).writer = s.writer := rfl
@[simp] theorem State.afterFrames_phase (s : State) (fs : List (Byte × Byte)) : (s.afterFrames fs).phase = s.phase := rfl
@[simp] theorem State.afterFrames_fb (s : State) (fs : List (Byte × Byte)) : (s.afterFrames fs).fb = s.fb := rfl
@[simp] theorem State.afterFrames_txnOpen (s : State) (fs : List (Byte × Byte)) : (s.afterFrames fs).txnOpen = s.txnOpen := rfl
@[simp] theorem State.afterFrames_logTrace (s : State) (fs : List (Byte × Byte)) : (s.afterFrames fs).logTrace = s.logTrace := rfl
@[simp] theorem State.afterFrames_faulted (s : State) (fs : List (Byte × Byte)) : (s.afterFrames fs).faulted = s.faulted := rfl
@[simp] theorem State.afterFrames_refused (s : State) (fs : List (Byte × Byte)) : (s.afterFrames fs).refused = s.refused := rfl
@[simp] theorem State.afterFrames_faultLog (s : State) (fs : List (Byte × Byte)) : (s.afterFrames fs).faultLog = s.faultLog := rfl
@[simp] theorem State.afterFrames_refusalLog (s : State) (fs : List (Byte × Byte)) : (s.afterFrames fs).refusalLog = s.refusalLog := rfl
@[simp] theorem State.afterFrames_results (s : State) (fs : List (Byte × Byte)) : (s.afterFrames fs).results = s.results := rfl
@[simp] theorem State.afterFrames_inbox (s : State) (fs : List (Byte × Byte)) : (s.afterFrames fs).inbox = s.inbox := rfl
@[simp] theorem State.afterFrames_rxChip (s : State) (fs : List (Byte × Byte)) : (s.afterFrames fs).rxChip = s.rxChip := rfl
@[simp] theorem State.afterFrames_par (s : State) (fs : List (Byte × Byte)) : (s.afterFrames fs).par = s.par := rfl
@[simp] theorem State.afterFrames_busTrace (s : State) (fs : List (Byte × Byte)) :
    (s.afterFrames fs).busTrace = s.busTrace ++ txnEvents fs := rfl
@[simp] theorem State.afterFrames_chain (s : State) (fs : List (Byte × Byte)) :
    (s.afterFrames fs).chain = applyFrames fs s.chain := rfl

@[simp] theorem State.afterRefresh_chips (s : State) (n : Nat) (m : Memory) : (s.afterRefresh n m).chips = s.chips := rfl
@[simp] theorem State.afterRefresh_intensity (s : State) (n : Nat) (m : Memory) : (s.afterRefresh n m).intensity = s.intensity := rfl
@[simp] theorem State.afterRefresh_writer (s : State) (n : Nat) (m : Memory) : (s.afterRefresh n m).writer = s.writer := rfl
@[simp] theorem State.afterRefresh_phase (s : State) (n : Nat) (m : Memory) : (s.afterRefresh n m).phase = s.phase := rfl
@[simp] theorem State.afterRefresh_fb (s : State) (n : Nat) (m : Memory) : (s.afterRefresh n m).fb = s.fb := rfl
@[simp] theorem State.afterRefresh_txnOpen (s : State) (n : Nat) (m : Memory) : (s.afterRefresh n m).txnOpen = s.txnOpen := rfl
@[simp] theorem State.afterRefresh_logTrace (s : State) (n : Nat) (m : Memory) : (s.afterRefresh n m).logTrace = s.logTrace := rfl
@[simp] theorem State.afterRefresh_faulted (s : State) (n : Nat) (m : Memory) : (s.afterRefresh n m).faulted = s.faulted := rfl
@[simp] theorem State.afterRefresh_refused (s : State) (n : Nat) (m : Memory) : (s.afterRefresh n m).refused = s.refused := rfl
@[simp] theorem State.afterRefresh_faultLog (s : State) (n : Nat) (m : Memory) : (s.afterRefresh n m).faultLog = s.faultLog := rfl
@[simp] theorem State.afterRefresh_refusalLog (s : State) (n : Nat) (m : Memory) : (s.afterRefresh n m).refusalLog = s.refusalLog := rfl
@[simp] theorem State.afterRefresh_results (s : State) (n : Nat) (m : Memory) : (s.afterRefresh n m).results = s.results := rfl
@[simp] theorem State.afterRefresh_inbox (s : State) (n : Nat) (m : Memory) : (s.afterRefresh n m).inbox = s.inbox := rfl
@[simp] theorem State.afterRefresh_rxChip (s : State) (n : Nat) (m : Memory) : (s.afterRefresh n m).rxChip = s.rxChip := rfl
@[simp] theorem State.afterRefresh_par (s : State) (n : Nat) (m : Memory) : (s.afterRefresh n m).par = s.par := rfl
@[simp] theorem State.afterRefresh_busTrace (s : State) (n : Nat) (m : Memory) :
    (s.afterRefresh n m).busTrace = s.busTrace ++ refreshEvents n m := rfl
@[simp] theorem State.afterRefresh_chain (s : State) (n : Nat) (m : Memory) :
    (s.afterRefresh n m).chain = refreshedChain n m s.chain := rfl

/-! ### BROADCAST and WRITE_ONE -/

/-- `BROADCAST` (R104). -/
theorem broadcast_ok {s : State} {n : Byte} (reg val : Byte) (hn : s.chips = some n) (hclosed : s.txnOpen = false) :
    broadcast reg val s = .ok () (s.afterFrames (List.replicate n.toNat (reg, val))) := by
  rw [broadcast, Act.bind_ok (chipCount_ok hn),
    transaction_ok (fun _ => (reg, val)) _ _ (fun k _ t ht _ => sendFrame_ok reg val ht) (by simp) hn hclosed]
  simp

/-- `WRITE_ONE` (R105). -/
theorem writeOne_ok {s : State} {n : Byte} {k : Nat} (reg val : Byte) (hn : s.chips = some n) (hclosed : s.txnOpen = false)
    (hk : k < n.toNat) :
    writeOne k reg val s
      = .ok () (s.afterFrames ((List.range n.toNat).map fun j => if j = k then (reg, val) else (0x00#8, 0x00#8))) := by
  have hpos : checkPosition k n.toNat s = .ok () s := by simp [checkPosition, hk]
  rw [writeOne, Act.bind_ok (chipCount_ok hn), Act.bind_ok hpos,
    transaction_ok (fun j => if j = k then (reg, val) else (0x00#8, 0x00#8)) _ _ ?_ (by simp) hn hclosed]
  intro j _ t ht _
  by_cases h : j = k
  · simpa [sendOneOrDummy, h] using sendFrame_ok reg val ht
  · simpa [sendOneOrDummy, h] using sendFrame_ok 0x00#8 0x00#8 ht

/-! ### REFRESH -/

/-- One pass of a refresh (R132). -/
theorem refreshPass_ok {s : State} {n : Byte} {m : Memory} {i : Nat} (hn : s.chips = some n) (hf : s.fb = some m)
    (hsize : m.size = 8 * n.toNat) (hclosed : s.txnOpen = false) (hi : i < 8) :
    refreshPass n.toNat i s = .ok () (s.afterFrames (passFrames n.toNat m i)) := by
  rw [refreshPass, transaction_ok (fun j => (BitVec.ofNat 8 (8 - i), (m.read (8 * j + i)).getD blankByte)) _ _ ?_ (by simp) hn
    hclosed]
  · rfl
  · intro j hj t ht htf
    have hlt : 8 * j + i < m.size := by
      have : j < n.toNat := by simpa using hj
      omega
    rw [sendColumn]
    simp only [Param.colsPerChip, Param.regRow]
    rw [Act.bind_ok (memRead_ok (htf.trans hf) hlt), sendFrame_ok _ _ ht]
    simp [Memory.read, hlt]

theorem forEach_passes {n : Byte} {m : Memory} (is : List Nat) (his : ∀ i ∈ is, i < 8) {s : State} (hn : s.chips = some n)
    (hf : s.fb = some m) (hsize : m.size = 8 * n.toNat) (hclosed : s.txnOpen = false) :
    forEach is (refreshPass n.toNat) s
      = .ok () { s with busTrace := s.busTrace ++ is.flatMap (fun i => txnEvents (passFrames n.toNat m i)),
                        chain := is.foldl (fun c i => applyFrames (passFrames n.toNat m i) c) s.chain } := by
  induction is generalizing s with
  | nil => simp
  | cons i is ih =>
    refine forEach_run (refreshPass_ok hn hf hsize hclosed (his i (by simp)))
      (Eq.trans (ih (fun x hx => his x (by simp [hx])) hn hf hclosed) ?_)
    simp [State.afterFrames]

/-- `REFRESH` (R132, R133): from a state with a chip count, a buffer of that width and no open transaction. -/
theorem refresh_ok {s : State} {n : Byte} {m : Memory} (hn : s.chips = some n) (hf : s.fb = some m)
    (hsize : m.size = 8 * n.toNat) (hclosed : s.txnOpen = false) :
    refresh s = .ok () (s.afterRefresh n.toNat m) := by
  rw [refresh, Act.bind_ok (chipCount_ok hn)]
  exact forEach_passes _ (by simp) hn hf hsize hclosed

/-- `CLEAR` (R131). -/
theorem clear_ok {s : State} {n : Byte} {m : Memory} (hn : s.chips = some n) (hf : s.fb = some m) :
    clear s = .ok () { s with fb := some (Memory.zeros m.size) } := by
  rw [clear, Act.bind_ok (bufferWidth_ok hn), Act.bind_ok (buffer_ok hf)]
  rfl

/-! ### The sequence of SETUP -/

/-- The chain after `SETUP`'s sequence (R110). -/
def setupChain (n : Nat) (v : Byte) (chain : List ChipImage) : List ChipImage :=
  applyFrames (List.replicate n (0x0C#8, 0x01#8))
    (refreshedChain n (Memory.zeros (8 * n))
      (applyFrames (List.replicate n (0x0A#8, v))
        (applyFrames (List.replicate n (0x09#8, 0x00#8))
          (applyFrames (List.replicate n (0x0B#8, 0x07#8))
            (applyFrames (List.replicate n (0x0F#8, 0x00#8))
              (applyFrames (List.replicate n (0x0C#8, 0x00#8)) chain))))))

/-- The initialization sequence (R110, R111). -/
theorem setupSequence_ok {s : State} {n : Byte} (v : Byte) (hn : s.chips = some n) (hclosed : s.txnOpen = false) :
    setupSequence v s
      = .ok () { s with fb := some (Memory.zeros (8 * n.toNat)), phase := .running,
                        busTrace := s.busTrace ++ setupEvents n.toNat v, chain := setupChain n.toNat v s.chain } := by
  have hbuf : setBuffer (Memory.zeros (8 * n.toNat)) s = .ok () { s with fb := some (Memory.zeros (8 * n.toNat)) } := rfl
  refine Act.run_ok (bufferWidth_ok hn) (Act.run_ok hbuf ?_)
  refine Act.run_ok (broadcast_ok _ _ hn hclosed) (Act.run_ok (broadcast_ok _ _ hn hclosed) ?_)
  refine Act.run_ok (broadcast_ok _ _ hn hclosed) (Act.run_ok (broadcast_ok _ _ hn hclosed) ?_)
  refine Act.run_ok (broadcast_ok _ _ hn hclosed) (Act.run_ok (delay_ok _ hclosed) ?_)
  refine Act.run_ok (refresh_ok hn rfl rfl hclosed) (Act.run_ok (broadcast_ok _ _ hn hclosed) ?_)
  simp [setPhase, setupEvents, broadcastEvents, setupChain, State.afterFrames, State.afterRefresh]

end Sys2Proof.Machine
end

