-- ==== Sys2Proof/Laws/Text.lean ====
section
/-! SUPPORT. The law of the renderer: `RENDER` leaves exactly what the layout of its string says (R150–R153, R161). -/

namespace Sys2Proof.Machine

/-! ### Layouts -/

/-- Later characters only ever mark the latest column or add columns after it. -/
theorem foldl_layout_cons (str : List Byte) (d : Drawn) (ds : List Drawn) :
    ∃ dot ext, (str.foldl layoutStep (d :: ds)).reverse = ds.reverse ++ { d with dotted := dot } :: ext := by
  induction str generalizing d ds with
  | nil => exact ⟨d.dotted, [], by simp⟩
  | cons ch rest ih =>
    by_cases h : ch = 0x2E#8
    · obtain ⟨dot, ext, he⟩ := ih { d with dotted := true } ds
      exact ⟨dot, ext, by simpa [layoutStep, h] using he⟩
    · obtain ⟨dot, ext, he⟩ := ih { char := some ch, dotted := false } (d :: ds)
      exact ⟨d.dotted, { char := some ch, dotted := dot } :: ext, by simpa [layoutStep, h] using he⟩

theorem layoutStep_dot_nil : layoutStep [] 0x2E#8 = [{ char := none, dotted := true }] := rfl

theorem layoutStep_dot_cons (d : Drawn) (ds : List Drawn) :
    layoutStep (d :: ds) 0x2E#8 = { d with dotted := true } :: ds := rfl

theorem layoutStep_char {ch : Byte} (h : ch ≠ 0x2E#8) (ds : List Drawn) :
    layoutStep ds ch = { char := some ch, dotted := false } :: ds := by simp [layoutStep, h]

theorem warnings_single (cur : Nat) (d : Drawn) : warnings cur [d] = d.warning cur := by simp [warnings]

/-- The columns of a string: the first is the leading dot's if there is one, every later one holds a character. -/
theorem layout_head (ch : Byte) (rest : List Byte) :
    ∃ dot ext, layout (ch :: rest) = { char := if ch = 0x2E#8 then none else some ch, dotted := dot } :: ext ∧
      ∀ e ∈ ext, e.char.isSome = true := by
  have hext : ∀ (str : List Byte) (d : Drawn) (ds : List Drawn), ∃ dot ext,
      (str.foldl layoutStep (d :: ds)).reverse = ds.reverse ++ { d with dotted := dot } :: ext ∧
        ∀ e ∈ ext, e.char.isSome = true := by
    intro str
    induction str with
    | nil => exact fun d ds => ⟨d.dotted, [], by simp⟩
    | cons ch rest ih =>
      intro d ds
      by_cases h : ch = 0x2E#8
      · obtain ⟨dot, ext, he, hx⟩ := ih { d with dotted := true } ds
        exact ⟨dot, ext, by simpa [layoutStep, h] using he, hx⟩
      · obtain ⟨dot, ext, he, hx⟩ := ih { char := some ch, dotted := false } (d :: ds)
        exact ⟨d.dotted, { char := some ch, dotted := dot } :: ext, by simpa [layoutStep, h] using he, by simpa using hx⟩
  by_cases h : ch = 0x2E#8
  · subst h
    obtain ⟨dot, ext, he, hx⟩ := hext rest { char := none, dotted := true } []
    exact ⟨dot, ext, by simpa [layout, layoutStep_dot_nil] using he, hx⟩
  · obtain ⟨dot, ext, he, hx⟩ := hext rest { char := some ch, dotted := false } []
    exact ⟨dot, ext, by simpa [layout, layoutStep_char h, h] using he, hx⟩

/-- A string without dots has a column for each character. -/
theorem layout_of_no_dots (str : List Byte) (h : ∀ ch ∈ str, ch ≠ 0x2E#8) :
    layout str = str.map fun ch => { char := some ch, dotted := false } := by
  have key : ∀ (str : List Byte) (acc : List Drawn), (∀ ch ∈ str, ch ≠ 0x2E#8) →
      (str.foldl layoutStep acc).reverse = acc.reverse ++ str.map fun ch => { char := some ch, dotted := false } := by
    intro str
    induction str with
    | nil => intro acc _; simp
    | cons ch rest ih =>
      intro acc h
      rw [List.foldl_cons, layoutStep_char (h ch (by simp)), ih _ (fun x hx => h x (by simp [hx]))]
      simp
  exact (key str [] h).trans (by simp)

/-- A dot after a string marks its last column. -/
theorem layout_snoc_dot (str : List Byte) (h : str ≠ []) :
    ∃ ds d, layout str = ds ++ [d] ∧ layout (str ++ [0x2E#8]) = ds ++ [{ d with dotted := true }] := by
  have hne : str.foldl layoutStep [] ≠ [] := by
    cases str with
    | nil => exact absurd rfl h
    | cons ch rest =>
      intro e
      obtain ⟨dot, ext, he, _⟩ := layout_head ch rest
      simp [layout, e] at he
  obtain ⟨d, ds, hd⟩ := List.exists_cons_of_ne_nil hne
  exact ⟨ds.reverse, d, by simp [layout, hd], by simp [layout, hd, layoutStep_dot_cons]⟩

theorem warnings_append (a b : List Drawn) (cur : Nat) :
    warnings cur (a ++ b) = warnings cur a ++ warnings (cur + a.length) b := by
  induction a generalizing cur with
  | nil => simp [warnings]
  | cons d a ih => simp [warnings, ih]; congr 1; omega

/-- Every warning is an unknown glyph (R232). -/
theorem warnings_code (ds : List Drawn) (cur : Nat) : ∀ e ∈ warnings cur ds, e.code = 1 := by
  induction ds generalizing cur with
  | nil => intro e he; cases he
  | cons d ds ih =>
    intro e he
    simp only [warnings, List.mem_append] at he
    rcases he with he | he
    · unfold Drawn.warning at he
      split at he
      · cases he
      · split at he
        · cases he
        · simp only [List.mem_singleton] at he
          subst he
          rfl
    · exact ih _ e he

/-! ### One character -/

theorem representable_iff (ch : Byte) : representable ch = true ↔ 0x20 ≤ ch.toNat ∧ ch.toNat ≤ 0x7D := by
  simp only [representable, Bool.and_eq_true, decide_eq_true_eq]
  show (0x20 ≤ ch.toNat ∧ ch.toNat < 0x20 + 94) ↔ _
  omega

/-- The pattern of a character and its warning (R151). -/
theorem patternFor_ok {s : State} (ch : Byte) (cur : Nat) (dot : Bool) (hrom : s.par.glyphs.length = 94) :
    patternFor ch cur s
      = .ok (patternOf s.par ch) { s with logTrace := s.logTrace ++ Drawn.warning cur { char := some ch, dotted := dot } } := by
  by_cases h : representable ch = true
  · have h' := (representable_iff ch).mp h
    have hlt : ch.toNat - 0x20 < s.par.glyphs.length := by omega
    simp [patternFor, h, glyphRead, patternOf, Drawn.warning, h', List.getElem?_eq_getElem hlt]
  · have h' : ¬(0x20 ≤ ch.toNat ∧ ch.toNat ≤ 0x7D) := fun c => h ((representable_iff ch).mpr c)
    have hf : representable ch = false := by simpa using h
    simp [patternFor, hf, unknownPattern, patternOf, Drawn.warning, h']

/-- The decimal-point bit of a column (R152). -/
theorem setDot_ok {s : State} {m : Memory} {c : Nat} {b : Byte} (hf : s.fb = some m) (hw : m.wf = true)
    (hr : m.read c = some b) :
    ∃ m', setDot c s = .ok () { s with fb := some m' } ∧ m'.size = m.size ∧ m'.wf = true ∧
      m'.read c = some (b ||| 0x80#8) ∧ ∀ d, d ≠ c → m'.read d = m.read d := by
  have hc : c < m.size := by
    by_contra h
    rw [Memory.read_of_le (by omega)] at hr
    cases hr
  obtain ⟨m', h1, h2, h3, h4, h5⟩ := Memory.write_spec (b ||| 0x80#8) hw hc
  rw [Memory.read_of_lt hc] at hr
  cases hr
  exact ⟨m', Act.run_ok (memRead_ok hf hc) (memWrite_ok hf h1), h2, h3, h4, h5⟩

/-! ### The whole string -/

theorem drawnColumn_nil (par : Params) (start c : Nat) (old : Option Byte) : drawnColumn par start [] c old = old := by
  simp [drawnColumn]

/-- Drawing the latest column again, or one more, changes that column's address only. -/
theorem drawnColumn_append (par : Params) (start : Nat) (ds : List Drawn) (d : Drawn) (c : Nat) (old : Option Byte) :
    drawnColumn par start (ds ++ [d]) c old
      = if c = start + ds.length then old.map fun b => d.byte par b else drawnColumn par start ds c old := by
  unfold drawnColumn
  by_cases h : start ≤ c
  · by_cases he : c = start + ds.length
    · subst he
      simp
    · simp only [h, if_true, he, if_false]
      by_cases hl : c - start < ds.length
      · simp [List.getElem?_append_left hl]
      · rw [List.getElem?_eq_none (by simp; omega), List.getElem?_eq_none (by omega)]
  · have : c ≠ start + ds.length := by omega
    simp [h, this]

theorem Drawn.byte_dotted (par : Params) (old : Byte) (d : Drawn) :
    d.byte par old ||| 0x80#8 = Drawn.byte par old { d with dotted := true } := by
  cases hd : d.dotted <;> simp [Drawn.byte, hd, BitVec.or_assoc]

/-- `RENDER`'s loop, part of the string done: `acc` are the columns drawn so far, latest first. -/
theorem renderFrom_spec (w start : Nat) (m₀ : Memory) (str : List Byte) (acc : List Drawn) {s : State} {m : Memory}
    (hf : s.fb = some m) (hsize : m.size = w) (h₀ : m₀.size = w) (hwf : m.wf = true) (hrom : s.par.glyphs.length = 94)
    (hroom : acc.length ≤ w - start)
    (hcol : ∀ c, m.read c = drawnColumn s.par start acc.reverse c (m₀.read c)) :
    ∃ m', renderFrom w start (start + acc.length) str s
        = .ok (min (str.foldl layoutStep acc).reverse.length (w - start))
            { s with fb := some m',
                     logTrace := s.logTrace
                       ++ (warnings (start + acc.length) (((str.foldl layoutStep acc).reverse.take (w - start + 1)).drop acc.length)
                       ++ if w - start < (str.foldl layoutStep acc).reverse.length then [.overflow (start + (w - start))] else []) } ∧
      m'.size = w ∧ m'.wf = true ∧
      ∀ c, m'.read c = drawnColumn s.par start ((str.foldl layoutStep acc).reverse.take (w - start)) c (m₀.read c) := by
  induction str generalizing acc s m with
  | nil =>
    refine ⟨m, ?_, hsize, hwf, ?_⟩
    · have h1 : ¬(w - start < acc.length) := by omega
      have h2 : (acc.reverse.take (w - start + 1)).drop acc.length = [] := List.drop_of_length_le (by simp)
      simp only [List.foldl_nil, h2, warnings]
      simp [renderFrom, h1, ← hf, hroom]
    · intro c
      rw [hcol c, List.foldl_nil, List.take_of_length_le (by simpa using hroom)]
  | cons ch rest ih =>
    by_cases hdot : ch = 0x2E#8
    · subst hdot
      cases acc with
      | nil =>
        by_cases hover : w ≤ start
        · have hroom0 : w - start = 0 := by omega
          obtain ⟨dot, ext, he⟩ := foldl_layout_cons rest { char := none, dotted := true } []
          refine ⟨m, ?_, hsize, hwf, ?_⟩
          · simp only [List.foldl_cons, layoutStep_dot_nil, he, hroom0]
            simp [renderFrom, hover, overflowAt, log, warnings, Drawn.warning, bind, EStateM.bind, pure, EStateM.pure, hf]
          · intro c
            simpa [hroom0, drawnColumn_nil] using hcol c
        · have hlt : start < m.size := by omega
          obtain ⟨b, hb⟩ : ∃ b, m.read start = some b := ⟨_, Memory.read_of_lt hlt⟩
          obtain ⟨m', h1, h2, h3, h4, h5⟩ := setDot_ok hf hwf hb
          have hb₀ : m₀.read start = some b := by simpa [drawnColumn_nil, hb] using (hcol start).symm
          obtain ⟨m'', g1, g2, g3, g4⟩ := ih [{ char := none, dotted := true }] (s := { s with fb := some m' }) rfl (h2.trans hsize)
            h3 hrom (by simp; omega) (by
              intro c
              have := drawnColumn_append s.par start [] { char := none, dotted := true } c (m₀.read c)
              simp only [List.nil_append, List.length_nil, Nat.add_zero] at this
              simp only [List.reverse_singleton]
              rw [this]
              by_cases hc : c = start
              · subst hc
                simp [h4, hb₀, Drawn.byte]
              · rw [if_neg hc, drawnColumn_nil, h5 c hc, hcol c, List.reverse_nil, drawnColumn_nil])
          refine ⟨m'', ?_, g2, g3, g4⟩
          obtain ⟨dot, ext, he⟩ := foldl_layout_cons rest { char := none, dotted := true } []
          have hshow : renderFrom w start (start + ([] : List Drawn).length) (0x2E#8 :: rest) s
              = (setDot start >>= fun _ => renderFrom w start (start + 1) rest) s := by
            simp [renderFrom, show ¬w ≤ start by omega]
          rw [hshow]
          refine Act.run_ok h1 (Eq.trans g1 ?_)
          have htake : w - start + 1 = (w - start - 1) + 1 + 1 := by omega
          simp only [List.foldl_cons, layoutStep_dot_nil, he]
          simp [warnings, Drawn.warning]
      | cons d ds =>
        have hcur : start + (d :: ds).length - 1 = start + ds.length := by simp
        have hlen : ds.length < w - start := by simpa using hroom
        have hlt : start + ds.length < m.size := by omega
        obtain ⟨b, hb⟩ : ∃ b, m.read (start + ds.length) = some b := ⟨_, Memory.read_of_lt hlt⟩
        obtain ⟨m', h1, h2, h3, h4, h5⟩ := setDot_ok hf hwf hb
        obtain ⟨m'', g1, g2, g3, g4⟩ := ih ({ d with dotted := true } :: ds) (s := { s with fb := some m' }) rfl (h2.trans hsize)
          h3 hrom (by simpa using hroom) (by
            intro c
            have hold := hcol c
            simp only [List.reverse_cons] at hold ⊢
            rw [drawnColumn_append] at hold ⊢
            by_cases hc : c = start + ds.length
            · subst hc
              simp only [List.length_reverse, if_true] at hold ⊢
              rw [h4]
              rw [hb] at hold
              cases hm : m₀.read (start + ds.length) with
              | none => rw [hm] at hold; cases hold
              | some old =>
                rw [hm] at hold
                simp only [Option.map_some, Option.some.injEq] at hold ⊢
                rw [hold, Drawn.byte_dotted]
            · simp only [List.length_reverse, hc, if_false] at hold ⊢
              rw [h5 c hc, hold])
        refine ⟨m'', ?_, g2, g3, g4⟩
        have hshow : renderFrom w start (start + (d :: ds).length) (0x2E#8 :: rest) s
            = (setDot (start + ds.length) >>= fun _ => renderFrom w start (start + (d :: ds).length) rest) s := by
          simp [renderFrom]
        rw [hshow]
        exact Act.run_ok h1 g1
    · have hpat := patternFor_ok (s := s) ch (start + acc.length) false hrom
      obtain ⟨dot, ext, he⟩ := foldl_layout_cons rest { char := some ch, dotted := false } acc
      have hfold : (ch :: rest).foldl layoutStep acc = rest.foldl layoutStep ({ char := some ch, dotted := false } :: acc) := by
        rw [List.foldl_cons, layoutStep_char hdot]
      have hwarn : ∀ dt, Drawn.warning (start + acc.length) { char := some ch, dotted := dt }
          = Drawn.warning (start + acc.length) { char := some ch, dotted := false } := fun _ => rfl
      have hshow : renderFrom w start (start + acc.length) (ch :: rest) s
          = (patternFor ch (start + acc.length) >>= fun pat =>
              if w ≤ start + acc.length then overflowAt start (start + acc.length)
              else memWrite (start + acc.length) pat >>= fun _ => renderFrom w start (start + acc.length + 1) rest) s := by
        simp [renderFrom, hdot]
      rw [hshow, hfold]
      by_cases hover : w ≤ start + acc.length
      · have hr : w - start = acc.length := by omega
        refine ⟨m, ?_, hsize, hwf, ?_⟩
        · refine Act.run_ok hpat ?_
          rw [if_pos hover, he, hr]
          have htake : (acc.reverse ++ { char := some ch, dotted := dot } :: ext).take (acc.length + 1)
              = acc.reverse ++ [{ char := some ch, dotted := dot }] := by
            rw [List.take_append, List.take_of_length_le (by simp)]
            simp
          rw [htake, List.drop_append, List.drop_of_length_le (by simp)]
          simp [overflowAt, log, warnings, hwarn, bind, EStateM.bind, pure, EStateM.pure, hf]
        · intro c
          rw [hcol c, he, hr, List.take_append, List.take_of_length_le (by simp)]
          simp
      · have hlt : start + acc.length < m.size := by omega
        obtain ⟨m', h1, h2, h3, h4, h5⟩ := Memory.write_spec (patternOf s.par ch) hwf hlt
        obtain ⟨m'', g1, g2, g3, g4⟩ := ih ({ char := some ch, dotted := false } :: acc)
          (s := { s with fb := some m',
                         logTrace := s.logTrace ++ Drawn.warning (start + acc.length) { char := some ch, dotted := false } })
          rfl (h2.trans hsize) h3 hrom (by simp; omega) (by
            intro c
            simp only [List.reverse_cons]
            rw [drawnColumn_append]
            by_cases hc : c = start + acc.length
            · subst hc
              obtain ⟨b, hb⟩ : ∃ b, m₀.read (start + acc.length) = some b := ⟨_, Memory.read_of_lt (by omega)⟩
              simp [h4, hb, Drawn.byte]
            · simp only [List.length_reverse, hc, if_false]
              rw [h5 c hc, hcol c])
        refine ⟨m'', ?_, g2, g3, g4⟩
        refine Act.run_ok hpat ?_
        rw [if_neg hover]
        refine Act.run_ok (memWrite_ok (s := { s with logTrace := _ }) hf h1) (Eq.trans g1 ?_)
        have hdrop : ((acc.reverse ++ { char := some ch, dotted := dot } :: ext).take (w - start + 1)).drop acc.length
            = { char := some ch, dotted := dot }
                :: ((acc.reverse ++ { char := some ch, dotted := dot } :: ext).take (w - start + 1)).drop (acc.length + 1) := by
          have hn : w - start + 1 = acc.reverse.length + ((w - start - acc.length) + 1) := by simp; omega
          rw [hn, List.take_length_add_append]
          simp [List.drop_append]
        rw [he, hdrop]
        simp [warnings, hwarn, Nat.add_assoc]

/-- `RENDER` (R150): the count, the log and the buffer are those of the layout, and nothing else changes. -/
theorem render_spec {s : State} {n : Byte} {m : Memory} (start : Nat) (str : List Byte) (hn : s.chips = some n)
    (hf : s.fb = some m) (hsize : m.size = 8 * n.toNat) (hwf : m.wf = true) (hrom : s.par.glyphs.length = 94) :
    ∃ m', render start str s
        = .ok (renderCount (8 * n.toNat) start str)
            { s with fb := some m', logTrace := s.logTrace ++ renderLog (8 * n.toNat) start str } ∧
      m'.size = m.size ∧ m'.wf = true ∧
      ∀ c, m'.read c = drawnColumn s.par start ((layout str).take (8 * n.toNat - start)) c (m.read c) := by
  obtain ⟨m', h1, h2, h3, h4⟩ := renderFrom_spec (8 * n.toNat) start m str [] hf hsize hsize hwf hrom (by simp)
    (fun c => by simp [drawnColumn_nil])
  exact ⟨m', Act.run_ok (bufferWidth_ok hn) (by simpa [renderCount, renderLog, layout] using h1), h2.trans hsize.symm, h3,
    by simpa [layout] using h4⟩

/-- A print on a state with a buffer (R155): the render's effect and the count returned. -/
theorem renderAndReply_spec {s : State} {n : Byte} {m : Memory} (start : Nat) (str : List Byte) (hn : s.chips = some n)
    (hf : s.fb = some m) (hsize : m.size = 8 * n.toNat) (hwf : m.wf = true) (hrom : s.par.glyphs.length = 94) :
    ∃ m', renderAndReply start str s
        = .ok () { s with fb := some m', logTrace := s.logTrace ++ renderLog (8 * n.toNat) start str,
                          results := s.results ++ [renderCount (8 * n.toNat) start str] } ∧
      m'.size = m.size ∧ m'.wf = true ∧
      ∀ c, m'.read c = drawnColumn s.par start ((layout str).take (8 * n.toNat - start)) c (m.read c) := by
  obtain ⟨m', h1, h2, h3, h4⟩ := render_spec start str hn hf hsize hwf hrom
  exact ⟨m', Act.run_ok h1 rfl, h2, h3, h4⟩

end Sys2Proof.Machine
end

