-- ==== Sys2Proof/Laws/Keeps.lean ====
section
/-! SUPPORT. What every operation leaves, in every state and whether it ends or raises: the traces, the log and the results
only grow, and the settings, the marks, the inbox and the parameters stay (`Extends`). -/

namespace Sys2Proof.Machine

/-- However the operation ends, its state is related to the one it began in. -/
def Keeps {α : Type} (R : State → State → Prop) (x : Act α) : Prop :=
  ∀ s, (∀ a t, x s = .ok a t → R s t) ∧ ∀ f t, x s = .error f t → R s t

theorem Keeps.ok {α : Type} {R : State → State → Prop} {x : Act α} (h : Keeps R x) {s t : State} {a : α}
    (e : x s = .ok a t) : R s t := (h s).1 a t e

theorem Keeps.error {α : Type} {R : State → State → Prop} {x : Act α} (h : Keeps R x) {s t : State} {f : Fault}
    (e : x s = .error f t) : R s t := (h s).2 f t e

theorem Keeps.bind {α β : Type} {R : State → State → Prop} (htrans : ∀ s t u, R s t → R t u → R s u) {x : Act α}
    {f : α → Act β} (hx : Keeps R x) (hf : ∀ a, Keeps R (f a)) : Keeps R (x >>= f) := by
  intro s
  cases hxs : x s with
  | ok a t =>
    rw [Act.bind_ok hxs]
    exact ⟨fun b u e => htrans _ _ _ (hx.ok hxs) ((hf a).ok e), fun g u e => htrans _ _ _ (hx.ok hxs) ((hf a).error e)⟩
  | error g t =>
    rw [Act.bind_error hxs]
    refine ⟨fun b u e => ?_, fun g' u e => ?_⟩
    · cases e
    · cases e
      exact hx.error hxs

theorem Keeps.forEach {R : State → State → Prop} (hrefl : ∀ s, R s s) (htrans : ∀ s t u, R s t → R t u → R s u)
    {body : Nat → Act Unit} (ks : List Nat) (h : ∀ k, Keeps R (body k)) : Keeps R (forEach ks body) := by
  induction ks with
  | nil =>
    intro s
    refine ⟨fun a t e => ?_, fun f t e => ?_⟩
    · cases e
      exact hrefl s
    · cases e
  | cons k ks ih => exact Keeps.bind htrans (h k) fun _ => ih

/-- An operation that answers `ok` on its own state or on one it relates. -/
theorem Keeps.pure {α : Type} {R : State → State → Prop} (hrefl : ∀ s, R s s) (a : α) : Keeps R (pure a : Act α) := by
  intro s
  refine ⟨fun b t e => ?_, fun f t e => ?_⟩
  · cases e
    exact hrefl s
  · cases e

/-! ### The primitives -/

theorem busBegin_extends : Keeps Extends busBegin := by
  intro s
  cases h : s.txnOpen <;> simp only [busBegin, h] <;> refine ⟨fun a t e => ?_, fun f t e => ?_⟩ <;> cases e
  · exact ⟨⟨_, rfl⟩, ⟨[], by simp⟩, ⟨[], by simp⟩, rfl, rfl, rfl, rfl, rfl, rfl, rfl, rfl, rfl, rfl⟩
  · exact Extends.refl s

theorem busWrite_extends (b : Byte) : Keeps Extends (busWrite b) := by
  intro s
  cases h : s.txnOpen <;> simp only [busWrite, h] <;> refine ⟨fun a t e => ?_, fun f t e => ?_⟩ <;> cases e
  · exact Extends.refl s
  · exact ⟨⟨_, rfl⟩, ⟨[], by simp⟩, ⟨[], by simp⟩, rfl, rfl, rfl, rfl, rfl, rfl, rfl, rfl, rfl, rfl⟩

theorem busEnd_extends : Keeps Extends busEnd := by
  intro s
  cases h : s.txnOpen <;> simp only [busEnd, h] <;> refine ⟨fun a t e => ?_, fun f t e => ?_⟩ <;> cases e
  · exact Extends.refl s
  · exact ⟨⟨_, rfl⟩, ⟨[], by simp⟩, ⟨[], by simp⟩, rfl, rfl, rfl, rfl, rfl, rfl, rfl, rfl, rfl, rfl⟩

theorem delay_extends (n : Nat) : Keeps Extends (delay n) := by
  intro s
  cases h : s.txnOpen <;> simp only [delay, h] <;> refine ⟨fun a t e => ?_, fun f t e => ?_⟩ <;> cases e
  · exact ⟨⟨_, rfl⟩, ⟨[], by simp⟩, ⟨[], by simp⟩, rfl, rfl, rfl, rfl, rfl, rfl, rfl, rfl, rfl, rfl⟩
  · exact Extends.refl s

theorem memRead_extends (c : Nat) : Keeps Extends (memRead c) := by
  intro s
  simp only [memRead]
  refine ⟨fun a t e => ?_, fun f t e => ?_⟩ <;> (repeat' split at e) <;> cases e <;> exact Extends.refl s

theorem memWrite_extends (c : Nat) (v : Byte) : Keeps Extends (memWrite c v) := by
  intro s
  simp only [memWrite]
  refine ⟨fun a t e => ?_, fun f t e => ?_⟩ <;> (repeat' split at e) <;> cases e
  · exact ⟨⟨[], by simp⟩, ⟨[], by simp⟩, ⟨[], by simp⟩, rfl, rfl, rfl, rfl, rfl, rfl, rfl, rfl, rfl, rfl⟩
  · exact Extends.refl s
  · exact Extends.refl s

theorem glyphRead_extends (k : Nat) : Keeps Extends (glyphRead k) := by
  intro s
  simp only [glyphRead]
  refine ⟨fun a t e => ?_, fun f t e => ?_⟩ <;> (repeat' split at e) <;> cases e <;> exact Extends.refl s

theorem buffer_extends : Keeps Extends buffer := by
  intro s
  simp only [buffer]
  refine ⟨fun a t e => ?_, fun f t e => ?_⟩ <;> (repeat' split at e) <;> cases e <;> exact Extends.refl s

theorem chipCount_extends : Keeps Extends chipCount := by
  intro s
  simp only [chipCount]
  refine ⟨fun a t e => ?_, fun f t e => ?_⟩ <;> (repeat' split at e) <;> cases e <;> exact Extends.refl s

theorem chipReceives_extends (reg val : Byte) : Keeps Extends (chipReceives reg val) := by
  intro s
  simp only [chipReceives]
  refine ⟨fun a t e => ?_, fun f t e => ?_⟩ <;> (repeat' split at e) <;> cases e
  · exact ⟨⟨[], by simp⟩, ⟨[], by simp⟩, ⟨[], by simp⟩, rfl, rfl, rfl, rfl, rfl, rfl, rfl, rfl, rfl, rfl⟩
  · exact Extends.refl s

theorem setBuffer_extends (m : Memory) : Keeps Extends (setBuffer m) := by
  intro s
  refine ⟨fun a t e => ?_, fun f t e => ?_⟩ <;> cases e
  exact ⟨⟨[], by simp⟩, ⟨[], by simp⟩, ⟨[], by simp⟩, rfl, rfl, rfl, rfl, rfl, rfl, rfl, rfl, rfl, rfl⟩

theorem setPhase_extends (p : Phase) : Keeps Extends (setPhase p) := by
  intro s
  refine ⟨fun a t e => ?_, fun f t e => ?_⟩ <;> cases e
  exact ⟨⟨[], by simp⟩, ⟨[], by simp⟩, ⟨[], by simp⟩, rfl, rfl, rfl, rfl, rfl, rfl, rfl, rfl, rfl, rfl⟩

theorem log_extends (ev : LogEvent) : Keeps Extends (log ev) := by
  intro s
  refine ⟨fun a t e => ?_, fun f t e => ?_⟩ <;> cases e
  exact ⟨⟨[], by simp⟩, ⟨_, rfl⟩, ⟨[], by simp⟩, rfl, rfl, rfl, rfl, rfl, rfl, rfl, rfl, rfl, rfl⟩

theorem reply_extends (v : Nat) : Keeps Extends (reply v) := by
  intro s
  refine ⟨fun a t e => ?_, fun f t e => ?_⟩ <;> cases e
  exact ⟨⟨[], by simp⟩, ⟨[], by simp⟩, ⟨_, rfl⟩, rfl, rfl, rfl, rfl, rfl, rfl, rfl, rfl, rfl, rfl⟩

theorem unknownPattern_extends (ch : Byte) (cur : Nat) : Keeps Extends (unknownPattern ch cur) := by
  intro s
  refine ⟨fun a t e => ?_, fun f t e => ?_⟩ <;> cases e
  exact ⟨⟨[], by simp⟩, ⟨_, rfl⟩, ⟨[], by simp⟩, rfl, rfl, rfl, rfl, rfl, rfl, rfl, rfl, rfl, rfl⟩

theorem checkPosition_extends (k n : Nat) : Keeps Extends (checkPosition k n) := by
  intro s
  simp only [checkPosition]
  refine ⟨fun a t e => ?_, fun f t e => ?_⟩ <;> (repeat' split at e) <;> cases e <;> exact Extends.refl s

/-! ### The operations built from them -/

theorem bind_extends {α β : Type} {x : Act α} {f : α → Act β} (hx : Keeps Extends x) (hf : ∀ a, Keeps Extends (f a)) :
    Keeps Extends (x >>= f) := Keeps.bind (R := Extends) (fun _ _ _ => Extends.trans) hx hf

theorem pure_extends {α : Type} (a : α) : Keeps Extends (pure a : Act α) := Keeps.pure (R := Extends) Extends.refl a

theorem forEach_extends {body : Nat → Act Unit} (ks : List Nat) (h : ∀ k, Keeps Extends (body k)) :
    Keeps Extends (forEach ks body) := Keeps.forEach (R := Extends) Extends.refl (fun _ _ _ => Extends.trans) ks h

theorem bufferWidth_extends : Keeps Extends bufferWidth := bind_extends chipCount_extends fun _ => pure_extends _

theorem sendFrame_extends (reg val : Byte) : Keeps Extends (sendFrame reg val) :=
  bind_extends (busWrite_extends reg) fun _ => busWrite_extends val

theorem transaction_extends {body : Nat → Act Unit} (ks : List Nat) (h : ∀ k, Keeps Extends (body k)) :
    Keeps Extends (busBegin >>= fun _ => forEach ks body >>= fun _ => busEnd) :=
  bind_extends busBegin_extends fun _ => bind_extends (forEach_extends ks h) fun _ => busEnd_extends

theorem broadcast_extends (reg val : Byte) : Keeps Extends (broadcast reg val) :=
  bind_extends chipCount_extends fun _ => transaction_extends _ fun _ => sendFrame_extends reg val

theorem sendColumn_extends (i j : Nat) : Keeps Extends (sendColumn i j) :=
  bind_extends (memRead_extends _) fun _ => sendFrame_extends _ _

theorem refresh_extends : Keeps Extends refresh :=
  bind_extends chipCount_extends fun _ => forEach_extends _ fun i => transaction_extends _ (sendColumn_extends i)

theorem clear_extends : Keeps Extends clear :=
  bind_extends bufferWidth_extends fun _ => bind_extends buffer_extends fun _ => setBuffer_extends _

theorem setupSequence_extends (v : Byte) : Keeps Extends (setupSequence v) :=
  bind_extends bufferWidth_extends fun _ => bind_extends (setBuffer_extends _) fun _ =>
    bind_extends (broadcast_extends _ _) fun _ => bind_extends (broadcast_extends _ _) fun _ =>
    bind_extends (broadcast_extends _ _) fun _ => bind_extends (broadcast_extends _ _) fun _ =>
    bind_extends (broadcast_extends _ _) fun _ => bind_extends (delay_extends _) fun _ =>
    bind_extends refresh_extends fun _ => bind_extends (broadcast_extends _ _) fun _ => setPhase_extends _

theorem patternFor_extends (ch : Byte) (cur : Nat) : Keeps Extends (patternFor ch cur) := by
  unfold patternFor
  split
  · exact glyphRead_extends _
  · exact unknownPattern_extends _ _

theorem setDot_extends (c : Nat) : Keeps Extends (setDot c) :=
  bind_extends (memRead_extends c) fun _ => memWrite_extends c _

theorem overflowAt_extends (start cur : Nat) : Keeps Extends (overflowAt start cur) :=
  bind_extends (log_extends _) fun _ => pure_extends _

theorem renderFrom_extends (w start : Nat) (str : List Byte) (cur : Nat) : Keeps Extends (renderFrom w start cur str) := by
  induction str generalizing cur with
  | nil => exact pure_extends _
  | cons ch rest ih =>
    unfold renderFrom
    split
    · split
      · split
        · exact overflowAt_extends _ _
        · exact bind_extends (setDot_extends _) fun _ => ih _
      · exact bind_extends (setDot_extends _) fun _ => ih _
    · refine bind_extends (patternFor_extends ch cur) fun pat => ?_
      split
      · exact overflowAt_extends _ _
      · exact bind_extends (memWrite_extends _ _) fun _ => ih _

theorem renderAndReply_extends (start : Nat) (str : List Byte) : Keeps Extends (renderAndReply start str) :=
  bind_extends (bind_extends bufferWidth_extends fun w => renderFrom_extends w start str start) fun _ => reply_extends _

theorem writeColumn_extends (idx : Nat) (v : Byte) : Keeps Extends (writeColumn idx v) := by
  refine bind_extends bufferWidth_extends fun w => ?_
  split
  · exact memWrite_extends _ _
  · exact pure_extends _

theorem replyWidth_extends : Keeps Extends replyWidth := bind_extends bufferWidth_extends fun _ => reply_extends _

/-! ### The operations that touch neither the bus nor the chain -/

/-- The operation leaves the bus, the chain, the transaction and the phase. -/
structure Quiet (s t : State) : Prop where
  bus     : t.busTrace = s.busTrace
  chain   : t.chain = s.chain
  phase   : t.phase = s.phase
  txnOpen : t.txnOpen = s.txnOpen

theorem Quiet.refl (s : State) : Quiet s s := ⟨rfl, rfl, rfl, rfl⟩

theorem Quiet.trans {s t u : State} (h : Quiet s t) (k : Quiet t u) : Quiet s u :=
  ⟨k.bus.trans h.bus, k.chain.trans h.chain, k.phase.trans h.phase, k.txnOpen.trans h.txnOpen⟩

theorem bind_quiet {α β : Type} {x : Act α} {f : α → Act β} (hx : Keeps Quiet x) (hf : ∀ a, Keeps Quiet (f a)) :
    Keeps Quiet (x >>= f) := Keeps.bind (R := Quiet) (fun _ _ _ => Quiet.trans) hx hf

theorem pure_quiet {α : Type} (a : α) : Keeps Quiet (pure a : Act α) := Keeps.pure (R := Quiet) Quiet.refl a

theorem memRead_quiet (c : Nat) : Keeps Quiet (memRead c) := by
  intro s
  simp only [memRead]
  refine ⟨fun a t e => ?_, fun f t e => ?_⟩ <;> (repeat' split at e) <;> cases e <;> exact Quiet.refl s

theorem memWrite_quiet (c : Nat) (v : Byte) : Keeps Quiet (memWrite c v) := by
  intro s
  simp only [memWrite]
  refine ⟨fun a t e => ?_, fun f t e => ?_⟩ <;> (repeat' split at e) <;> cases e <;> exact ⟨rfl, rfl, rfl, rfl⟩

theorem glyphRead_quiet (k : Nat) : Keeps Quiet (glyphRead k) := by
  intro s
  simp only [glyphRead]
  refine ⟨fun a t e => ?_, fun f t e => ?_⟩ <;> (repeat' split at e) <;> cases e <;> exact Quiet.refl s

theorem chipCount_quiet : Keeps Quiet chipCount := by
  intro s
  simp only [chipCount]
  refine ⟨fun a t e => ?_, fun f t e => ?_⟩ <;> (repeat' split at e) <;> cases e <;> exact Quiet.refl s

theorem log_quiet (ev : LogEvent) : Keeps Quiet (log ev) := by
  intro s
  refine ⟨fun a t e => ?_, fun f t e => ?_⟩ <;> cases e
  exact ⟨rfl, rfl, rfl, rfl⟩

theorem reply_quiet (v : Nat) : Keeps Quiet (reply v) := by
  intro s
  refine ⟨fun a t e => ?_, fun f t e => ?_⟩ <;> cases e
  exact ⟨rfl, rfl, rfl, rfl⟩

theorem unknownPattern_quiet (ch : Byte) (cur : Nat) : Keeps Quiet (unknownPattern ch cur) := by
  intro s
  refine ⟨fun a t e => ?_, fun f t e => ?_⟩ <;> cases e
  exact ⟨rfl, rfl, rfl, rfl⟩

theorem bufferWidth_quiet : Keeps Quiet bufferWidth := bind_quiet chipCount_quiet fun _ => pure_quiet _

theorem patternFor_quiet (ch : Byte) (cur : Nat) : Keeps Quiet (patternFor ch cur) := by
  unfold patternFor
  split
  · exact glyphRead_quiet _
  · exact unknownPattern_quiet _ _

theorem setDot_quiet (c : Nat) : Keeps Quiet (setDot c) := bind_quiet (memRead_quiet c) fun _ => memWrite_quiet c _

theorem overflowAt_quiet (start cur : Nat) : Keeps Quiet (overflowAt start cur) :=
  bind_quiet (log_quiet _) fun _ => pure_quiet _

theorem renderFrom_quiet (w start : Nat) (str : List Byte) (cur : Nat) : Keeps Quiet (renderFrom w start cur str) := by
  induction str generalizing cur with
  | nil => exact pure_quiet _
  | cons ch rest ih =>
    unfold renderFrom
    split
    · split
      · split
        · exact overflowAt_quiet _ _
        · exact bind_quiet (setDot_quiet _) fun _ => ih _
      · exact bind_quiet (setDot_quiet _) fun _ => ih _
    · refine bind_quiet (patternFor_quiet ch cur) fun pat => ?_
      split
      · exact overflowAt_quiet _ _
      · exact bind_quiet (memWrite_quiet _ _) fun _ => ih _

/-- The print family sends nothing (R37). -/
theorem renderAndReply_quiet (start : Nat) (str : List Byte) : Keeps Quiet (renderAndReply start str) :=
  bind_quiet (bind_quiet bufferWidth_quiet fun w => renderFrom_quiet w start str start) fun _ => reply_quiet _

/-- `SETCOL` sends nothing (R37). -/
theorem writeColumn_quiet (idx : Nat) (v : Byte) : Keeps Quiet (writeColumn idx v) := by
  refine bind_quiet bufferWidth_quiet fun w => ?_
  split
  · exact memWrite_quiet _ _
  · exact pure_quiet _

end Sys2Proof.Machine
end

