-- ==== Sys2Proof/Laws/Trace.lean ====
section
/-! SUPPORT. The laws of the bus trace's shape: brackets (R38), counts (R111, R133) and register bytes (R75). -/

namespace Sys2Proof.Machine

/-- A whole trace before another changes nothing about the other's shape. -/
theorem bracketed_append {n : Nat} (xs ys : List BusEvent) (o : Option Nat) (h : bracketed n o xs = true) :
    bracketed n o (xs ++ ys) = bracketed n none ys := by
  induction xs generalizing o with
  | nil => cases o with
    | none => rfl
    | some k => cases h
  | cons x xs ih =>
    cases o with
    | none => cases x with
      | txnBegin => exact ih (some 0) h
      | byte b => cases h
      | txnEnd => cases h
      | delay d => exact ih none h
    | some k => cases x with
      | txnBegin => cases h
      | byte b => exact ih (some (k + 1)) h
      | txnEnd =>
        simp only [bracketed, Bool.and_eq_true] at h
        simp only [List.cons_append, bracketed, h.1, Bool.true_and]
        exact ih none h.2
      | delay d => cases h

theorem bracketed_frames {n : Nat} (fs : List (Byte × Byte)) (k : Nat) (es : List BusEvent) :
    bracketed n (some k) (fs.flatMap (fun f => [.byte f.1, .byte f.2]) ++ es) = bracketed n (some (k + 2 * fs.length)) es := by
  induction fs generalizing k with
  | nil => rfl
  | cons f fs ih =>
    have : k + 1 + 1 + 2 * fs.length = k + 2 * (f :: fs).length := by simp; omega
    simp only [List.flatMap_cons, List.cons_append, List.nil_append, bracketed, ih, this]

/-- One transaction of N frames is well bracketed. -/
theorem bracketed_txn {n : Nat} {fs : List (Byte × Byte)} (h : fs.length = n) : bracketed n none (txnEvents fs) = true := by
  simp [txnEvents, bracketed, bracketed_frames, h]

theorem bracketed_append_true {n : Nat} {xs ys : List BusEvent} (hx : bracketed n none xs = true) (hy : bracketed n none ys = true) :
    bracketed n none (xs ++ ys) = true := by rw [bracketed_append xs ys none hx, hy]

theorem bracketed_flatMap {n : Nat} {es : Nat → List BusEvent} (is : List Nat) (h : ∀ i, bracketed n none (es i) = true) :
    bracketed n none (is.flatMap es) = true := by
  induction is with
  | nil => rfl
  | cons i is ih => exact bracketed_append_true (h i) ih

theorem bracketed_refresh (n : Nat) (m : Memory) : bracketed n none (refreshEvents n m) = true :=
  bracketed_flatMap _ fun i => bracketed_txn (passFrames_length n m i)

theorem bracketed_broadcast (n : Nat) (reg val : Byte) : bracketed n none (broadcastEvents n reg val) = true :=
  bracketed_txn (by simp)

theorem bracketed_setup (n : Nat) (v : Byte) : bracketed n none (setupEvents n v) = true := by
  have first5 := bracketed_append_true (bracketed_append_true (bracketed_append_true (bracketed_append_true
    (bracketed_broadcast n 0x0C#8 0x00#8) (bracketed_broadcast n 0x0F#8 0x00#8)) (bracketed_broadcast n 0x0B#8 0x07#8))
    (bracketed_broadcast n 0x09#8 0x00#8)) (bracketed_broadcast n 0x0A#8 v)
  exact bracketed_append_true (bracketed_append_true (bracketed_append_true first5 (ys := [.delay 250]) rfl)
    (bracketed_refresh n _)) (bracketed_broadcast n 0x0C#8 0x01#8)

/-! ### Counts -/

theorem beginsIn_append (xs ys : List BusEvent) : beginsIn (xs ++ ys) = beginsIn xs + beginsIn ys := by
  simp [beginsIn]

theorem bytesIn_append (xs ys : List BusEvent) : bytesIn (xs ++ ys) = bytesIn xs ++ bytesIn ys := by
  induction xs with
  | nil => rfl
  | cons x xs ih => cases x <;> simp [bytesIn, ih]

theorem delaysIn_append (xs ys : List BusEvent) : delaysIn (xs ++ ys) = delaysIn xs ++ delaysIn ys := by
  induction xs with
  | nil => rfl
  | cons x xs ih => cases x <;> simp [delaysIn, ih]

theorem bytesIn_frames (fs : List (Byte × Byte)) :
    bytesIn (fs.flatMap fun f => [.byte f.1, .byte f.2]) = fs.flatMap fun f => [f.1, f.2] := by
  induction fs with
  | nil => rfl
  | cons f fs ih => simp [bytesIn, ih]

theorem beginsIn_frames (fs : List (Byte × Byte)) : beginsIn (fs.flatMap fun f => [.byte f.1, .byte f.2]) = 0 := by
  induction fs with
  | nil => rfl
  | cons f fs ih => simpa [beginsIn] using ih

theorem delaysIn_frames (fs : List (Byte × Byte)) : delaysIn (fs.flatMap fun f => [.byte f.1, .byte f.2]) = [] := by
  induction fs with
  | nil => rfl
  | cons f fs ih => simp [delaysIn, ih]

@[simp] theorem beginsIn_txn (fs : List (Byte × Byte)) : beginsIn (txnEvents fs) = 1 := by
  have h : txnEvents fs = [.txnBegin] ++ (fs.flatMap (fun f => [.byte f.1, .byte f.2]) ++ [.txnEnd]) := rfl
  rw [h, beginsIn_append, beginsIn_append, beginsIn_frames]
  rfl

@[simp] theorem bytesIn_txn (fs : List (Byte × Byte)) : bytesIn (txnEvents fs) = fs.flatMap fun f => [f.1, f.2] := by
  simp [txnEvents, bytesIn, bytesIn_append, bytesIn_frames]

@[simp] theorem delaysIn_txn (fs : List (Byte × Byte)) : delaysIn (txnEvents fs) = [] := by
  simp [txnEvents, delaysIn, delaysIn_append, delaysIn_frames]

/-- A refresh is eight transactions (R133). -/
@[simp] theorem beginsIn_refresh (n : Nat) (m : Memory) : beginsIn (refreshEvents n m) = 8 := by
  have h : ∀ is : List Nat, beginsIn (is.flatMap fun i => txnEvents (passFrames n m i)) = is.length := by
    intro is
    induction is with
    | nil => rfl
    | cons i is ih => simp only [List.flatMap_cons, beginsIn_append, ih, beginsIn_txn, List.length_cons]; omega
  exact h _

/-- A refresh waits nowhere. -/
@[simp] theorem delaysIn_refresh (n : Nat) (m : Memory) : delaysIn (refreshEvents n m) = [] := by
  have h : ∀ is : List Nat, delaysIn (is.flatMap fun i => txnEvents (passFrames n m i)) = [] := by
    intro is
    induction is with
    | nil => rfl
    | cons i is ih => simp [delaysIn_append, ih]
  exact h _

/-- A refresh sends `16n` bytes (R133). -/
theorem bytesIn_refresh (n : Nat) (m : Memory) : (bytesIn (refreshEvents n m)).length = 16 * n := by
  have h : ∀ is : List Nat,
      (bytesIn (is.flatMap fun i => txnEvents (passFrames n m i))).length = is.length * (2 * n) := by
    intro is
    induction is with
    | nil => simp [bytesIn]
    | cons i is ih =>
      rw [List.flatMap_cons, bytesIn_append, List.length_append, ih, bytesIn_txn, length_flatMap_pairs, passFrames_length,
        List.length_cons, Nat.succ_mul is.length (2 * n), Nat.add_comm]
  rw [refreshEvents, h, List.length_range]
  omega

/-! ### Register bytes -/

theorem sentRegsFrom_frames (fs : List (Byte × Byte)) (es : List BusEvent) :
    sentRegsFrom true (fs.flatMap (fun f => [.byte f.1, .byte f.2]) ++ es) = fs.map (·.1) ++ sentRegsFrom true es := by
  induction fs with
  | nil => rfl
  | cons f fs ih => simp [sentRegsFrom, ih]

/-- A transaction begins afresh, whatever stood before it. -/
theorem sentRegsFrom_txn (next : Bool) (tr : List BusEvent) (fs : List (Byte × Byte)) (es : List BusEvent) :
    sentRegsFrom next (tr ++ (txnEvents fs ++ es)) = sentRegsFrom next tr ++ (fs.map (·.1) ++ sentRegsFrom true es) := by
  induction tr generalizing next with
  | nil =>
    have h : txnEvents fs ++ es = .txnBegin :: (fs.flatMap (fun f => [.byte f.1, .byte f.2]) ++ (.txnEnd :: es)) := by
      simp [txnEvents]
    rw [List.nil_append, h]
    cases next <;> simp [sentRegsFrom, sentRegsFrom_frames]
  | cons x tr ih => cases x <;> cases next <;> simp [sentRegsFrom, ih]

/-- The register bytes of a sequence of transactions are those of their frames. -/
theorem sentRegs_txns (is : List Nat) (fs : Nat → List (Byte × Byte)) :
    sentRegs (is.flatMap fun i => txnEvents (fs i)) = is.flatMap fun i => (fs i).map (·.1) := by
  induction is with
  | nil => rfl
  | cons i is ih =>
    rw [List.flatMap_cons, List.flatMap_cons, ← ih]
    exact sentRegsFrom_txn true [] (fs i) _

/-- A refresh sends to row registers alone (R132). -/
theorem sentRegs_refresh {n : Nat} {m : Memory} {r : Byte} (h : r ∈ sentRegs (refreshEvents n m)) :
    ∃ i, i < 8 ∧ r = BitVec.ofNat 8 (8 - i) := by
  rw [refreshEvents, sentRegs_txns] at h
  simp only [List.mem_flatMap, List.mem_range, List.mem_map, passFrames] at h
  obtain ⟨i, hi, f, ⟨j, _, rfl⟩, rfl⟩ := h
  exact ⟨i, hi, rfl⟩

end Sys2Proof.Machine
end

