-- ==== Sys2Proof/Laws/Step.lean ====
section
/-! SUPPORT. What an instruction can do, said once: from a state that meets the invariant it marks a fault, marks a refusal, or
has one of the effects of `Effect`; later proofs are case analyses of it. -/

namespace Sys2Proof.Machine

/-- The invariant after setup gives what the buffer commands need. -/
theorem State.Inv.drawable {s : State} (h : s.Inv) (hp : s.phase ≠ .preSetup) : ∃ n m, s.Drawable n m := by
  obtain ⟨n, hn⟩ := Option.ne_none_iff_exists'.mp (h.settingsKnown hp).1
  obtain ⟨m, hm⟩ := Option.ne_none_iff_exists'.mp fun e => hp (h.noBufferIffPreSetup.mpr e)
  exact ⟨n, m, hp, hn, hm, h.bufferSize m n hm hn, h.bufferWf m hm, h.noOpenTransaction, h.glyphRom, h.chainLength⟩

/-- The effects an instruction can have on a state that meets the invariant, its marks aside. -/
inductive Effect (s : State) : Instr → State → Prop where
  | setint (v : Byte) (hp : s.phase ≠ .inCallback) (hv : v.toNat ≤ 15) : Effect s (.setint v) { s with intensity := some v }
  | setchips (n : Byte) (hp : s.phase = .preSetup) (hn : 1 ≤ n.toNat) : Effect s (.setchips n) { s with chips := some n }
  | setwr (w : Byte) (hp : s.phase ≠ .inCallback) (hw : w.toNat < s.par.writerCount) :
      Effect s (.setwr w) { s with writer := some w }
  | setup (n v : Byte) (hp : s.phase = .preSetup) (hn : s.chips = some n) (hv : s.intensity = some v) :
      Effect s .setup { s with fb := some (Memory.zeros (8 * n.toNat)), phase := .running,
                               busTrace := s.busTrace ++ setupEvents n.toNat v, chain := setupChain n.toNat v s.chain }
  | updateNoWriter (n : Byte) (m : Memory) (hd : s.Drawable n m) (hp : s.phase = .running) (hw : s.writer = none) :
      Effect s .update ({ s with fb := some (Memory.zeros m.size) }.afterRefresh n.toNat (Memory.zeros m.size))
  | updateWriter (n w : Byte) (m : Memory) (hd : s.Drawable n m) (hp : s.phase = .running) (hw : s.writer = some w) :
      Effect s .update { s with fb := some (Memory.zeros m.size), phase := .inCallback }
  | display (n : Byte) (m : Memory) (hd : s.Drawable n m) (hp : s.phase = .running) :
      Effect s .display (s.afterRefresh n.toNat m)
  | drawDone (n : Byte) (m : Memory) (hd : s.Drawable n m) (hp : s.phase = .inCallback) :
      Effect s .drawDone { s.afterRefresh n.toNat m with phase := .running }
  | setcol (idx : Half) (v n : Byte) (m m' : Memory) (hd : s.Drawable n m) (hm : m.write idx.toNat v = some m') :
      Effect s (.setcol idx v) { s with fb := some m' }
  | setcolOut (idx : Half) (v n : Byte) (m : Memory) (hd : s.Drawable n m) (hi : 8 * n.toNat ≤ idx.toNat) :
      Effect s (.setcol idx v) s
  | print (i : Instr) (start : Nat) (str : List Byte) (n : Byte) (m : Memory) (t : State) (hi : isPrint i = true)
      (hd : s.Drawable n m) (ht : RendersAt s t n m start str) : Effect s i t
  | width (n : Byte) (hn : s.chips = some n) : Effect s .width { s with results := s.results ++ [8 * n.toNat] }
  | height : Effect s .height { s with results := s.results ++ [8] }
  | frame (i : Instr) (reg val : Byte) (hi : i.port = .chain) (hr : s.rxChip < s.chipLimit) :
      Effect s i { s with chain := updateChip (·.receive reg val) s.rxChip s.chain }

/-! ### Completion, family by family -/

/-- A refresh in a drawable state. -/
theorem State.Drawable.refresh_ok {s : State} {n : Byte} {m : Memory} (h : s.Drawable n m) :
    refresh s = .ok () (s.afterRefresh n.toNat m) := Machine.refresh_ok h.chips h.fb h.size h.closed

/-- `UPDATE`'s clear and refresh in a drawable state. -/
theorem State.Drawable.updateNoWriter_ok {s : State} {n : Byte} {m : Memory} (h : s.Drawable n m) :
    updateNoWriter s = .ok () ({ s with fb := some (Memory.zeros m.size) }.afterRefresh n.toNat (Memory.zeros m.size)) :=
  Act.run_ok (clear_ok h.chips h.fb) (Machine.refresh_ok h.chips rfl h.size h.closed)

/-- `UPDATE`'s first step with a writer in a drawable state. -/
theorem State.Drawable.updateOpenWindow_ok {s : State} {n : Byte} {m : Memory} (h : s.Drawable n m) :
    updateOpenWindow s = .ok () { s with fb := some (Memory.zeros m.size), phase := .inCallback } :=
  Act.run_ok (clear_ok h.chips h.fb) rfl

/-- `DRAW_DONE`'s refresh in a drawable state. -/
theorem State.Drawable.closeWindow_ok {s : State} {n : Byte} {m : Memory} (h : s.Drawable n m) :
    closeWindow s = .ok () { s.afterRefresh n.toNat m with phase := .running } :=
  Act.run_ok h.refresh_ok rfl

/-- `SETCOL`'s write in range. -/
theorem State.Drawable.writeColumn_ok {s : State} {n : Byte} {m : Memory} (h : s.Drawable n m) {idx : Nat} (v : Byte)
    (hi : idx < 8 * n.toNat) :
    ∃ m', m.write idx v = some m' ∧ writeColumn idx v s = .ok () { s with fb := some m' } ∧ m'.size = m.size ∧ m'.wf = true ∧
      m'.read idx = some v ∧ ∀ c, c ≠ idx → m'.read c = m.read c := by
  obtain ⟨m', h1, h2, h3, h4, h5⟩ := Memory.write_spec (c := idx) v h.wf (by rw [h.size]; exact hi)
  refine ⟨m', h1, ?_, h2, h3, h4, h5⟩
  refine Act.run_ok (bufferWidth_ok h.chips) ?_
  simp only [hi, if_true]
  exact memWrite_ok h.fb h1

/-- `SETCOL`'s write out of range. -/
theorem State.Drawable.writeColumn_out {s : State} {n : Byte} {m : Memory} (h : s.Drawable n m) {idx : Nat} (v : Byte)
    (hi : 8 * n.toNat ≤ idx) : writeColumn idx v s = .ok () s := by
  refine Act.run_ok (bufferWidth_ok h.chips) ?_
  simp [Nat.not_lt.mpr hi]

/-- A print in a drawable state. -/
theorem State.Drawable.renderAndReply_ok {s : State} {n : Byte} {m : Memory} (h : s.Drawable n m) (start : Nat)
    (str : List Byte) : ∃ t, renderAndReply start str s = .ok () t ∧ RendersAt s t n m start str := by
  obtain ⟨m', h1, h2, h3, h4⟩ := renderAndReply_spec start str h.chips h.fb h.size h.wf h.rom
  exact ⟨_, h1, rfl, m', rfl, h2, h3, h4⟩

theorem admitBufferUse_drawable {s : State} {n : Byte} {m : Memory} (h : s.Drawable n m) :
    admitBufferUse s.phase = .admitted := by
  have := h.afterSetup
  cases hp : s.phase <;> simp_all [admitBufferUse]

/-- Every print command of a drawable state renders (R162). -/
theorem State.Drawable.printCommand_ok {s : State} {n : Byte} {m : Memory} (h : s.Drawable n m) (i : Instr) (start : Nat)
    (str : List Byte) : ∃ t, printCommand i start str s = .next t ∧ RendersAt s t n m start str := by
  obtain ⟨t, h1, h2⟩ := h.renderAndReply_ok start str
  refine ⟨t, ?_, h2⟩
  rw [printCommand, admitBufferUse_drawable h, guarded_admitted, concluded_ok h1]

/-- A time-formatted command of a drawable state renders when it passes its tests (R159). -/
theorem State.Drawable.timeCommand_ok {s : State} {n : Byte} {m : Memory} (h : s.Drawable n m) (i : Instr) (start : Nat)
    (str : List Byte) (ht : s.par.timeSource = true) (hl : str.length ≤ 63) :
    ∃ t, timeCommand i start str s = .next t ∧ RendersAt s t n m start str := by
  obtain ⟨t, h1, h2⟩ := h.renderAndReply_ok start str
  refine ⟨t, ?_, h2⟩
  have : admitTime s.par.timeSource s.phase str = .admitted := by
    simp [admitTime, ht, admitBufferUse_drawable h, withinTimeMax, hl]
  rw [timeCommand, this, guarded_admitted, concluded_ok h1]

/-! ### What an instruction can do -/

/-- A guarded command marks what its test answers, or runs. -/
theorem guarded_cases {a : Admission} {i : Instr} {run : State → State} {s t : State} (h : guarded a i run s = .next t) :
    (∃ f, a = .raises f ∧ t = s.markFault f (.instr i)) ∨ (∃ r, a = .refusedWith r ∧ t = s.markRefusal r (.instr i)) ∨
      (a = .admitted ∧ run s = t) := by
  cases a with
  | admitted =>
    cases h
    exact .inr (.inr ⟨rfl, rfl⟩)
  | refusedWith r =>
    cases h
    exact .inr (.inl ⟨r, rfl, rfl⟩)
  | raises f =>
    cases h
    exact .inl ⟨f, rfl, rfl⟩

/-- What an instruction can do from a state that meets the invariant: it marks one of its faults, marks one of its refusals, or
has its effect. -/
def Outcomes (s : State) (i : Instr) (t : State) : Prop :=
  (∃ f ∈ s.faultsOf i, t = s.markFault f (.instr i)) ∨ (∃ r ∈ refusalsOf i, t = s.markRefusal r (.instr i)) ∨ Effect s i t

/-- What a test answers is one of the instruction's own faults and refusals. -/
def Admission.of (a : Admission) (s : State) (i : Instr) : Prop :=
  match a with
  | .admitted => True
  | .refusedWith r => r ∈ refusalsOf i
  | .raises f => f ∈ s.faultsOf i

theorem outcomes_of_guarded {a : Admission} {i : Instr} {run : State → State} {s t : State} (h : guarded a i run s = .next t)
    (hof : a.of s i) (hrun : a = .admitted → run s = t → Outcomes s i t) : Outcomes s i t := by
  rcases guarded_cases h with ⟨f, rfl, e⟩ | ⟨r, rfl, e⟩ | ⟨ha, he⟩
  · exact .inl ⟨f, hof, e⟩
  · exact .inr (.inl ⟨r, hof, e⟩)
  · exact hrun ha he

theorem outcomes_print {i : Instr} {start : Nat} {str : List Byte} {s t : State} (hs : s.Inv) (hi : isPrint i = true)
    (hof : (admitBufferUse s.phase).of s i) (h : printCommand i start str s = .next t) : Outcomes s i t := by
  refine outcomes_of_guarded h hof fun ha he => .inr (.inr ?_)
  have hp : s.phase ≠ .preSetup := by
    intro e
    rw [e] at ha
    cases ha
  obtain ⟨n, m, hd⟩ := hs.drawable hp
  obtain ⟨u, h1, h2⟩ := hd.renderAndReply_ok start str
  rw [concluded_ok h1] at he
  cases he
  exact .print i start str n m _ hi hd h2

theorem outcomes_time {i : Instr} {start : Nat} {str : List Byte} {s t : State} (hs : s.Inv) (hi : isPrint i = true)
    (hof : (admitTime s.par.timeSource s.phase str).of s i) (h : timeCommand i start str s = .next t) : Outcomes s i t := by
  refine outcomes_of_guarded h hof fun ha he => .inr (.inr ?_)
  have hp : s.phase ≠ .preSetup := by
    intro e
    cases ht : s.par.timeSource <;> rw [e, ht] at ha <;> cases ha
  obtain ⟨n, m, hd⟩ := hs.drawable hp
  obtain ⟨u, h1, h2⟩ := hd.renderAndReply_ok start str
  rw [concluded_ok h1] at he
  cases he
  exact .print i start str n m _ hi hd h2

theorem outcomes_frame {i : Instr} {reg val : Byte} {s t : State} (hi : i.port = .chain)
    (hof : s.faultsOf i = [.fOob s.rxChip])
    (h : conclude i (chipReceives reg val) s = .next t) : Outcomes s i t := by
  by_cases hr : s.rxChip < s.chipLimit
  · rw [conclude_ok (chipReceives_ok reg val hr)] at h
    cases h
    exact .inr (.inr (.frame i reg val hi hr))
  · rw [conclude_error (chipReceives_oob reg val (Nat.not_lt.mp hr))] at h
    cases h
    exact .inl ⟨_, by simp [hof], rfl⟩

/-- The tests of a command answer its own faults and refusals. -/
theorem admitSetter_of {s : State} {i : Instr} (h : .rContext ∈ refusalsOf i) : (admitSetter s.phase).of s i := by
  cases s.phase <;> trivial

theorem admitCycle_of {s : State} {i : Instr} (hf : .fNoBuffer ∈ s.faultsOf i) (hr : .rContext ∈ refusalsOf i) :
    (admitCycle s.phase).of s i := by
  cases s.phase <;> trivial

theorem admitBufferUse_of {s : State} {i : Instr} (h : .fNoBuffer ∈ s.faultsOf i) : (admitBufferUse s.phase).of s i := by
  cases s.phase <;> trivial

theorem admitTime_of {s : State} {i : Instr} (str : List Byte) (hf : .fNoBuffer ∈ s.faultsOf i)
    (hr : refusalsOf i = [.rNoTimesrc, .rTooLong]) : (admitTime s.par.timeSource s.phase str).of s i := by
  unfold admitTime
  split
  · cases s.phase with
    | preSetup => exact hf
    | running => simp only [admitBufferUse]; split <;> simp [Admission.of, hr]
    | inCallback => simp only [admitBufferUse]; split <;> simp [Admission.of, hr]
  · simp [Admission.of, hr]

theorem exec_cases {i : Instr} {s t : State} (hs : s.Inv) (h : exec i s = .next t) : Outcomes s i t := by
  cases i
  case setint v =>
    simp only [exec, execSetint] at h
    refine outcomes_of_guarded h (admitSetter_of (by simp [refusalsOf])) fun ha he => ?_
    have hp : s.phase ≠ .inCallback := by
      intro e
      rw [e] at ha
      cases ha
    by_cases hv : v.toNat ≤ 15
    · rw [if_pos (show operand v ≤ Param.intensityMax from hv)] at he
      cases he
      exact .inr (.inr (.setint v hp hv))
    · rw [if_neg (show ¬operand v ≤ Param.intensityMax from hv)] at he
      cases he
      exact .inr (.inl ⟨_, by simp [refusalsOf], rfl⟩)
  case setchips n =>
    simp only [exec, execSetchips] at h
    refine outcomes_of_guarded h (by cases s.phase <;> simp [admitSetchips, Admission.of, refusalsOf]) fun ha he => ?_
    have hp : s.phase = .preSetup := by
      cases e : s.phase <;> rw [e] at ha <;> first | rfl | cases ha
    by_cases hn : 1 ≤ n.toNat
    · rw [if_pos (show Param.chipsMin ≤ operand n from hn)] at he
      cases he
      exact .inr (.inr (.setchips n hp hn))
    · rw [if_neg (show ¬Param.chipsMin ≤ operand n from hn)] at he
      cases he
      exact .inr (.inl ⟨_, by simp [refusalsOf], rfl⟩)
  case setwr w =>
    simp only [exec, execSetwr] at h
    refine outcomes_of_guarded h (admitSetter_of (by simp [refusalsOf])) fun ha he => ?_
    have hp : s.phase ≠ .inCallback := by
      intro e
      rw [e] at ha
      cases ha
    by_cases hw : w.toNat < s.par.writerCount
    · rw [if_pos (show operand w < s.par.writerCount from hw)] at he
      cases he
      exact .inr (.inr (.setwr w hp hw))
    · rw [if_neg (show ¬operand w < s.par.writerCount from hw)] at he
      cases he
      exact .inr (.inl ⟨_, by simp [refusalsOf], rfl⟩)
  case setup =>
    refine outcomes_of_guarded h (by cases s.phase <;> simp [admitSetup, Admission.of, refusalsOf]) fun ha he => ?_
    have hp : s.phase = .preSetup := by
      cases e : s.phase <;> rw [e] at ha <;> first | rfl | cases ha
    unfold runSetup at he
    split at he
    · next n v hn hv =>
      rw [concluded_ok (setupSequence_ok v hn hs.noOpenTransaction)] at he
      cases he
      exact .inr (.inr (.setup n v hp hn hv))
    · cases he
      exact .inl ⟨_, by simp [State.faultsOf], rfl⟩
  case update =>
    refine outcomes_of_guarded h (admitCycle_of (by simp [State.faultsOf]) (by simp [refusalsOf])) fun ha he => .inr (.inr ?_)
    have hp : s.phase = .running := by
      cases e : s.phase <;> rw [e] at ha <;> first | rfl | cases ha
    obtain ⟨n, m, hd⟩ := hs.drawable (by rw [hp]; decide)
    cases hw : s.writer with
    | none =>
      rw [hw, concluded_ok hd.updateNoWriter_ok] at he
      cases he
      exact .updateNoWriter n m hd hp hw
    | some w =>
      rw [hw, concluded_ok hd.updateOpenWindow_ok] at he
      cases he
      exact .updateWriter n w m hd hp hw
  case display =>
    refine outcomes_of_guarded h (admitCycle_of (by simp [State.faultsOf]) (by simp [refusalsOf])) fun ha he => .inr (.inr ?_)
    have hp : s.phase = .running := by
      cases e : s.phase <;> rw [e] at ha <;> first | rfl | cases ha
    obtain ⟨n, m, hd⟩ := hs.drawable (by rw [hp]; decide)
    rw [concluded_ok hd.refresh_ok] at he
    cases he
    exact .display n m hd hp
  case drawDone =>
    refine outcomes_of_guarded h (by cases s.phase <;> simp [admitDrawDone, Admission.of, refusalsOf]) fun ha he => .inr (.inr ?_)
    have hp : s.phase = .inCallback := by
      cases e : s.phase <;> rw [e] at ha <;> first | rfl | cases ha
    obtain ⟨n, m, hd⟩ := hs.drawable (by rw [hp]; decide)
    rw [concluded_ok hd.closeWindow_ok] at he
    cases he
    exact .drawDone n m hd hp
  case setcol idx v =>
    refine outcomes_of_guarded h (admitBufferUse_of (by simp [State.faultsOf])) fun ha he => .inr (.inr ?_)
    have hp : s.phase ≠ .preSetup := by
      intro e
      rw [e] at ha
      cases ha
    obtain ⟨n, m, hd⟩ := hs.drawable hp
    by_cases hi : idx.toNat < 8 * n.toNat
    · obtain ⟨m', h1, h2, _⟩ := hd.writeColumn_ok v hi
      rw [concluded_ok (show writeColumn (operand idx) v s = _ from h2)] at he
      cases he
      exact .setcol idx v n m m' hd h1
    · rw [concluded_ok (show writeColumn (operand idx) v s = _ from hd.writeColumn_out v (Nat.not_lt.mp hi))] at he
      cases he
      exact .setcolOut idx v n m hd (Nat.not_lt.mp hi)
  case printat => exact outcomes_print hs rfl (admitBufferUse_of (by simp [State.faultsOf])) h
  case print => exact outcomes_print hs rfl (admitBufferUse_of (by simp [State.faultsOf])) h
  case printfat => exact outcomes_print hs rfl (admitBufferUse_of (by simp [State.faultsOf])) h
  case printf => exact outcomes_print hs rfl (admitBufferUse_of (by simp [State.faultsOf])) h
  case strftat => exact outcomes_time hs rfl (admitTime_of _ (by simp [State.faultsOf]) rfl) h
  case strft => exact outcomes_time hs rfl (admitTime_of _ (by simp [State.faultsOf]) rfl) h
  case width =>
    cases hn : s.chips with
    | none =>
      have : replyWidth s = .error .fUnset s :=
        Act.bind_error (Act.bind_error (show chipCount s = .error .fUnset s by simp [chipCount, hn]))
      rw [show exec .width s = conclude .width replyWidth s from rfl, conclude_error this] at h
      cases h
      exact .inl ⟨_, by simp [State.faultsOf], rfl⟩
    | some n =>
      have : replyWidth s = .ok () { s with results := s.results ++ [8 * n.toNat] } := Act.run_ok (bufferWidth_ok hn) rfl
      rw [show exec .width s = conclude .width replyWidth s from rfl, conclude_ok this] at h
      cases h
      exact .inr (.inr (.width n hn))
  case height =>
    cases h
    exact .inr (.inr .height)
  all_goals exact outcomes_frame rfl rfl h

/-! ### What holds in every state -/

/-- Every instruction answers a next state, whatever the state: faults and refusals are marks (log entry 1). -/
theorem exec_next (i : Instr) (s : State) : ∃ t, exec i s = .next t := by
  cases i <;> exact ⟨_, rfl⟩

/-- What every instruction leaves, whatever the state: the traces and results grow, the marks stay set, the parameters stay. -/
structure Grows (s t : State) : Prop where
  bus : ∃ es, t.busTrace = s.busTrace ++ es
  log : ∃ es, t.logTrace = s.logTrace ++ es
  results : ∃ vs, t.results = s.results ++ vs
  faulted : s.faulted = true → t.faulted = true
  refused : s.refused = true → t.refused = true
  par : t.par = s.par

theorem Grows.refl (s : State) : Grows s s := ⟨⟨[], by simp⟩, ⟨[], by simp⟩, ⟨[], by simp⟩, id, id, rfl⟩

theorem Extends.grows {s t : State} (h : Extends s t) : Grows s t :=
  ⟨h.bus, h.log, h.results, fun e => h.faulted ▸ e, fun e => h.refused ▸ e, h.par⟩

theorem Grows.markFault {s t : State} (h : Grows s t) (f c) : Grows s (t.markFault f c) :=
  ⟨h.bus, h.log, h.results, fun _ => rfl, h.refused, h.par⟩
theorem Grows.markRefusal {s t : State} (h : Grows s t) (f c) : Grows s (t.markRefusal f c) :=
  ⟨h.bus, h.log, h.results, h.faulted, fun _ => rfl, h.par⟩

theorem concluded_grows {act : Act Unit} (hk : Keeps Extends act) (i : Instr) (s : State) : Grows s (concluded i act s) := by
  rcases concluded_cases i act s with ⟨u, hu, h⟩ | ⟨f, u, hu, h⟩ <;> rw [h]
  · exact Extends.grows (hk.ok hu)
  · exact Grows.markFault (Extends.grows (hk.error hu)) _ _

theorem guarded_grows {a : Admission} {i : Instr} {run : State → State} {s t : State} (hrun : Grows s (run s))
    (h : guarded a i run s = .next t) : Grows s t := by
  cases a <;> cases h
  · exact hrun
  · exact Grows.markRefusal (Grows.refl s) _ _
  · exact Grows.markFault (Grows.refl s) _ _

/-- Every instruction keeps what `Grows` says, whatever the state. -/
theorem exec_grows {i : Instr} {s t : State} (h : exec i s = .next t) : Grows s t := by
  cases i
  all_goals simp only [exec, execSetint, execSetchips, execSetwr, execSetup, execUpdate, execDisplay, execDrawDone, execSetcol,
    execPrintat, execPrint, execPrintfat, execPrintf, execStrftat, execStrft, execWidth, execHeight, execNoop, execRow1,
    execRow2, execRow3, execRow4, execRow5, execRow6, execRow7, execRow8, execDecode, execIntensity, execScanlimit, execShutdown,
    execDisptest, printCommand, timeCommand] at h
  case setint v =>
    refine guarded_grows ?_ h
    split
    · exact ⟨⟨[], by simp⟩, ⟨[], by simp⟩, ⟨[], by simp⟩, id, id, rfl⟩
    · exact Grows.markRefusal (Grows.refl s) _ _
  case setchips v =>
    refine guarded_grows ?_ h
    split
    · exact ⟨⟨[], by simp⟩, ⟨[], by simp⟩, ⟨[], by simp⟩, id, id, rfl⟩
    · exact Grows.markRefusal (Grows.refl s) _ _
  case setwr v =>
    refine guarded_grows ?_ h
    split
    · exact ⟨⟨[], by simp⟩, ⟨[], by simp⟩, ⟨[], by simp⟩, id, id, rfl⟩
    · exact Grows.markRefusal (Grows.refl s) _ _
  case setup =>
    refine guarded_grows ?_ h
    unfold runSetup
    split
    · exact concluded_grows (setupSequence_extends _) _ _
    · exact Grows.markFault (Grows.refl s) _ _
  case update =>
    refine guarded_grows (concluded_grows ?_ _ _) h
    split
    · exact bind_extends clear_extends fun _ => refresh_extends
    · exact bind_extends clear_extends fun _ => setPhase_extends _
  case display => exact guarded_grows (concluded_grows refresh_extends _ _) h
  case drawDone => exact guarded_grows (concluded_grows (bind_extends refresh_extends fun _ => setPhase_extends _) _ _) h
  case setcol => exact guarded_grows (concluded_grows (writeColumn_extends _ _) _ _) h
  case width => cases h; exact concluded_grows replyWidth_extends _ _
  case height => cases h; exact concluded_grows (reply_extends _) _ _
  all_goals first
    | exact guarded_grows (concluded_grows (renderAndReply_extends _ _) _ _) h
    | (cases h; exact concluded_grows (chipReceives_extends _ _) _ _)

end Sys2Proof.Machine
end

