-- ==== Sys2Proof/Laws/Access.lean ====
section
/-! SUPPORT. The access table (R37): what an operation does not write, told by any view of the state that looks away from what it
writes, and what it does not read, told by running it with other settings. -/

namespace Sys2Proof.Machine

/-! ### What is not written -/

/-- The two states look the same to `f`. -/
def Same {α : Type} (f : State → α) (s t : State) : Prop := f t = f s

theorem bind_same {α β γ : Type} {f : State → γ} {x : Act α} {k : α → Act β} (hx : Keeps (Same f) x)
    (hk : ∀ a, Keeps (Same f) (k a)) : Keeps (Same f) (x >>= k) :=
  Keeps.bind (R := Same f) (fun _ _ _ h k => k.trans h) hx hk

theorem pure_same {α γ : Type} (f : State → γ) (a : α) : Keeps (Same f) (pure a : Act α) :=
  Keeps.pure (R := Same f) (fun _ => rfl) a

theorem forEach_same {γ : Type} {f : State → γ} {body : Nat → Act Unit} (ks : List Nat) (h : ∀ k, Keeps (Same f) (body k)) :
    Keeps (Same f) (forEach ks body) := 
  Keeps.forEach (R := Same f) (fun _ => rfl) (fun _ _ _ h k => k.trans h) ks h

/-- An operation that ends, or raises, in the state it began in. -/
theorem same_of_reads {α γ : Type} (f : State → γ) {x : Act α} (h : ∀ s, (∃ a, x s = .ok a s) ∨ ∃ e, x s = .error e s) :
    Keeps (Same f) x := by
  intro s
  rcases h s with ⟨a, e⟩ | ⟨g, e⟩ <;> rw [e] <;> refine ⟨fun b t h => ?_, fun g' t h => ?_⟩ <;> cases h <;> rfl

theorem memRead_same {γ : Type} (f : State → γ) (c : Nat) : Keeps (Same f) (memRead c) :=
  same_of_reads f fun s => by
    simp only [memRead]
    split
    · exact .inr ⟨_, rfl⟩
    · split
      · exact .inl ⟨_, rfl⟩
      · exact .inr ⟨_, rfl⟩

theorem chipCount_same {γ : Type} (f : State → γ) : Keeps (Same f) chipCount :=
  same_of_reads f fun s => by
    simp only [chipCount]
    split
    · exact .inl ⟨_, rfl⟩
    · exact .inr ⟨_, rfl⟩

theorem buffer_same {γ : Type} (f : State → γ) : Keeps (Same f) buffer :=
  same_of_reads f fun s => by
    simp only [buffer]
    split
    · exact .inl ⟨_, rfl⟩
    · exact .inr ⟨_, rfl⟩

theorem glyphRead_same {γ : Type} (f : State → γ) (k : Nat) : Keeps (Same f) (glyphRead k) :=
  same_of_reads f fun s => by
    simp only [glyphRead]
    split
    · exact .inl ⟨_, rfl⟩
    · exact .inr ⟨_, rfl⟩

theorem bufferWidth_same {γ : Type} (f : State → γ) : Keeps (Same f) bufferWidth :=
  bind_same (chipCount_same f) fun _ => pure_same f _

/-- `f` looks away from what sending writes: the transaction, the bus trace and the chain. -/
def OffBus {γ : Type} (f : State → γ) : Prop :=
  ∀ (s : State) (o : Bool) (tr : List BusEvent) (c : List ChipImage),
    f { s with txnOpen := o, busTrace := tr, chain := c } = f s

section Sending

variable {γ : Type} {f : State → γ} (hf : OffBus f)
include hf

theorem busBegin_same : Keeps (Same f) busBegin := by
  intro s
  simp only [busBegin]
  refine ⟨fun a t e => ?_, fun g t e => ?_⟩ <;> split at e <;> cases e
  · exact hf s _ _ s.chain
  · rfl

theorem busWrite_same (b : Byte) : Keeps (Same f) (busWrite b) := by
  intro s
  simp only [busWrite]
  refine ⟨fun a t e => ?_, fun g t e => ?_⟩ <;> split at e <;> cases e
  · exact hf s s.txnOpen _ s.chain
  · rfl

theorem busEnd_same : Keeps (Same f) busEnd := by
  intro s
  simp only [busEnd]
  refine ⟨fun a t e => ?_, fun g t e => ?_⟩ <;> split at e <;> cases e
  · exact hf s _ _ _
  · rfl

theorem delay_same (n : Nat) : Keeps (Same f) (delay n) := by
  intro s
  simp only [delay]
  refine ⟨fun a t e => ?_, fun g t e => ?_⟩ <;> split at e <;> cases e
  · exact hf s s.txnOpen _ s.chain
  · rfl

theorem sendFrame_same (reg val : Byte) : Keeps (Same f) (sendFrame reg val) :=
  bind_same (busWrite_same hf reg) fun _ => busWrite_same hf val

/-- A broadcast writes nothing but the transaction, the bus trace and the chain. -/
theorem broadcast_same (reg val : Byte) : Keeps (Same f) (broadcast reg val) :=
  bind_same (chipCount_same f) fun _ => bind_same (busBegin_same hf) fun _ =>
    bind_same (forEach_same _ fun _ => sendFrame_same hf reg val) fun _ => busEnd_same hf

/-- A refresh writes nothing but the transaction, the bus trace and the chain. -/
theorem refresh_same : Keeps (Same f) refresh :=
  bind_same (chipCount_same f) fun _ => forEach_same _ fun _ => bind_same (busBegin_same hf) fun _ =>
    bind_same (forEach_same _ fun _ => bind_same (memRead_same f _) fun _ => sendFrame_same hf _ _) fun _ => busEnd_same hf

end Sending

theorem setBuffer_same {γ : Type} {f : State → γ} (hf : ∀ (s : State) (m : Option Memory), f { s with fb := m } = f s)
    (m : Memory) : Keeps (Same f) (setBuffer m) := by
  intro s
  refine ⟨fun a t e => ?_, fun g t e => ?_⟩ <;> cases e
  exact hf s _

theorem setPhase_same {γ : Type} {f : State → γ} (hf : ∀ (s : State) (p : Phase), f { s with phase := p } = f s) (p : Phase) :
    Keeps (Same f) (setPhase p) := by
  intro s
  refine ⟨fun a t e => ?_, fun g t e => ?_⟩ <;> cases e
  exact hf s _

theorem clear_same {γ : Type} {f : State → γ} (hf : ∀ (s : State) (m : Option Memory), f { s with fb := m } = f s) :
    Keeps (Same f) clear :=
  bind_same (bufferWidth_same f) fun _ => bind_same (buffer_same f) fun _ => setBuffer_same hf _

theorem memWrite_same {γ : Type} {f : State → γ} (hf : ∀ (s : State) (m : Option Memory), f { s with fb := m } = f s) (c : Nat)
    (v : Byte) : Keeps (Same f) (memWrite c v) := by
  intro s
  simp only [memWrite]
  refine ⟨fun a t e => ?_, fun g t e => ?_⟩ <;> (repeat' split at e) <;> cases e
  · exact hf s _
  · rfl
  · rfl

/-- What `SETUP`'s sequence does not write. -/
theorem setupSequence_same {γ : Type} {f : State → γ} (hf : OffBus f)
    (hm : ∀ (s : State) (m : Option Memory), f { s with fb := m } = f s)
    (hp : ∀ (s : State) (p : Phase), f { s with phase := p } = f s) (v : Byte) : Keeps (Same f) (setupSequence v) :=
  bind_same (bufferWidth_same f) fun _ => bind_same (setBuffer_same hm _) fun _ => bind_same (broadcast_same hf _ _) fun _ =>
    bind_same (broadcast_same hf _ _) fun _ => bind_same (broadcast_same hf _ _) fun _ =>
    bind_same (broadcast_same hf _ _) fun _ => bind_same (broadcast_same hf _ _) fun _ =>
    bind_same (delay_same hf _) fun _ => bind_same (refresh_same hf) fun _ => bind_same (broadcast_same hf _ _) fun _ =>
    setPhase_same hp _

/-- `SETCOL` writes the buffer. -/
theorem writeColumn_same {γ : Type} {f : State → γ} (hm : ∀ (s : State) (m : Option Memory), f { s with fb := m } = f s)
    (idx : Nat) (v : Byte) : Keeps (Same f) (writeColumn idx v) := by
  refine bind_same (bufferWidth_same f) fun w => ?_
  split
  · exact memWrite_same hm _ _
  · exact pure_same f _

/-- `f` looks away from what printing writes: the buffer, the log and the results. -/
def OffPrint {γ : Type} (f : State → γ) : Prop :=
  ∀ (s : State) (m : Option Memory) (l : List LogEvent) (r : List Nat),
    f { s with fb := m, logTrace := l, results := r } = f s

theorem log_same {γ : Type} {f : State → γ} (hf : OffPrint f) (e : LogEvent) : Keeps (Same f) (log e) := by
  intro s
  refine ⟨fun a t e => ?_, fun g t e => ?_⟩ <;> cases e
  exact hf s s.fb _ s.results

theorem reply_same {γ : Type} {f : State → γ} (hf : ∀ (s : State) (r : List Nat), f { s with results := r } = f s) (v : Nat) :
    Keeps (Same f) (reply v) := by
  intro s
  refine ⟨fun a t e => ?_, fun g t e => ?_⟩ <;> cases e
  exact hf s _

theorem setDot_same {γ : Type} {f : State → γ} (hf : OffPrint f) (c : Nat) : Keeps (Same f) (setDot c) :=
  bind_same (memRead_same f c) fun _ => memWrite_same (fun s m => hf s m s.logTrace s.results) c _

theorem patternFor_same {γ : Type} {f : State → γ} (hf : OffPrint f) (ch : Byte) (cur : Nat) :
    Keeps (Same f) (patternFor ch cur) := by
  unfold patternFor
  split
  · exact glyphRead_same f _
  · intro s
    refine ⟨fun a t e => ?_, fun g t e => ?_⟩ <;> cases e
    exact hf s s.fb _ s.results

theorem renderFrom_same {γ : Type} {f : State → γ} (hf : OffPrint f) (w start : Nat) (str : List Byte) (cur : Nat) :
    Keeps (Same f) (renderFrom w start cur str) := by
  induction str generalizing cur with
  | nil => exact pure_same f _
  | cons ch rest ih =>
    unfold renderFrom
    split
    · split
      · split
        · exact bind_same (log_same hf _) fun _ => pure_same f _
        · exact bind_same (setDot_same hf _) fun _ => ih _
      · exact bind_same (setDot_same hf _) fun _ => ih _
    · refine bind_same (patternFor_same hf ch cur) fun pat => ?_
      split
      · exact bind_same (log_same hf _) fun _ => pure_same f _
      · exact bind_same (memWrite_same (fun s m => hf s m s.logTrace s.results) _ _) fun _ => ih _

/-- A print writes the buffer, the log and the results. -/
theorem renderAndReply_same {γ : Type} {f : State → γ} (hf : OffPrint f) (start : Nat) (str : List Byte) :
    Keeps (Same f) (renderAndReply start str) :=
  bind_same (bind_same (bufferWidth_same f) fun w => renderFrom_same hf w start str start) fun _ =>
    reply_same (fun s r => hf s s.fb s.logTrace r) _

/-- `WIDTH` writes the results. -/
theorem replyWidth_same {γ : Type} {f : State → γ} (hf : ∀ (s : State) (r : List Nat), f { s with results := r } = f s) :
    Keeps (Same f) replyWidth := bind_same (bufferWidth_same f) fun _ => reply_same hf _

/-- A frame writes the chain. -/
theorem chipReceives_same {γ : Type} {f : State → γ} (hf : ∀ (s : State) (c : List ChipImage), f { s with chain := c } = f s)
    (reg val : Byte) : Keeps (Same f) (chipReceives reg val) := by
  intro s
  simp only [chipReceives]
  refine ⟨fun a t e => ?_, fun g t e => ?_⟩ <;> split at e <;> cases e
  · exact hf s _
  · rfl

/-- `f` looks away from the marks and their records. -/
def OffMarks {γ : Type} (f : State → γ) : Prop :=
  ∀ (s : State) (g : Fault) (r : Refusal) (c : Issued), f (s.markFault g c) = f s ∧ f (s.markRefusal r c) = f s

theorem concluded_same {γ : Type} {f : State → γ} (hm : OffMarks f) {act : Act Unit} (h : Keeps (Same f) act) (i : Instr)
    (s : State) : f (concluded i act s) = f s := by
  rcases concluded_cases i act s with ⟨t, ht, e⟩ | ⟨g, t, ht, e⟩ <;> rw [e]
  · exact h.ok ht
  · exact (hm t g .rRange _).1.trans (h.error ht)

theorem guarded_same {γ : Type} {f : State → γ} (hm : OffMarks f) {a : Admission} {i : Instr} {run : State → State} {s t : State}
    (hrun : f (run s) = f s) (h : guarded a i run s = .next t) : f t = f s := by
  cases a <;> cases h
  · exact hrun
  · exact (hm s .fTxn _ _).2
  · exact (hm s _ .rRange _).1

/-! ### What is not read -/

/-- The state with other settings. -/
def State.resettle (fi fw : Option Byte → Option Byte) (s : State) : State :=
  { s with intensity := fi s.intensity, writer := fw s.writer }

/-- A result on another state. -/
def mapState {α : Type} (g : State → State) : EStateM.Result Fault State α → EStateM.Result Fault State α
  | .ok a t => .ok a (g t)
  | .error e t => .error e (g t)

/-- The operation reads neither the intensity nor the writer: with other values there it does the same. -/
def Blind {α : Type} (x : Act α) : Prop :=
  ∀ (fi fw : Option Byte → Option Byte) (s : State), x (s.resettle fi fw) = mapState (State.resettle fi fw) (x s)

theorem Blind.bind {α β : Type} {x : Act α} {k : α → Act β} (hx : Blind x) (hk : ∀ a, Blind (k a)) : Blind (x >>= k) := by
  intro fi fw s
  cases h : x s with
  | ok a t =>
    have h' : x (s.resettle fi fw) = .ok a (t.resettle fi fw) := by rw [hx, h]; rfl
    rw [Act.bind_ok h, Act.bind_ok h', hk]
  | error e t =>
    have h' : x (s.resettle fi fw) = .error e (t.resettle fi fw) := by rw [hx, h]; rfl
    rw [Act.bind_error h, Act.bind_error h']
    rfl

theorem Blind.pure {α : Type} (a : α) : Blind (pure a : Act α) := fun _ _ _ => rfl

theorem Blind.forEach {body : Nat → Act Unit} (ks : List Nat) (h : ∀ k, Blind (body k)) : Blind (forEach ks body) := by
  induction ks with
  | nil => exact Blind.pure ()
  | cons k ks ih => exact (h k).bind fun _ => ih

theorem chipCount_blind : Blind chipCount := by
  intro fi fw s
  cases h : s.chips <;> simp [chipCount, State.resettle, mapState, h]

theorem buffer_blind : Blind buffer := by
  intro fi fw s
  cases h : s.fb <;> simp [buffer, State.resettle, mapState, h]

theorem memRead_blind (c : Nat) : Blind (memRead c) := by
  intro fi fw s
  cases h : s.fb with
  | none => simp [memRead, State.resettle, mapState, h]
  | some m => cases k : m.read c <;> simp [memRead, State.resettle, mapState, h, k]

theorem memWrite_blind (c : Nat) (v : Byte) : Blind (memWrite c v) := by
  intro fi fw s
  cases h : s.fb with
  | none => simp [memWrite, State.resettle, mapState, h]
  | some m => cases k : m.write c v <;> simp [memWrite, State.resettle, mapState, h, k]

theorem glyphRead_blind (k : Nat) : Blind (glyphRead k) := by
  intro fi fw s
  cases h : s.par.glyphs[k]? <;> simp [glyphRead, State.resettle, mapState, h]

theorem setBuffer_blind (m : Memory) : Blind (setBuffer m) := fun _ _ _ => rfl

theorem setPhase_blind (p : Phase) : Blind (setPhase p) := fun _ _ _ => rfl

theorem log_blind (e : LogEvent) : Blind (log e) := fun _ _ _ => rfl

theorem reply_blind (v : Nat) : Blind (reply v) := fun _ _ _ => rfl

theorem unknownPattern_blind (ch : Byte) (cur : Nat) : Blind (unknownPattern ch cur) := fun _ _ _ => rfl

theorem busBegin_blind : Blind busBegin := by
  intro fi fw s
  cases h : s.txnOpen <;> simp [busBegin, State.resettle, mapState, h]

theorem busWrite_blind (b : Byte) : Blind (busWrite b) := by
  intro fi fw s
  cases h : s.txnOpen <;> simp [busWrite, State.resettle, mapState, h]

theorem busEnd_blind : Blind busEnd := by
  intro fi fw s
  cases h : s.txnOpen <;> simp [busEnd, State.resettle, mapState, h]

theorem delay_blind (n : Nat) : Blind (delay n) := by
  intro fi fw s
  cases h : s.txnOpen <;> simp [delay, State.resettle, mapState, h]

theorem chipReceives_blind (reg val : Byte) : Blind (chipReceives reg val) := by
  intro fi fw s
  by_cases h : s.rxChip < s.chipLimit
  · rw [chipReceives_ok reg val h, chipReceives_ok reg val (s := s.resettle fi fw) h]
    rfl
  · rw [chipReceives_oob reg val (Nat.not_lt.mp h), chipReceives_oob reg val (s := s.resettle fi fw) (Nat.not_lt.mp h)]
    rfl

theorem bufferWidth_blind : Blind bufferWidth := chipCount_blind.bind fun _ => Blind.pure _

theorem sendFrame_blind (reg val : Byte) : Blind (sendFrame reg val) := (busWrite_blind reg).bind fun _ => busWrite_blind val

/-- A refresh reads no setting but the chip count. -/
theorem refresh_blind : Blind refresh :=
  chipCount_blind.bind fun _ => Blind.forEach _ fun _ => busBegin_blind.bind fun _ =>
    (Blind.forEach _ fun _ => (memRead_blind _).bind fun _ => sendFrame_blind _ _).bind fun _ => busEnd_blind

theorem broadcast_blind (reg val : Byte) : Blind (broadcast reg val) :=
  chipCount_blind.bind fun _ => busBegin_blind.bind fun _ => (Blind.forEach _ fun _ => sendFrame_blind reg val).bind fun _ =>
    busEnd_blind

/-- `SETUP`'s sequence reads no setting but the chip count; the intensity is its argument. -/
theorem setupSequence_blind (v : Byte) : Blind (setupSequence v) :=
  bufferWidth_blind.bind fun _ => (setBuffer_blind _).bind fun _ => (broadcast_blind _ _).bind fun _ =>
    (broadcast_blind _ _).bind fun _ => (broadcast_blind _ _).bind fun _ => (broadcast_blind _ _).bind fun _ =>
    (broadcast_blind _ _).bind fun _ => (delay_blind _).bind fun _ => refresh_blind.bind fun _ =>
    (broadcast_blind _ _).bind fun _ => setPhase_blind _

theorem clear_blind : Blind clear := bufferWidth_blind.bind fun _ => buffer_blind.bind fun _ => setBuffer_blind _

theorem updateNoWriter_blind : Blind updateNoWriter := clear_blind.bind fun _ => refresh_blind

theorem updateOpenWindow_blind : Blind updateOpenWindow := clear_blind.bind fun _ => setPhase_blind _

theorem closeWindow_blind : Blind closeWindow := refresh_blind.bind fun _ => setPhase_blind _

theorem writeColumn_blind (idx : Nat) (v : Byte) : Blind (writeColumn idx v) := by
  refine bufferWidth_blind.bind fun w => ?_
  split
  · exact memWrite_blind _ _
  · exact Blind.pure _

theorem replyWidth_blind : Blind replyWidth := bufferWidth_blind.bind fun _ => reply_blind _

theorem setDot_blind (c : Nat) : Blind (setDot c) := (memRead_blind c).bind fun _ => memWrite_blind c _

theorem patternFor_blind (ch : Byte) (cur : Nat) : Blind (patternFor ch cur) := by
  unfold patternFor
  split
  · exact glyphRead_blind _
  · exact unknownPattern_blind _ _

theorem renderFrom_blind (w start : Nat) (str : List Byte) (cur : Nat) : Blind (renderFrom w start cur str) := by
  induction str generalizing cur with
  | nil => exact Blind.pure _
  | cons ch rest ih =>
    unfold renderFrom
    split
    · split
      · split
        · exact (log_blind _).bind fun _ => Blind.pure _
        · exact (setDot_blind _).bind fun _ => ih _
      · exact (setDot_blind _).bind fun _ => ih _
    · refine (patternFor_blind ch cur).bind fun pat => ?_
      split
      · exact (log_blind _).bind fun _ => Blind.pure _
      · exact (memWrite_blind _ _).bind fun _ => ih _

/-- A print reads no setting but the chip count. -/
theorem renderAndReply_blind (start : Nat) (str : List Byte) : Blind (renderAndReply start str) :=
  (bufferWidth_blind.bind fun w => renderFrom_blind w start str start).bind fun _ => reply_blind _

theorem concluded_blind {act : Act Unit} (h : Blind act) (i : Instr) (fi fw : Option Byte → Option Byte) (s : State) :
    concluded i act (s.resettle fi fw) = (concluded i act s).resettle fi fw := by
  simp only [concluded, h fi fw s]
  cases act s <;> rfl

theorem guarded_blind {a : Admission} {i : Instr} {run run' : State → State} {fi fw : Option Byte → Option Byte} {s t : State}
    (hrun : run' (s.resettle fi fw) = (run s).resettle fi fw) (h : guarded a i run s = .next t) :
    guarded a i run' (s.resettle fi fw) = .next (t.resettle fi fw) := by
  cases a <;> cases h
  · exact congrArg _ hrun
  · rfl
  · rfl

end Sys2Proof.Machine
end

