-- ==== Sys2Proof/Laws/Decode.lean ====
section
/-! SUPPORT. The laws of the operand forms of the command format: what the encoder writes, the decoder's helpers read back. -/

namespace Sys2Proof

/-- The number an `imm16` is (R81). -/
theorem Machine.imm16_toNat (hi lo : Byte) : (Machine.imm16 hi lo).toNat = 256 * hi.toNat + lo.toNat := by
  show (hi ++ lo : BitVec (8 + 8)).toNat = _
  rw [BitVec.toNat_append, ← Nat.shiftLeft_add_eq_or_of_lt lo.isLt, Nat.shiftLeft_eq]
  omega

theorem Machine.imm16Hi_toNat (h : Half) : (Machine.imm16Hi h).toNat = h.toNat / 256 := by
  have := h.isLt
  simp only [Machine.imm16Hi, BitVec.extractLsb'_toNat, Nat.shiftRight_eq_div_pow]
  omega

theorem Machine.imm16Lo_toNat (h : Half) : (Machine.imm16Lo h).toNat = h.toNat % 256 := by
  simp only [Machine.imm16Lo, BitVec.extractLsb'_toNat, Nat.shiftRight_eq_div_pow]
  omega

@[simp] theorem Machine.imm16_hi_lo (h : Half) : Machine.imm16 (Machine.imm16Hi h) (Machine.imm16Lo h) = h := by
  apply BitVec.eq_of_toNat_eq
  rw [Machine.imm16_toNat, Machine.imm16Hi_toNat, Machine.imm16Lo_toNat]
  omega

@[simp] theorem Machine.imm16Hi_imm16 (hi lo : Byte) : Machine.imm16Hi (Machine.imm16 hi lo) = hi := by
  have := lo.isLt
  apply BitVec.eq_of_toNat_eq
  rw [Machine.imm16Hi_toNat, Machine.imm16_toNat]
  omega

@[simp] theorem Machine.imm16Lo_imm16 (hi lo : Byte) : Machine.imm16Lo (Machine.imm16 hi lo) = lo := by
  have := lo.isLt
  apply BitVec.eq_of_toNat_eq
  rw [Machine.imm16Lo_toNat, Machine.imm16_toNat]
  omega

/-- The first `k` bytes, in the library's words. -/
theorem takeBytes_eq (k : Nat) (bytes : List Byte) :
    takeBytes k bytes = if k ≤ bytes.length then some (bytes.take k, bytes.drop k) else none := by
  induction k generalizing bytes with
  | zero => simp [takeBytes]
  | succ k ih =>
    cases bytes with
    | nil => simp [takeBytes]
    | cons b bytes => by_cases h : k ≤ bytes.length <;> simp [takeBytes, ih, h]

/-- A string operand, in the library's words. -/
theorem takeStr_cons (len : Byte) (bytes : List Byte) :
    takeStr (len :: bytes)
      = if len.toNat ≤ bytes.length then .ok (bytes.take len.toNat, bytes.drop len.toNat) else .error .truncated := by
  simp only [takeStr, takeBytes_eq]
  by_cases h : len.toNat ≤ bytes.length <;> simp [h]

/-- A string operand is read back, whatever follows it. -/
theorem takeStr_encodeStr (str rest : List Byte) (h : str.length ≤ maxStr) :
    takeStr (encodeStr str ++ rest) = .ok (str, rest) := by
  have hlt : str.length < 2 ^ 8 := by
    simp only [maxStr] at h
    omega
  have hlen : (BitVec.ofNat 8 str.length).toNat = str.length := by
    rw [BitVec.toNat_ofNat, Nat.mod_eq_of_lt hlt]
  simp only [encodeStr, List.cons_append, takeStr_cons, hlen]
  simp

/-- What `takeStr` answers is what the encoder writes for it. -/
theorem encodeStr_of_takeStr {bytes str rest : List Byte} (h : takeStr bytes = .ok (str, rest)) :
    str.length ≤ maxStr ∧ bytes = encodeStr str ++ rest := by
  cases bytes with
  | nil => cases h
  | cons len tl =>
    simp only [takeStr_cons] at h
    split at h
    · next hle =>
      cases h
      have hlen : (tl.take len.toNat).length = len.toNat := by simp [hle]
      refine ⟨?_, ?_⟩
      · have := len.isLt
        simp only [maxStr]
        omega
      · simp [encodeStr, hlen]
    · cases h

end Sys2Proof
end

