-- ==== Sys2Proof/Laws/PerInstr.lean ====
section
/-! SUPPORT. Facts about every instruction as syntax, one lemma per constructor. -/

namespace Sys2Proof.Laws

/-- The fixed byte of an instruction's row of spec/opcode_table.json: the opcode of a command (its bits 7:0), the register of a
frame (its bits 15:8). -/
def FixedByte.tableByte : Instr → Byte
  | .setint _ => 0x01#8
  | .setchips _ => 0x02#8
  | .setwr _ => 0x03#8
  | .setup => 0x10#8
  | .update => 0x11#8
  | .display => 0x12#8
  | .drawDone => 0x13#8
  | .setcol _ _ => 0x20#8
  | .printat _ _ => 0x21#8
  | .print _ => 0x22#8
  | .printfat _ _ => 0x23#8
  | .printf _ => 0x24#8
  | .strftat _ _ => 0x25#8
  | .strft _ => 0x26#8
  | .width => 0x30#8
  | .height => 0x31#8
  | .noop _ => 0x00#8
  | .row1 _ => 0x01#8
  | .row2 _ => 0x02#8
  | .row3 _ => 0x03#8
  | .row4 _ => 0x04#8
  | .row5 _ => 0x05#8
  | .row6 _ => 0x06#8
  | .row7 _ => 0x07#8
  | .row8 _ => 0x08#8
  | .decode _ => 0x09#8
  | .intensity _ => 0x0A#8
  | .scanlimit _ => 0x0B#8
  | .shutdown _ => 0x0C#8
  | .disptest _ => 0x0F#8

/-- The first byte the encoder writes is the fixed byte of the instruction's row. -/
def FixedByte.Statement (i : Instr) : Prop := (encode i).head? = some (FixedByte.tableByte i)

theorem FixedByte.setint (v : Byte) : FixedByte.Statement (.setint v) := rfl
theorem FixedByte.setchips (n : Byte) : FixedByte.Statement (.setchips n) := rfl
theorem FixedByte.setwr (w : Byte) : FixedByte.Statement (.setwr w) := rfl
theorem FixedByte.setup : FixedByte.Statement (.setup) := rfl
theorem FixedByte.update : FixedByte.Statement (.update) := rfl
theorem FixedByte.display : FixedByte.Statement (.display) := rfl
theorem FixedByte.drawDone : FixedByte.Statement (.drawDone) := rfl
theorem FixedByte.setcol (idx : Half) (v : Byte) : FixedByte.Statement (.setcol idx v) := rfl
theorem FixedByte.printat (pos : Half) (str : List Byte) : FixedByte.Statement (.printat pos str) := rfl
theorem FixedByte.print (str : List Byte) : FixedByte.Statement (.print str) := rfl
theorem FixedByte.printfat (pos : Half) (str : List Byte) : FixedByte.Statement (.printfat pos str) := rfl
theorem FixedByte.printf (str : List Byte) : FixedByte.Statement (.printf str) := rfl
theorem FixedByte.strftat (pos : Half) (str : List Byte) : FixedByte.Statement (.strftat pos str) := rfl
theorem FixedByte.strft (str : List Byte) : FixedByte.Statement (.strft str) := rfl
theorem FixedByte.width : FixedByte.Statement (.width) := rfl
theorem FixedByte.height : FixedByte.Statement (.height) := rfl
theorem FixedByte.noop (val : Byte) : FixedByte.Statement (.noop val) := rfl
theorem FixedByte.row1 (val : Byte) : FixedByte.Statement (.row1 val) := rfl
theorem FixedByte.row2 (val : Byte) : FixedByte.Statement (.row2 val) := rfl
theorem FixedByte.row3 (val : Byte) : FixedByte.Statement (.row3 val) := rfl
theorem FixedByte.row4 (val : Byte) : FixedByte.Statement (.row4 val) := rfl
theorem FixedByte.row5 (val : Byte) : FixedByte.Statement (.row5 val) := rfl
theorem FixedByte.row6 (val : Byte) : FixedByte.Statement (.row6 val) := rfl
theorem FixedByte.row7 (val : Byte) : FixedByte.Statement (.row7 val) := rfl
theorem FixedByte.row8 (val : Byte) : FixedByte.Statement (.row8 val) := rfl
theorem FixedByte.decode (val : Byte) : FixedByte.Statement (.decode val) := rfl
theorem FixedByte.intensity (val : Byte) : FixedByte.Statement (.intensity val) := rfl
theorem FixedByte.scanlimit (val : Byte) : FixedByte.Statement (.scanlimit val) := rfl
theorem FixedByte.shutdown (val : Byte) : FixedByte.Statement (.shutdown val) := rfl
theorem FixedByte.disptest (val : Byte) : FixedByte.Statement (.disptest val) := rfl

end Sys2Proof.Laws
end

