-- ==== Sys2Proof/Machine/Assembly.lean ====
section
/-! DEFINITION. The assembler syntax of the commands (R86): one command per line, the mnemonic, then its operands separated by
commas.  Frames have no syntax of their own.  The machine never reads this text; it is the notation of programs. -/

namespace Sys2Proof.Machine

/-- The text after its leading spaces. -/
def skipSpaces : List Char → List Char
  | [] => []
  | c :: cs => if c = ' ' then skipSpaces cs else c :: cs

/-- How far a character stands after `first`, when it is one of the `count` characters from there. -/
def placeIn (first : Char) (count : Nat) (c : Char) : Option Nat :=
  let place := c.toNat - first.toNat
  if first.toNat + place = c.toNat ∧ place < count then some place else none

/-- The value of a hexadecimal digit, in either case of the letters. -/
def hexDigit (c : Char) : Option Nat :=
  match placeIn '0' 10 c, placeIn 'A' 6 c, placeIn 'a' 6 c with
  | some d, _, _ => some d
  | none, some d, _ => some (10 + d)
  | none, none, some d => some (10 + d)
  | none, none, none => none

/-- The digits of a number in a base, as many as there are, after `acc`; the text after them. -/
def readDigits (base : Nat) : Nat → List Char → Nat × List Char
  | acc, [] => (acc, [])
  | acc, c :: cs =>
    match hexDigit c with
    | some d => if d < base then readDigits base (base * acc + d) cs else (acc, c :: cs)
    | none => (acc, c :: cs)

/-- A number that begins with a digit of its base. -/
def readBase (base : Nat) : List Char → Option (Nat × List Char)
  | [] => none
  | c :: cs =>
    match hexDigit c with
    | some d => if d < base then some (readDigits base 0 (c :: cs)) else none
    | none => none

/-- An `imm8` or `imm16` of `w` bits: decimal, or hexadecimal after `0x`; a number that does not fit is no operand. -/
def readImm (w : Nat) (text : List Char) : Option (BitVec w × List Char) :=
  let found := match skipSpaces text with
    | '0' :: 'x' :: cs => readBase 16 cs
    | cs => readBase 10 cs
  match found with
  | some (v, rest) => if v < 2 ^ w then some (BitVec.ofNat w v, rest) else none
  | none => none

/-- One more byte before what was read. -/
def putByte (b : Nat) : Option (List Byte × List Char) → Option (List Byte × List Char)
  | some (str, rest) => some (BitVec.ofNat 8 b :: str, rest)
  | none => none

/-- The bytes of a `str` up to its closing quote: `\xNN` is any byte, `\"` and `\\` are a quote and a backslash, every other
character is its ASCII byte. -/
def readQuoted : List Char → Option (List Byte × List Char)
  | [] => none
  | '"' :: rest => some ([], rest)
  | '\\' :: 'x' :: hi :: lo :: cs =>
    match hexDigit hi, hexDigit lo with
    | some h, some l => putByte (16 * h + l) (readQuoted cs)
    | _, _ => none
  | '\\' :: '"' :: cs => putByte 0x22 (readQuoted cs)
  | '\\' :: '\\' :: cs => putByte 0x5C (readQuoted cs)
  | '\\' :: _ => none
  | c :: cs => if c.toNat < 128 then putByte c.toNat (readQuoted cs) else none

/-- A `str` operand: double-quoted, its length implied. -/
def readStr (text : List Char) : Option (List Byte × List Char) :=
  match skipSpaces text with
  | '"' :: cs => readQuoted cs
  | _ => none

/-- The comma between two operands. -/
def readComma (text : List Char) : Option (List Char) :=
  match skipSpaces text with
  | ',' :: cs => some cs
  | _ => none

/-- A line without operands, all of it read. -/
def line0 (i : Instr) (text : List Char) : Option Instr := if skipSpaces text = [] then some i else none

/-- A line with one operand. -/
def line1 {α : Type} (read : List Char → Option (α × List Char)) (mk : α → Instr) (text : List Char) : Option Instr :=
  match read text with
  | some (a, rest) => line0 (mk a) rest
  | none => none

/-- A line with two operands, the first an `imm16`. -/
def line2 {α : Type} (read : List Char → Option (α × List Char)) (mk : Half → α → Instr) (text : List Char) : Option Instr :=
  match readImm 16 text with
  | some (pos, rest) =>
    match readComma rest with
    | some rest' => line1 read (mk pos) rest'
    | none => none
  | none => none

/-- The operands of a mnemonic. -/
def assembleOperands (mnemonic : List Char) (text : List Char) : Option Instr :=
  if mnemonic = ['S', 'E', 'T', 'I', 'N', 'T'] then line1 (readImm 8) .setint text
  else if mnemonic = ['S', 'E', 'T', 'C', 'H', 'I', 'P', 'S'] then line1 (readImm 8) .setchips text
  else if mnemonic = ['S', 'E', 'T', 'W', 'R'] then line1 (readImm 8) .setwr text
  else if mnemonic = ['S', 'E', 'T', 'U', 'P'] then line0 .setup text
  else if mnemonic = ['U', 'P', 'D', 'A', 'T', 'E'] then line0 .update text
  else if mnemonic = ['D', 'I', 'S', 'P', 'L', 'A', 'Y'] then line0 .display text
  else if mnemonic = ['D', 'R', 'A', 'W', '_', 'D', 'O', 'N', 'E'] then line0 .drawDone text
  else if mnemonic = ['S', 'E', 'T', 'C', 'O', 'L'] then line2 (readImm 8) .setcol text
  else if mnemonic = ['P', 'R', 'I', 'N', 'T', 'A', 'T'] then line2 readStr .printat text
  else if mnemonic = ['P', 'R', 'I', 'N', 'T'] then line1 readStr .print text
  else if mnemonic = ['P', 'R', 'I', 'N', 'T', 'F', 'A', 'T'] then line2 readStr .printfat text
  else if mnemonic = ['P', 'R', 'I', 'N', 'T', 'F'] then line1 readStr .printf text
  else if mnemonic = ['S', 'T', 'R', 'F', 'T', 'A', 'T'] then line2 readStr .strftat text
  else if mnemonic = ['S', 'T', 'R', 'F', 'T'] then line1 readStr .strft text
  else if mnemonic = ['W', 'I', 'D', 'T', 'H'] then line0 .width text
  else if mnemonic = ['H', 'E', 'I', 'G', 'H', 'T'] then line0 .height text
  else none

/-- A character of a mnemonic. -/
def mnemonicChar (c : Char) : Bool := decide ('A' ≤ c ∧ c ≤ 'Z') || decide (c = '_')

/-- The command a line of assembler text writes; none where it writes none, a string of more than 255 bytes included (R85). -/
def assemble (text : List Char) : Option Instr :=
  match assembleOperands ((skipSpaces text).takeWhile mnemonicChar) ((skipSpaces text).dropWhile mnemonicChar) with
  | some i => if i.wellFormed then some i else none
  | none => none

end Sys2Proof.Machine
end

