-- ==== Sys2Proof/Tests/Slice0.lean ====
section
/-! SUPPORT. Tests.  Expected values are the spec's own vectors (95_test_vectors.md, rows named L…; R88) or words written out from
the tables of 30_encoding.md, with the test glyph ROM `GLYPH[k] = k + 1` and `UNKNOWN_GLYPH = 0x77`; then one witness for the
hypotheses of each statement. -/

namespace Sys2Proof.Tests

open Sys2Proof Sys2Proof.Machine

/-! ### Small machines -/

/-- The parameters of the tests: `g(c) = c − 0x1F`, `U = 0x77`, two writers. -/
def testPar : Params :=
  { glyphs := (List.range 94).map fun k => BitVec.ofNat 8 (k + 1), unknownGlyph := 0x77, timeSource := true, writerCount := 2
    delayUnit := 0, updateInterval := 0, busHandle := 0, csLine := 0 }

/-- After reset. -/
def blank : State := { State.reset with par := testPar }

/-- Before setup, both settings written. -/
def ready (n v : Byte) : State := { blank with chips := some n, intensity := some v }

/-- `RUNNING`, no writer, empty traces. -/
def running (n : Byte) (m : Memory) : State := { ready n 4 with phase := .running, fb := some m }

/-- A window, opened for writer 0. -/
def window (n : Byte) (m : Memory) : State := { running n m with phase := .inCallback, writer := some 0 }

/-- One chip, a blank buffer. -/
def one : State := running 1 (.zeros 8)

/-- The state after one instruction. -/
def after (i : Instr) (s : State) : State :=
  match exec i s with
  | .next t => t
  | .fault _ => s
  | .refused _ => s

/-- The state after one operation. -/
def did (act : Act Unit) (s : State) : State :=
  match act s with
  | .ok _ t => t
  | .error _ _ => s

/-- The bytes of a transaction as events. -/
def txn (bytes : List Byte) : List BusEvent := .txnBegin :: bytes.map .byte ++ [.txnEnd]

/-! ### WellFormed: a string of 256 bytes is refused in each string command, one of 255 is not (R85) -/

theorem test_longest_string_fits : (Instr.print (List.replicate 255 0x41)).wellFormed = true := by decide +kernel

theorem test_ill_formed_printat : (Instr.printat 0 (List.replicate 256 0x41)).wellFormed = false := by decide +kernel
theorem test_ill_formed_print : (Instr.print (List.replicate 256 0x41)).wellFormed = false := by decide +kernel
theorem test_ill_formed_printfat : (Instr.printfat 0 (List.replicate 256 0x41)).wellFormed = false := by decide +kernel
theorem test_ill_formed_printf : (Instr.printf (List.replicate 256 0x41)).wellFormed = false := by decide +kernel
theorem test_ill_formed_strftat : (Instr.strftat 0 (List.replicate 256 0x41)).wellFormed = false := by decide +kernel
theorem test_ill_formed_strft : (Instr.strft (List.replicate 256 0x41)).wellFormed = false := by decide +kernel

/-! ### Decoding: one word for each constructor, from the tables of R72 and R82 -/

/-- R88. -/
theorem test_decode_setint : decode .host [0x01, 0x0F] = .ok ((.setint 15), []) := by decide
/-- R82. -/
theorem test_decode_setchips : decode .host [0x02, 0xFF] = .ok ((.setchips 255), []) := by decide
/-- R82. -/
theorem test_decode_setwr : decode .host [0x03, 0x01] = .ok ((.setwr 1), []) := by decide
/-- R82. -/
theorem test_decode_setup : decode .host [0x10] = .ok (.setup, []) := by decide
/-- R82. -/
theorem test_decode_update : decode .host [0x11] = .ok (.update, []) := by decide
/-- R82. -/
theorem test_decode_display : decode .host [0x12] = .ok (.display, []) := by decide
/-- L2.5 row 8. -/
theorem test_decode_draw_done : decode .host [0x13] = .ok (.drawDone, []) := by decide
/-- L2.5 row 1. -/
theorem test_decode_setcol : decode .host [0x20, 0x00, 0x09, 0xAA] = .ok ((.setcol 9 0xAA), []) := by decide
/-- L2.5 row 2. -/
theorem test_decode_printat : decode .host [0x21, 0x00, 0x00, 0x03, 0x31, 0x2E, 0x32] = .ok ((.printat 0 [0x31, 0x2E, 0x32]), []) := by decide
/-- L2.5 row 3. -/
theorem test_decode_print : decode .host [0x22, 0x00] = .ok ((.print []), []) := by decide
/-- R81: high byte first. -/
theorem test_decode_printfat : decode .host [0x23, 0x01, 0x02, 0x01, 0x37] = .ok ((.printfat 0x0102 [0x37]), []) := by decide
/-- R81: 0x00 is an ordinary byte. -/
theorem test_decode_printf : decode .host [0x24, 0x02, 0x00, 0x41] = .ok ((.printf [0x00, 0x41]), []) := by decide
/-- R82. -/
theorem test_decode_strftat : decode .host [0x25, 0x00, 0x03, 0x01, 0x31] = .ok ((.strftat 3 [0x31]), []) := by decide
/-- R82. -/
theorem test_decode_strft : decode .host [0x26, 0x01, 0x31] = .ok ((.strft [0x31]), []) := by decide
/-- R82. -/
theorem test_decode_width : decode .host [0x30] = .ok (.width, []) := by decide
/-- R82. -/
theorem test_decode_height : decode .host [0x31] = .ok (.height, []) := by decide
/-- R72. -/
theorem test_decode_frame_noop : decode .chain [0x00, 0x5A] = .ok (.noop 0x5A, []) := by decide
/-- R72. -/
theorem test_decode_frame_row1 : decode .chain [0x01, 0x5A] = .ok (.row1 0x5A, []) := by decide
/-- R72. -/
theorem test_decode_frame_row2 : decode .chain [0x02, 0x5A] = .ok (.row2 0x5A, []) := by decide
/-- R72. -/
theorem test_decode_frame_row3 : decode .chain [0x03, 0x5A] = .ok (.row3 0x5A, []) := by decide
/-- R72. -/
theorem test_decode_frame_row4 : decode .chain [0x04, 0x5A] = .ok (.row4 0x5A, []) := by decide
/-- R72. -/
theorem test_decode_frame_row5 : decode .chain [0x05, 0x5A] = .ok (.row5 0x5A, []) := by decide
/-- R72. -/
theorem test_decode_frame_row6 : decode .chain [0x06, 0x5A] = .ok (.row6 0x5A, []) := by decide
/-- R72. -/
theorem test_decode_frame_row7 : decode .chain [0x07, 0x5A] = .ok (.row7 0x5A, []) := by decide
/-- R88. -/
theorem test_decode_frame_row8 : decode .chain [0x08, 0x81] = .ok (.row8 0x81, []) := by decide
/-- R72. -/
theorem test_decode_frame_decode : decode .chain [0x09, 0x5A] = .ok (.decode 0x5A, []) := by decide
/-- R72. -/
theorem test_decode_frame_intensity : decode .chain [0x0A, 0x5A] = .ok (.intensity 0x5A, []) := by decide
/-- R88. -/
theorem test_decode_frame_scanlimit : decode .chain [0x0B, 0x07] = .ok (.scanlimit 0x07, []) := by decide
/-- R72. -/
theorem test_decode_frame_shutdown : decode .chain [0x0C, 0x5A] = .ok (.shutdown 0x5A, []) := by decide
/-- R72. -/
theorem test_decode_frame_disptest : decode .chain [0x0F, 0x5A] = .ok (.disptest 0x5A, []) := by decide

/-- L2.5 rows 4 and 5. -/
theorem test_illegal_opcodes : decode .host [0x00] = .error (.opcode 0x00) ∧ decode .host [0x14] = .error (.opcode 0x14) := by
  decide

/-- L2.5 rows 6 and 7. -/
theorem test_truncated : decode .host [0x21, 0x00, 0x00, 0x05, 0x31] = .error .truncated ∧ decode .host [0x01] = .error .truncated := by
  decide

/-- R75. -/
theorem test_reserved_frames : decode .chain [0x0D, 0x00] = .error (.reserved 0x0D) ∧
    decode .chain [0x0E, 0x00] = .error (.reserved 0x0E) ∧ decode .chain [0x18, 0x00] = .error (.reserved 0x18) := by decide

/-- The table's numbering: the opcode is a command's first byte, the register a frame's bits 15:8. -/
theorem test_table_words : decodeTableWord 8 0x20 = some (.setcol 0 0) ∧ decodeTableWord 16 0x0B07 = some (.scanlimit 0x07) ∧
    decodeTableWord 8 0x32 = none ∧ decodeTableWord 16 0x0E00 = none := by decide

/-- R86's examples, and its escapes. -/
theorem test_assemble : assemble "SETINT 5".toList = some (.setint 5) ∧ assemble "SETUP".toList = some .setup ∧
    assemble "SETCOL 9, 0xAA".toList = some (.setcol 9 0xAA) ∧
    assemble "PRINTAT 3, \"1.2\"".toList = some (.printat 3 [0x31, 0x2E, 0x32]) ∧
    assemble "PRINT \"A\\x7F\\\"\\\\\"".toList = some (.print [0x41, 0x7F, 0x22, 0x5C]) ∧
    assemble "DRAW_DONE".toList = some .drawDone ∧ assemble "SETINT 256".toList = none := by decide +kernel

/-- R101's example: the bits of 0x08. -/
theorem test_wire_bits : wireBits 0x08 = [false, false, false, false, true, false, false, false] := by decide

/-! ### Instructions -/

/-- L2.4 row 1. -/
theorem test_setint : (after (.setint 15) blank).intensity = some 15 := by decide

/-- L2.4 row 2. -/
theorem test_setint_range : (after (.setint 16) blank).refusalLog = [(.rRange, .instr (.setint 16))] := by decide

/-- L2.4 row 5. -/
theorem test_setchips_zero : (after (.setchips 0) blank).refusalLog = [(.rRange, .instr (.setchips 0))] := by decide

/-- L2.4 row 7. -/
theorem test_setchips_frozen : (after (.setchips 2) one).refusalLog = [(.rFrozen, .instr (.setchips 2))] ∧
    (after (.setchips 2) one).chips = some 1 := by decide

/-- L2.4 row 8. -/
theorem test_setwr : (after (.setwr 1) blank).writer = some 1 := by decide

/-- L2.4 row 9. -/
theorem test_setwr_bad : (after (.setwr 2) blank).refusalLog = [(.rBadWriter, .instr (.setwr 2))] := by decide

/-- L2.1 row 7. -/
theorem test_setup_trace : (after .setup (ready 1 0)).busTrace =
    txn [0x0C, 0x00] ++ txn [0x0F, 0x00] ++ txn [0x0B, 0x07] ++ txn [0x09, 0x00] ++ txn [0x0A, 0x00] ++ [.delay 250]
      ++ txn [0x08, 0x00] ++ txn [0x07, 0x00] ++ txn [0x06, 0x00] ++ txn [0x05, 0x00] ++ txn [0x04, 0x00] ++ txn [0x03, 0x00]
      ++ txn [0x02, 0x00] ++ txn [0x01, 0x00] ++ txn [0x0C, 0x01] := by decide +kernel

/-- L2.6 row 1, at the second of two chips. -/
theorem test_setup_chain : (after .setup (ready 2 9)).chip 1 =
    { row1 := some 0, row2 := some 0, row3 := some 0, row4 := some 0, row5 := some 0, row6 := some 0, row7 := some 0, row8 := some 0
      decode := some 0, intensity := some 9, scanLimit := some 7, shutdown := some 1, dispTest := some 0 } := by decide +kernel

/-- L2.2 row 3. -/
theorem test_update_no_writer :
    (after .update (running 1 ⟨8, (List.range 8).map fun c => (c, 0xFF)⟩)).busTrace =
      txn [0x08, 0x00] ++ txn [0x07, 0x00] ++ txn [0x06, 0x00] ++ txn [0x05, 0x00] ++ txn [0x04, 0x00] ++ txn [0x03, 0x00]
        ++ txn [0x02, 0x00] ++ txn [0x01, 0x00] := by decide +kernel

/-- L2.2 row 4. -/
theorem test_update_writer : (after .update { running 1 ⟨8, [(3, 0xFF)]⟩ with writer := some 0 }).phase = .inCallback ∧
    (after .update { running 1 ⟨8, [(3, 0xFF)]⟩ with writer := some 0 }).fb = some (.zeros 8) ∧
    (after .update { running 1 ⟨8, [(3, 0xFF)]⟩ with writer := some 0 }).busTrace = [] := by decide

/-- L1.9: register 8 first. -/
theorem test_display_trace :
    (after .display (running 1 ⟨8, (List.range 8).map fun c => (c, BitVec.ofNat 8 (0x10 + c))⟩)).busTrace =
      txn [0x08, 0x10] ++ txn [0x07, 0x11] ++ txn [0x06, 0x12] ++ txn [0x05, 0x13] ++ txn [0x04, 0x14] ++ txn [0x03, 0x15]
        ++ txn [0x02, 0x16] ++ txn [0x01, 0x17] := by decide +kernel

/-- L2.2 row 2: three chips, column `c` holding `c`. -/
theorem test_display_chain :
    (after .display (running 3 ⟨24, (List.range 23).map fun c => (c + 1, BitVec.ofNat 8 (c + 1))⟩)).chipReg 1 0x01 = some 0x0F ∧
    (after .display (running 3 ⟨24, (List.range 23).map fun c => (c + 1, BitVec.ofNat 8 (c + 1))⟩)).chipReg 2 0x08 = some 0x10 ∧
    (after .display (running 3 ⟨24, (List.range 23).map fun c => (c + 1, BitVec.ofNat 8 (c + 1))⟩)).chipReg 0 0x05 = some 0x03 := by
  decide +kernel

/-- L2.2 row 5. -/
theorem test_draw_done : (after .drawDone (window 1 ⟨8, [(0, 0x81)]⟩)).phase = .running ∧
    (after .drawDone (window 1 ⟨8, [(0, 0x81)]⟩)).busTrace =
      txn [0x08, 0x81] ++ txn [0x07, 0x00] ++ txn [0x06, 0x00] ++ txn [0x05, 0x00] ++ txn [0x04, 0x00] ++ txn [0x03, 0x00]
        ++ txn [0x02, 0x00] ++ txn [0x01, 0x00] := by decide +kernel

/-- L2.2 row 7. -/
theorem test_draw_done_outside : (after .drawDone one).refusalLog = [(.rContext, .instr .drawDone)] := by decide

/-- L2.4 row 10. -/
theorem test_setcol : (after (.setcol 15 0x3C) (running 2 (.zeros 16))).fb = some ⟨16, [(15, 0x3C)]⟩ := by decide

/-- L2.4 row 11, L1.7: out of range nothing changes, nothing is logged. -/
theorem test_setcol_out : (after (.setcol 16 0x3C) (running 2 (.zeros 16))).fb = some (.zeros 16) ∧
    (after (.setcol 16 0x3C) (running 2 (.zeros 16))).logTrace = [] ∧ (after (.setcol 16 0x3C) (running 2 (.zeros 16))).faulted = false := by
  decide

/-- L1.6: `PRINTAT 5, "ABCD"`. -/
theorem test_printat_truncates :
    (after (.printat 5 [0x41, 0x42, 0x43, 0x44]) one).fb = some ⟨8, [(5, 0x22), (6, 0x23), (7, 0x24)]⟩ ∧
    (after (.printat 5 [0x41, 0x42, 0x43, 0x44]) one).logTrace = [.overflow 8] ∧
    (after (.printat 5 [0x41, 0x42, 0x43, 0x44]) one).results = [3] := by decide

/-- L2.3 row 18: the byte that does not fit is warned of before the overflow. -/
theorem test_printat_warns_first : (after (.printat 7 [0x41, 0x7F]) one).logTrace = [.unknownGlyph 0x7F 8, .overflow 8] := by decide

/-- L1.4: `PRINT "1.2"`. -/
theorem test_print_dot : (after (.print [0x31, 0x2E, 0x32]) one).fb = some ⟨8, [(0, 0x92), (1, 0x13)]⟩ ∧
    (after (.print [0x31, 0x2E, 0x32]) one).results = [2] := by decide

/-- L2.3 row 19: an unknown byte, then a dot. -/
theorem test_print_unknown_dot : (after (.print [0x31, 0xFF, 0x2E]) one).fb = some ⟨8, [(0, 0x12), (1, 0xF7)]⟩ ∧
    (after (.print [0x31, 0xFF, 0x2E]) one).logTrace = [.unknownGlyph 0xFF 1] := by decide

/-- L2.3 row 22. -/
theorem test_printfat : (after (.printfat 2 [0x37]) one).fb = some ⟨8, [(2, 0x18)]⟩ := by decide

/-- L2.3 row 21: 70 bytes, 63 kept. -/
theorem test_printf_capacity : (after (.printf (List.replicate 70 0x31)) (running 255 (.zeros 2040))).results = [63] := by
  decide +kernel

/-- L1.11. -/
theorem test_printf_empty : (after (.printf []) one).results = [0] ∧ (after (.printf []) one).fb = some (.zeros 8) := by decide

/-- L2.3 row 24: `STRFTAT 0, "12.34"`. -/
theorem test_strftat : (after (.strftat 0 [0x31, 0x32, 0x2E, 0x33, 0x34]) one).fb
    = some ⟨8, [(0, 0x12), (1, 0x93), (2, 0x14), (3, 0x15)]⟩ := by decide

/-- L2.3 row 23. -/
theorem test_strft_no_source : (after (.strft [0x31]) { one with par := { testPar with timeSource := false } }).refusalLog
    = [(.rNoTimesrc, .instr (.strft [0x31]))] := by decide

/-- L2.3 row 25. -/
theorem test_strft_too_long : (after (.strft (List.replicate 64 0x31)) one).refusalLog
    = [(.rTooLong, .instr (.strft (List.replicate 64 0x31)))] := by decide +kernel

/-- L2.4 row 14. -/
theorem test_width : (after .width (ready 3 0)).results = [24] := by decide

/-- L2.4 row 13. -/
theorem test_width_unset : (after .width blank).faultLog = [(.fUnset, .instr .width)] ∧ (after .width blank).results = [] := by decide

/-- L2.4 row 15. -/
theorem test_height : (after .height blank).results = [8] := by decide

/-- R201: the chip keeps every cell. -/
theorem test_noop_frame : (after (.noop 0x5A) { one with rxChip := 0 }).chip 0 = ChipImage.unknown := by decide

/-- R202, R72: cell 0x01. -/
theorem test_row1_frame : (after (.row1 0x5A) { running 2 (.zeros 16) with rxChip := 1 }).chipReg 1 0x01 = some 0x5A := by decide
/-- R202, R72: cell 0x02. -/
theorem test_row2_frame : (after (.row2 0x5A) { running 2 (.zeros 16) with rxChip := 1 }).chipReg 1 0x02 = some 0x5A := by decide
/-- R202, R72: cell 0x03. -/
theorem test_row3_frame : (after (.row3 0x5A) { running 2 (.zeros 16) with rxChip := 1 }).chipReg 1 0x03 = some 0x5A := by decide
/-- R202, R72: cell 0x04. -/
theorem test_row4_frame : (after (.row4 0x5A) { running 2 (.zeros 16) with rxChip := 1 }).chipReg 1 0x04 = some 0x5A := by decide
/-- R202, R72: cell 0x05. -/
theorem test_row5_frame : (after (.row5 0x5A) { running 2 (.zeros 16) with rxChip := 1 }).chipReg 1 0x05 = some 0x5A := by decide
/-- R202, R72: cell 0x06. -/
theorem test_row6_frame : (after (.row6 0x5A) { running 2 (.zeros 16) with rxChip := 1 }).chipReg 1 0x06 = some 0x5A := by decide
/-- R202, R72: cell 0x07. -/
theorem test_row7_frame : (after (.row7 0x5A) { running 2 (.zeros 16) with rxChip := 1 }).chipReg 1 0x07 = some 0x5A := by decide
/-- R202, R72: cell 0x08. -/
theorem test_row8_frame : (after (.row8 0x5A) { running 2 (.zeros 16) with rxChip := 1 }).chipReg 1 0x08 = some 0x5A := by decide
/-- R203, R72: cell 0x09. -/
theorem test_decode_frame : (after (.decode 0x5A) { running 2 (.zeros 16) with rxChip := 1 }).chipReg 1 0x09 = some 0x5A := by decide
/-- R204, R72: cell 0x0A. -/
theorem test_intensity_frame : (after (.intensity 0x5A) { running 2 (.zeros 16) with rxChip := 1 }).chipReg 1 0x0A = some 0x5A := by decide
/-- R205, R72: cell 0x0B. -/
theorem test_scanlimit_frame : (after (.scanlimit 0x5A) { running 2 (.zeros 16) with rxChip := 1 }).chipReg 1 0x0B = some 0x5A := by decide
/-- R206, R72: cell 0x0C. -/
theorem test_shutdown_frame : (after (.shutdown 0x5A) { running 2 (.zeros 16) with rxChip := 1 }).chipReg 1 0x0C = some 0x5A := by decide
/-- R207, R72: cell 0x0F. -/
theorem test_disptest_frame : (after (.disptest 0x5A) { running 2 (.zeros 16) with rxChip := 1 }).chipReg 1 0x0F = some 0x5A := by decide

/-- L2.1 row 2. -/
theorem test_broadcast : (did (broadcast 0x0B 0x07) (ready 3 0)).busTrace = txn [0x0B, 0x07, 0x0B, 0x07, 0x0B, 0x07] := by
  decide +kernel

/-- L2.1 row 4. -/
theorem test_write_one : (did (writeOne 2 0x0A 0x03) (ready 3 0)).busTrace = txn [0x00, 0x00, 0x00, 0x00, 0x0A, 0x03] := by
  decide +kernel

/-- P1's bytes: the first command runs and the others stay (R81, R64). -/
theorem test_step_takes_one_command :
    step { blank with inbox := [.command [0x02, 0x02, 0x01, 0x08, 0x10, 0x30]] }
      = .next { blank with chips := some 2, inbox := [.command [0x01, 0x08, 0x10, 0x30]] } := rfl

/-- R272: a run has not ended while a command waits, a window is open or a mark is set. -/
theorem test_completed : one.completed = true ∧ ({ one with inbox := [.command [0x12]] } : State).completed = false ∧
    (window 1 (.zeros 8)).completed = false ∧ ({ one with refused := true } : State).completed = false := by decide

/-- The host's placing of a word: the step after reset runs it. -/
theorem test_fetch_word : step (State.reset.withFetchWord 8 0x02) = exec (.setchips 0) State.reset ∧
    step (State.reset.withFetchWord 16 0x0C01) = exec (.shutdown 0x01) State.reset := ⟨rfl, rfl⟩

/-! ### Witnesses: concrete states and operands that meet the hypotheses of each statement, clause by clause -/

theorem chain_one : one.chain.length = 255 := State.reset_chain_length

/-- `RUNNING` states are drawable. -/
theorem drawable_running (n : Byte) (m : Memory) (hs : m.size = 8 * n.toNat) (hw : m.wf = true) : (running n m).Drawable n m :=
  ⟨by simp [running], rfl, rfl, hs, hw, rfl, by simp [running, ready, blank, testPar], State.reset_chain_length⟩

/-- Windows are drawable. -/
theorem drawable_window (n : Byte) (m : Memory) (hs : m.size = 8 * n.toNat) (hw : m.wf = true) : (window n m).Drawable n m :=
  ⟨by simp [window], rfl, rfl, hs, hw, rfl, by simp [window, running, ready, blank, testPar], State.reset_chain_length⟩

theorem drawable_one : one.Drawable 1 (.zeros 8) := drawable_running 1 _ rfl rfl

/-- One chip, `RUNNING`, with this in the inbox: the invariant holds. -/
theorem inv_one (inbox : List Input) : State.Inv { one with inbox := inbox } :=
  { noBufferIffPreSetup := by simp [one, running]
    chipsRange := fun n h => by cases h; decide
    intensityRange := fun v h => by cases h; decide
    settingsKnown := fun _ => ⟨by simp [one, running, ready], by simp [one, running, ready]⟩
    bufferSize := fun m n hm hn => by cases hm; cases hn; rfl
    bufferWf := fun m hm => by cases hm; rfl
    noOpenTransaction := rfl
    traceBracketed := fun n _ => rfl
    traceEmptyPreSetup := fun _ => rfl
    writerKnown := fun w h => by cases h
    windowHasWriter := fun h => by cases h
    faultMark := rfl
    refusalMark := rfl
    glyphRom := by simp [one, running, ready, blank, testPar]
    chainLength := State.reset_chain_length }

theorem witness_EveryStepKeepsTheInvariant :
    ∃ s t : State, s.Inv ∧ s.inbox = [.command [0x20, 0x00, 0x07, 0xAA]] ∧ step s = .next t :=
  ⟨{ one with inbox := [.command [0x20, 0x00, 0x07, 0xAA]] }, _, inv_one _, rfl, rfl⟩

theorem witness_MarksAreSticky : ∃ s t : State, step s = .next t ∧ s.faulted = true ∧ s.refused = true :=
  ⟨{ one with faulted := true, refused := true, inbox := [.command [0x31]] }, _, rfl, rfl, rfl⟩

theorem witness_TracesOnlyGrow : ∃ s t : State, step s = .next t ∧ t.results = [8] :=
  ⟨{ one with inbox := [.command [0x31]] }, _, rfl, rfl⟩

theorem witness_ParametersNeverChange : ∃ s t : State, step s = .next t ∧ t.writer = some 1 :=
  ⟨{ one with inbox := [.command [0x03, 0x01]] }, _, rfl, rfl⟩

theorem witness_DecodeOfEncodeIsTheInstruction :
    (Instr.strft []).wellFormed = true ∧ (Instr.printat 0xFFFF (List.replicate 255 0x2E)).wellFormed = true :=
  ⟨rfl, by decide +kernel⟩

theorem witness_DecodedBytesAreTheEncoding :
    decode .host [0x22, 0x01, 0x41, 0x31] = .ok (.print [0x41], [0x31]) ∧ decode .chain [0x0F, 0x00] = .ok (.disptest 0x00, []) :=
  ⟨rfl, rfl⟩

theorem witness_TruncatedCommandsAreInvalid :
    (Instr.printat 5 [0x41]).wellFormed = true ∧ (Instr.printat 5 [0x41]).port = .host ∧
      0 < (encode (.printat 5 [0x41])).length ∧ 4 < (encode (.printat 5 [0x41])).length := ⟨rfl, rfl, by decide, by decide⟩

/-- The ends of every range of unused opcodes, and the strings of an unused opcode, of a command cut short and of no byte at all. -/
theorem witness_UndecodableCommandsAreRefused :
    (∀ op ∈ [0x00, 0x04, 0x0F, 0x14, 0x1F, 0x27, 0x2F, 0x32, (0xFF : Byte)],
      op.toNat = 0x00 ∨ (0x04 ≤ op.toNat ∧ op.toNat ≤ 0x0F) ∨ (0x14 ≤ op.toNat ∧ op.toNat ≤ 0x1F) ∨
        (0x27 ≤ op.toNat ∧ op.toNat ≤ 0x2F) ∨ 0x32 ≤ op.toNat) ∧
      (∃ s : State, s.inbox = .command [0x14, 0x01] :: [] ∧ decode .host [0x14, 0x01] = .error (.opcode 0x14)) ∧
      (∃ s : State, s.inbox = .command [0x22, 0x02, 0x41] :: [] ∧ decode .host [0x22, 0x02, 0x41] = .error .truncated) ∧
      ∃ s : State, s.inbox = .command [] :: [] ∧ decode .host [] = .error .truncated :=
  ⟨by decide, ⟨{ one with inbox := [.command [0x14, 0x01]] }, rfl, rfl⟩,
    ⟨{ one with inbox := [.command [0x22, 0x02, 0x41]] }, rfl, rfl⟩, { one with inbox := [.command []] }, rfl, rfl⟩

theorem witness_StepRunsTheDecodedCommand : ∃ s : State, s.inbox = .command [0x13, 0x30] :: [] ∧
    decode .host [0x13, 0x30] = .ok (.drawDone, [0x30]) := ⟨{ one with inbox := [.command [0x13, 0x30]] }, rfl, rfl⟩

theorem witness_StepRunsTheReceivedFrame : ∃ s : State, s.inbox = .frame 0 0x0A 0x0F :: [] ∧
    decode .chain [0x0A, 0x0F] = .ok (.intensity 0x0F, []) := ⟨{ one with inbox := [.frame 0 0x0A 0x0F] }, rfl, rfl⟩

theorem witness_SetintStoresTheIntensity :
    blank.phase ≠ .inCallback ∧ one.phase ≠ .inCallback ∧ (15 : Byte).toNat ≤ 15 ∧ 15 < (16 : Byte).toNat ∧
      (window 1 (.zeros 8)).phase = .inCallback := by decide

theorem witness_SetchipsStoresTheCountBeforeSetup :
    blank.phase = .preSetup ∧ 1 ≤ (1 : Byte).toNat ∧ 1 ≤ (255 : Byte).toNat ∧ (0 : Byte).toNat = 0 ∧ one.phase = .running ∧
      (window 1 (.zeros 8)).phase = .inCallback := by decide

theorem witness_SetwrRegistersTheWriter :
    blank.phase ≠ .inCallback ∧ one.phase ≠ .inCallback ∧ (1 : Byte).toNat < blank.par.writerCount ∧
      blank.par.writerCount ≤ (2 : Byte).toNat ∧ (window 1 (.zeros 8)).phase = .inCallback := by decide

theorem witness_SettingsAreWrittenBySettersOnly :
    (exec (.setchips 1) blank = .next (after (.setchips 1) blank) ∧ (after (.setchips 1) blank).chips ≠ blank.chips) ∧
      (exec (.setint 15) one = .next (after (.setint 15) one) ∧ (after (.setint 15) one).intensity ≠ one.intensity) ∧
      (exec (.setwr 1) one = .next (after (.setwr 1) one) ∧ (after (.setwr 1) one).writer ≠ one.writer) :=
  ⟨⟨rfl, by decide⟩, ⟨rfl, by decide⟩, ⟨rfl, by decide⟩⟩

/-- The hypotheses of the statements about a successful `SETUP`, with one chip and with the most there can be. -/
theorem witness_SetupRunsTheInitializationSequence :
    ((ready 1 15).phase = .preSetup ∧ (ready 1 15).chips = some 1 ∧ (ready 1 15).intensity = some 15 ∧ (ready 1 15).txnOpen = false) ∧
      ((ready 255 0).phase = .preSetup ∧ (ready 255 0).chips = some 255 ∧ (ready 255 0).txnOpen = false) ∧
      (blank.phase = .preSetup ∧ blank.chips = none) ∧ ({ ready 1 0 with intensity := none } : State).intensity = none ∧
      one.phase = .running ∧ (window 1 (.zeros 8)).phase = .inCallback :=
  ⟨⟨rfl, rfl, rfl, rfl⟩, ⟨rfl, rfl, rfl⟩, ⟨rfl, rfl⟩, rfl, rfl, rfl⟩

theorem witness_SetupEmitsFourteenTransactions : ∃ t : State, (ready 1 15).phase = .preSetup ∧ (ready 1 15).chips = some 1 ∧
    (ready 1 15).intensity = some 15 ∧ (ready 1 15).txnOpen = false ∧ exec .setup (ready 1 15) = .next t := by
  obtain ⟨t, h⟩ := exec_next .setup (ready 1 15)
  exact ⟨t, rfl, rfl, rfl, rfl, h⟩

theorem witness_SetupProgramsEveryChip : ∃ t : State, (ready 1 15).phase = .preSetup ∧ (ready 1 15).chips = some 1 ∧
    (ready 1 15).intensity = some 15 ∧ (ready 1 15).txnOpen = false ∧ (ready 1 15).chain.length = 255 ∧
    exec .setup (ready 1 15) = .next t ∧ 0 < (1 : Byte).toNat ∧ (1 : Byte).toNat ≤ 1 := by
  obtain ⟨t, h⟩ := exec_next .setup (ready 1 15)
  exact ⟨t, rfl, rfl, rfl, rfl, State.reset_chain_length, h, by decide, by decide⟩

theorem witness_RefreshSerializesTheBuffer : (running 2 ⟨16, [(15, 0x3C)]⟩).Drawable 2 ⟨16, [(15, 0x3C)]⟩ ∧ 1 < (2 : Byte).toNat :=
  ⟨drawable_running 2 _ rfl rfl, by decide⟩

theorem witness_DisplaySendsTheBuffer : one.Drawable 1 (.zeros 8) ∧ one.phase = .running ∧ blank.phase = .preSetup ∧
    (window 1 (.zeros 8)).phase = .inCallback := ⟨drawable_one, rfl, rfl, rfl⟩

theorem witness_DisplayTwiceSendsTheSame : ∃ t u : State, one.Drawable 1 (.zeros 8) ∧ one.phase = .running ∧
    exec .display one = .next t ∧ exec .display t = .next u := by
  obtain ⟨t, ht⟩ := exec_next .display one
  obtain ⟨u, hu⟩ := exec_next .display t
  exact ⟨t, u, drawable_one, rfl, ht, hu⟩

theorem witness_UpdateWithoutWriterClearsAndSends : one.Drawable 1 (.zeros 8) ∧ one.phase = .running ∧ one.writer = none ∧
    blank.phase = .preSetup ∧ (window 1 (.zeros 8)).phase = .inCallback := ⟨drawable_one, rfl, rfl, rfl, rfl⟩

theorem witness_IdleUpdateCycleSendsZeros : ∃ t : State, (running 2 ⟨16, [(15, 0x3C)]⟩).Drawable 2 ⟨16, [(15, 0x3C)]⟩ ∧
    (running 2 ⟨16, [(15, 0x3C)]⟩).phase = .running ∧ (running 2 ⟨16, [(15, 0x3C)]⟩).writer = none ∧
    exec .update (running 2 ⟨16, [(15, 0x3C)]⟩) = .next t := by
  obtain ⟨t, ht⟩ := exec_next .update (running 2 ⟨16, [(15, 0x3C)]⟩)
  exact ⟨t, drawable_running 2 _ rfl rfl, rfl, rfl, ht⟩

/-- `RUNNING`, with a writer. -/
def withWriter : State := { one with writer := some 0 }

theorem drawable_withWriter : withWriter.Drawable 1 (.zeros 8) :=
  ⟨by decide, rfl, rfl, rfl, rfl, rfl, by simp [withWriter, one, running, ready, blank, testPar], State.reset_chain_length⟩

theorem witness_UpdateWithWriterOpensTheWindow : withWriter.Drawable 1 (.zeros 8) ∧ withWriter.phase = .running ∧
    withWriter.writer = some 0 := ⟨drawable_withWriter, rfl, rfl⟩

theorem witness_DrawDoneSendsAndClosesTheWindow : (window 1 (.zeros 8)).Drawable 1 (.zeros 8) ∧
    (window 1 (.zeros 8)).phase = .inCallback ∧ one.phase ≠ .inCallback ∧ blank.phase ≠ .inCallback :=
  ⟨drawable_window 1 _ rfl rfl, rfl, by decide, by decide⟩

theorem witness_EmptyWindowIsAnUpdateWithoutWriter : ∃ t u : State, withWriter.Drawable 1 (.zeros 8) ∧
    withWriter.phase = .running ∧ withWriter.writer = some 0 ∧ exec .update withWriter = .next t ∧ exec .drawDone t = .next u := by
  obtain ⟨t, ht⟩ := exec_next .update withWriter
  obtain ⟨u, hu⟩ := exec_next .drawDone t
  exact ⟨t, u, drawable_withWriter, rfl, rfl, ht, hu⟩

theorem witness_DisplayShowsTheBufferOnTheChain : ∃ t : State, (running 2 ⟨16, [(15, 0x3C)]⟩).Drawable 2 ⟨16, [(15, 0x3C)]⟩ ∧
    (running 2 ⟨16, [(15, 0x3C)]⟩).phase = .running ∧ exec .display (running 2 ⟨16, [(15, 0x3C)]⟩) = .next t ∧
    1 < (2 : Byte).toNat := by
  obtain ⟨t, ht⟩ := exec_next .display (running 2 ⟨16, [(15, 0x3C)]⟩)
  exact ⟨t, drawable_running 2 _ rfl rfl, rfl, ht, by decide⟩

/-- `UPDATE` with a writer changes the phase of a state that meets the invariant. -/
theorem witness_PhaseChangesAsTheLifecycleSays : withWriter.Inv ∧ exec .update withWriter = .next (after .update withWriter) ∧
    (after .update withWriter).phase ≠ withWriter.phase :=
  ⟨{ inv_one [] with writerKnown := fun w h => by cases h; decide, windowHasWriter := fun h => by cases h }, rfl, by decide⟩

theorem witness_UpdateErasesAnEarlierColumn : one.Drawable 1 (.zeros 8) ∧ one.phase = .running ∧
    exec (.setcol 7 0xFF) one = .next (after (.setcol 7 0xFF) one) ∧ exec (.setcol 8 0xFF) one = .next one :=
  ⟨drawable_one, rfl, rfl, rfl⟩

theorem witness_OnlySetupSendsControlRegisters : ∃ t : State, one.Inv ∧ Instr.display.port = .host ∧ Instr.display ≠ .setup ∧
    exec .display one = .next t ∧ 0 < one.chipLimit ∧ 0x0F#8 ∈ controlRegs ∧ Instr.height ∉ [Instr.update, .display, .drawDone] := by
  obtain ⟨t, ht⟩ := exec_next .display one
  exact ⟨t, inv_one [], rfl, by decide, ht, by decide, by decide, by decide⟩

theorem witness_ReservedAddressesAreNeverEmitted : ∃ s t : State, s.Inv ∧ s.inbox = [.command [0x12]] ∧
    (∀ r ∈ sentRegs s.busTrace, reservedReg r = false) ∧ step s = .next t := by
  obtain ⟨t, ht⟩ := exec_next .display one
  exact ⟨{ one with inbox := [.command [0x12]] }, t, inv_one _, rfl, by decide, ht⟩

theorem witness_SetcolWritesOneColumn : one.Drawable 1 (.zeros 8) ∧ (0 : Half).toNat < 8 * (1 : Byte).toNat ∧
    (7 : Half).toNat < 8 * (1 : Byte).toNat ∧ 8 * (1 : Byte).toNat ≤ (8 : Half).toNat ∧
    8 * (1 : Byte).toNat ≤ (0xFFFF : Half).toNat ∧ blank.phase = .preSetup :=
  ⟨drawable_one, by decide, by decide, by decide, by decide, rfl⟩

theorem witness_WidthReturnsEightPerChip : one.chips = some 1 ∧ (ready 255 0).chips = some 255 ∧ blank.chips = none :=
  ⟨rfl, rfl, rfl⟩

theorem witness_PrintRendersTheString : one.Drawable 1 (.zeros 8) ∧ blank.phase = .preSetup := ⟨drawable_one, rfl⟩

theorem witness_PrintfRendersAtMost63Bytes : one.Drawable 1 (.zeros 8) ∧ blank.phase = .preSetup := ⟨drawable_one, rfl⟩

theorem witness_StrftRendersTheTimeString : one.Drawable 1 (.zeros 8) ∧ one.par.timeSource = true ∧
    (List.replicate 63 (0x31 : Byte)).length ≤ 63 := ⟨drawable_one, rfl, by simp⟩

theorem witness_StrftTestsComeInOrder : ({ one with par := { testPar with timeSource := false } } : State).par.timeSource = false ∧
    (blank.par.timeSource = true ∧ blank.phase = .preSetup) ∧ one.par.timeSource = true ∧ one.phase ≠ .preSetup ∧
    63 < (List.replicate 64 (0x31 : Byte)).length := ⟨rfl, ⟨rfl, rfl⟩, rfl, by decide, by simp⟩

theorem witness_DefaultColumnIsZero : one.Drawable 1 (.zeros 8) ∧ one.par.timeSource = true ∧
    (List.replicate 63 (0x31 : Byte)).length ≤ 63 := ⟨drawable_one, rfl, by simp⟩

theorem witness_RenderingObeysItsLaws : one.Drawable 1 (.zeros 8) ∧ 7 < 8 * (1 : Byte).toNat ∧ 8 * (1 : Byte).toNat ≤ 8 ∧
    (∀ ch ∈ [0x41, (0x7F : Byte)], ch ≠ 0x2E) ∧ 6 + [0x41, (0x7F : Byte)].length ≤ 8 * (1 : Byte).toNat :=
  ⟨drawable_one, by decide, by decide, by decide, by decide⟩

theorem witness_GlyphsAreSelectedByRange : one.Drawable 1 (.zeros 8) ∧ 7 < 8 * (1 : Byte).toNat ∧
    (∀ ch ∈ [0x20, (0x7D : Byte)], ch ≠ 0x2E ∧ 0x20 ≤ ch.toNat ∧ ch.toNat ≤ 0x7D) ∧
    ∀ ch ∈ [0x00, 0x1F, 0x7E, (0xFF : Byte)], ch ≠ 0x2E ∧ (ch.toNat < 0x20 ∨ 0x7E ≤ ch.toNat) :=
  ⟨drawable_one, by decide, by decide, by decide⟩

theorem witness_DotsCombineWithTheColumnBefore : one.Drawable 1 (.zeros 8) ∧ 7 < 8 * (1 : Byte).toNat ∧ [(0x31 : Byte)] ≠ [] ∧
    (layout [(0x31 : Byte)]).length ≤ 8 * (1 : Byte).toNat - 7 := ⟨drawable_one, by decide, by decide, by decide⟩

theorem witness_OverflowTruncatesAndLogsOnce : one.Drawable 1 (.zeros 8) ∧
    8 * (1 : Byte).toNat - 7 < (layout [0x31, (0x32 : Byte)]).length ∧ 8 * (1 : Byte).toNat - 8 < (layout [(0x2E : Byte)]).length ∧
    8 * (1 : Byte).toNat ≤ 8 := ⟨drawable_one, by decide, by decide, by decide⟩

/-- A refused and a faulting command of states that meet the invariant. -/
theorem witness_MarkedCommandsHaveNoOtherEffect : one.Inv ∧ exec (.setint 16) one = .next (after (.setint 16) one) ∧
    (after (.setint 16) one).refusalLog ≠ one.refusalLog ∧ ∃ s : State, s.Inv ∧ exec .width s = .next (after .width s) ∧
      (after .width s).faultLog ≠ s.faultLog :=
  ⟨inv_one [], rfl, by decide, blank,
    { noBufferIffPreSetup := ⟨fun _ => rfl, fun _ => rfl⟩, chipsRange := fun _ h => (nomatch h), intensityRange := fun _ h => (nomatch h),
      settingsKnown := fun h => absurd rfl h, bufferSize := fun _ _ h => (nomatch h), bufferWf := fun _ h => (nomatch h),
      noOpenTransaction := rfl, traceBracketed := fun _ h => (nomatch h), traceEmptyPreSetup := fun _ => rfl,
      writerKnown := fun _ h => (nomatch h), windowHasWriter := fun h => (nomatch h), faultMark := rfl, refusalMark := rfl,
      glyphRom := by simp [blank, testPar], chainLength := State.reset_chain_length }, rfl, by decide⟩

/-- Fields that change, and commands that are neither of the two settings' readers and setters. -/
theorem witness_FieldsAreWrittenByTheirTableRowsOnly : exec (.setint 1) one = .next (after (.setint 1) one) ∧
    (after (.setint 1) one).intensity ≠ one.intensity ∧ exec (.print [0x2E]) one = .next (after (.print [0x2E]) one) ∧
    (after (.print [0x2E]) one).fb ≠ one.fb ∧ (after (.print [0x2E]) one).results ≠ one.results ∧
    (after (.setwr 1) one).writer ≠ one.writer ∧ (after (.setchips 1) blank).chips ≠ blank.chips ∧
    (Instr.print [0x2E] ≠ .setup ∧ ∀ v, Instr.print [0x2E] ≠ .setint v) ∧
    (Instr.setup ≠ .update ∧ ∀ w, Instr.setup ≠ .setwr w) :=
  ⟨rfl, by decide, rfl, by decide, by decide, by decide, by decide, ⟨by decide, fun _ h => nomatch h⟩, by decide,
    fun _ h => nomatch h⟩

theorem witness_BusPrimitivesKeepTheTransactionState : one.txnOpen = false ∧ ({ one with txnOpen := true } : State).txnOpen = true :=
  ⟨rfl, rfl⟩

theorem witness_FramesLeaveMostSignificantBitFirst : ({ one with txnOpen := true } : State).txnOpen = true := rfl

/-- Two chips, a transaction open that has sent these bytes. -/
def sending (bytes : List Byte) : State :=
  { running 2 (.zeros 16) with txnOpen := true, busTrace := [.delay 250] ++ .txnBegin :: bytes.map .byte }

theorem witness_LatchAppliesFrameJToChipJ :
    (sending [0x0A, 0x01, 0x00, 0x00]).chips = some 2 ∧ (sending [0x0A, 0x01, 0x00, 0x00]).txnOpen = true ∧
      (sending [0x0A, 0x01, 0x00, 0x00]).chain.length = 255 ∧
      (sending [0x0A, 0x01, 0x00, 0x00]).busTrace = [.delay 250] ++ .txnBegin :: [0x0A, 0x01, 0x00, (0x00 : Byte)].map .byte ∧
      [0x0A, 0x01, 0x00, (0x00 : Byte)].length = 2 * (2 : Byte).toNat ∧ [0x0A, 0x01, (0x00 : Byte)].length ≠ 2 * (2 : Byte).toNat :=
  ⟨rfl, rfl, State.reset_chain_length, rfl, rfl, by decide⟩

theorem witness_LatchIsTheFramesMeaning :
    (sending [0x0A, 0x01, 0x0B, 0x07]).chips = some 2 ∧ (sending [0x0A, 0x01, 0x0B, 0x07]).txnOpen = true ∧
      (sending [0x0A, 0x01, 0x0B, 0x07]).chain.length = 255 ∧ [(0x0A, 0x01), ((0x0B : Byte), (0x07 : Byte))].length = (2 : Byte).toNat ∧
      (sending [0x0A, 0x01, 0x0B, 0x07]).busTrace
        = [.delay 250] ++ .txnBegin :: [(0x0A, 0x01), ((0x0B : Byte), (0x07 : Byte))].flatMap (fun f => [.byte f.1, .byte f.2]) ∧
      1 < (2 : Byte).toNat ∧ decode .chain [0x0B, 0x07] = .ok (.scanlimit 0x07, []) :=
  ⟨rfl, rfl, State.reset_chain_length, rfl, rfl, by decide, rfl⟩

theorem witness_BroadcastReachesEveryChip : one.chips = some 1 ∧ one.txnOpen = false ∧ one.chain.length = 255 ∧
    ChipReg.ofAddr 0x0F ≠ none ∧ 0 < (1 : Byte).toNat ∧ (1 : Byte).toNat ≤ 1 := ⟨rfl, rfl, chain_one, by decide, by decide, by decide⟩

theorem witness_WriteOneTargetsOneChip : one.chips = some 1 ∧ one.txnOpen = false ∧ one.chain.length = 255 ∧
    ChipReg.ofAddr 0x01 ≠ none ∧ 0 < (1 : Byte).toNat ∧ (1 : Byte).toNat ≤ 1 := ⟨rfl, rfl, chain_one, by decide, by decide, by decide⟩

theorem witness_MemoryPrimitivesAreBounded : one.fb = some (.zeros 8) ∧ (Memory.zeros 8).wf = true ∧ 7 < (Memory.zeros 8).size ∧
    (Memory.zeros 8).size ≤ 8 := ⟨rfl, rfl, by decide, by decide⟩

theorem witness_RowFramesWriteTheirRegister : one.rxChip < one.chipLimit ∧ one.chain.length = 255 := ⟨by decide, chain_one⟩

theorem witness_ControlFramesWriteTheirRegister : one.rxChip < one.chipLimit ∧ one.chain.length = 255 := ⟨by decide, chain_one⟩

theorem witness_NoopFrameChangesNothing : one.rxChip < one.chipLimit := by decide

theorem witness_FramesBeyondTheChainAreOutOfBounds : (Instr.row1 0).port = .chain ∧
    ({ one with rxChip := 1 } : State).chipLimit ≤ ({ one with rxChip := 1 } : State).rxChip := ⟨rfl, by decide⟩

/-- The ends of the reserved ranges. -/
theorem witness_ReservedFramesUnsettleTheirChip : (∀ r ∈ [0x0D, 0x0E, 0x10, (0xFF : Byte)], reservedReg r = true) ∧
    ({ one with inbox := [.frame 0 0x0D 0x01] } : State).inbox = .frame 0 0x0D 0x01 :: [] ∧ 0 < one.chipLimit ∧
    one.chain.length = 255 := ⟨by decide, rfl, by decide, chain_one⟩

end Sys2Proof.Tests
end

section
/-! What a step does when the head of the inbox is a command that decodes (R11, R21, R81). -/

namespace Sys2Proof.Machine

/-- Only a command with bytes after it leaves something at the head of the inbox. -/
theorem requeue_eq_ite (tail : List Byte) (rest : List Input) :
    requeue tail rest = if tail = [] then rest else .command tail :: rest := by
  cases tail with
  | nil => rfl
  | cons b bs => exact (if_neg (List.cons_ne_nil b bs)).symm

theorem fetch_of_decoded_command {s : State} {bytes tail : List Byte} {rest : List Input} {i : Instr}
    (hinbox : s.inbox = .command bytes :: rest) (hdecode : decode .host bytes = .ok (i, tail)) :
    fetch s = .run i { s with inbox := requeue tail rest } := by
  simp only [fetch, hinbox, hdecode]

theorem step_of_fetch_run {s t : State} {i : Instr} (h : fetch s = .run i t) : step s = exec i t := by
  simp only [step, h]

/-- Settles O13: the fetch takes the command off the inbox and puts the bytes after it back, and the step runs what was
fetched. -/
theorem stepRunsTheDecodedCommand : Obligations.StepRunsTheDecodedCommand := by
  intro s bytes tail rest i hinbox hdecode
  rw [← requeue_eq_ite]
  exact step_of_fetch_run (fetch_of_decoded_command hinbox hdecode)

end Sys2Proof.Machine
end

section
/-! What one step can do (R11, R64): it waits, runs an instruction, drops a string that spells none, or has a chip take a
reserved frame.  What holds of every instruction and of those two holds of the step. -/

namespace Sys2Proof.Machine

/-- The state when the head of the inbox has been taken: `rest` waits, and a frame, if it was one, came in at `chip`. -/
def State.taken (s : State) (rest : List Input) (chip : Nat) : State := { s with inbox := rest, rxChip := chip }

/-- What a step can do. -/
theorem step_cases {s t : State} (h : step s = .next t) :
    t = s ∨ ∃ rest chip,
      (∃ i, exec i (s.taken rest chip) = .next t) ∨
      (∃ bytes, t = (s.taken rest chip).markRefusal .rIllegal (.bytes bytes)) ∨
      ∃ reg val, receiveReserved reg val (s.taken rest chip) = .next t := by
  simp only [step, fetch] at h
  cases hin : s.inbox with
  | nil =>
    simp only [hin] at h
    cases h
    exact .inl rfl
  | cons input rest =>
    refine .inr ?_
    cases input with
    | command bytes =>
      cases hd : decode .host bytes with
      | ok decoded =>
        simp only [hin, hd] at h
        exact ⟨requeue decoded.2 rest, s.rxChip, .inl ⟨decoded.1, h⟩⟩
      | error e =>
        simp only [hin, hd] at h
        cases h
        exact ⟨rest, s.rxChip, .inr (.inl ⟨bytes, rfl⟩)⟩
    | frame chip reg val =>
      cases hd : decode .chain [reg, val] with
      | ok decoded =>
        simp only [hin, hd] at h
        exact ⟨rest, chip, .inl ⟨decoded.1, h⟩⟩
      | error e =>
        simp only [hin, hd] at h
        exact ⟨rest, chip, .inr (.inr ⟨reg, val, h⟩)⟩

/-- A reserved frame reaches its chip, or is `F_OOB` at a position that is no chip's (R210, R234). -/
theorem receiveReserved_cases {reg val : Byte} {s t : State} (h : receiveReserved reg val s = .next t) :
    t = { s with chain := updateChip (·.receive reg val) s.rxChip s.chain } ∨
      t = s.markFault (.fOob s.rxChip) (.bytes [reg, val]) := by
  simp only [receiveReserved] at h
  by_cases hr : s.rxChip < s.chipLimit
  · rw [chipReceives_ok reg val hr] at h
    cases h
    exact .inl rfl
  · rw [chipReceives_oob reg val (Nat.not_lt.mp hr)] at h
    cases h
    exact .inr rfl

/-- Taking the head of the inbox changes nothing that `Grows` speaks of. -/
theorem Grows.of_taken {s t : State} {rest : List Input} {chip : Nat} (h : Grows (s.taken rest chip) t) : Grows s t :=
  ⟨h.bus, h.log, h.results, h.faulted, h.refused, h.par⟩

theorem receiveReserved_grows {reg val : Byte} {s t : State} (h : receiveReserved reg val s = .next t) : Grows s t := by
  rcases receiveReserved_cases h with rfl | rfl
  · exact ⟨(Grows.refl s).bus, (Grows.refl s).log, (Grows.refl s).results, id, id, rfl⟩
  · exact (Grows.refl s).markFault _ _

/-- Every step keeps what `Grows` says, whatever the state. -/
theorem step_grows {s t : State} (h : step s = .next t) : Grows s t := by
  rcases step_cases h with rfl | ⟨rest, chip, ⟨i, hi⟩ | ⟨bytes, rfl⟩ | ⟨reg, val, hr⟩⟩
  · exact Grows.refl t
  · exact (exec_grows hi).of_taken
  · exact ((Grows.refl _).markRefusal _ _).of_taken
  · exact (receiveReserved_grows hr).of_taken

/-- A marked state is never the end of a completed run (R31, R272). -/
theorem State.completed_of_marked {s : State} (h : s.faulted = true ∨ s.refused = true) : s.completed = false := by
  rcases h with h | h <;> simp [State.completed, h]

/-- Settles O5: a step only grows the marks, and a marked state is not completed. -/
theorem marksAreSticky : Obligations.MarksAreSticky := by
  intro s t h
  have hg := step_grows h
  exact ⟨hg.faulted, hg.refused, fun hm =>
    ⟨State.completed_of_marked hm, State.completed_of_marked (hm.imp hg.faulted hg.refused)⟩⟩

/-- Settles O6: the traces and the results are among what every step only extends. -/
theorem tracesOnlyGrow : Obligations.TracesOnlyGrow := fun _ _ h =>
  have hg := step_grows h
  ⟨hg.bus, hg.log, hg.results⟩

/-- Settles O7: the parameters are among what every step leaves. -/
theorem parametersNeverChange : Obligations.ParametersNeverChange := fun _ _ h => (step_grows h).par

end Sys2Proof.Machine
end

section
/-! The invariant (R38): it holds at reset, and taking from the inbox, marking, and every effect of an instruction keep it. -/

namespace Sys2Proof.Machine

/-- Settles O2, field by field: nothing is set, nothing has been sent, and the chain and the ROM have their lengths. -/
theorem resetMeetsTheInvariant : Obligations.ResetMeetsTheInvariant where
  noBufferIffPreSetup := ⟨fun _ => rfl, fun _ => rfl⟩
  chipsRange _ h := nomatch h
  intensityRange _ h := nomatch h
  settingsKnown h := absurd rfl h
  bufferSize _ _ h := nomatch h
  bufferWf _ h := nomatch h
  noOpenTransaction := rfl
  traceBracketed _ h := nomatch h
  traceEmptyPreSetup _ := rfl
  writerKnown _ h := nomatch h
  windowHasWriter h := nomatch h
  faultMark := rfl
  refusalMark := rfl
  glyphRom := State.reset_glyphs_length
  chainLength := State.reset_chain_length

section Keeping

variable {s : State}

theorem State.Inv.taken (h : s.Inv) (rest : List Input) (chip : Nat) : (s.taken rest chip).Inv := { h with }

theorem State.Inv.markFault (h : s.Inv) (f : Fault) (c : Issued) : (s.markFault f c).Inv :=
  { h with faultMark := by simp }

theorem State.Inv.markRefusal (h : s.Inv) (r : Refusal) (c : Issued) : (s.markRefusal r c).Inv :=
  { h with refusalMark := by simp }

/-- A frame at one chip keeps the number of positions. -/
theorem State.Inv.chipUpdated (h : s.Inv) (f : ChipImage → ChipImage) (j : Nat) :
    State.Inv { s with chain := updateChip f j s.chain } :=
  { h with chainLength := (updateChip_length f j s.chain).trans h.chainLength }

/-- The log and the results are free. -/
theorem State.Inv.replied (h : s.Inv) (log : List LogEvent) (results : List Nat) :
    State.Inv { s with logTrace := log, results := results } := { h with }

/-- Another buffer of the same size in canonical form keeps the invariant after setup. -/
theorem State.Inv.rebuffered (h : s.Inv) {n : Byte} {m m' : Memory} (hd : s.Drawable n m) (hsize : m'.size = m.size)
    (hwf : m'.wf = true) : State.Inv { s with fb := some m' } :=
  { h with
    noBufferIffPreSetup := ⟨fun hp => absurd hp hd.afterSetup, nofun⟩
    bufferSize := fun _ k hm hk => by cases hm; exact hsize.trans (h.bufferSize m k hd.fb hk)
    bufferWf := fun _ hm => by cases hm; exact hwf }

/-- After setup the phase may be any other but `PRE_SETUP`, a window asking for a writer. -/
theorem State.Inv.rephased (h : s.Inv) {p : Phase} (hs : s.phase ≠ .preSetup) (hp : p ≠ .preSetup)
    (hw : p = .inCallback → s.writer ≠ none) : State.Inv { s with phase := p } :=
  { h with
    noBufferIffPreSetup := ⟨fun e => absurd e hp, fun e => absurd (h.noBufferIffPreSetup.mpr e) hs⟩
    settingsKnown := fun _ => h.settingsKnown hs
    traceEmptyPreSetup := fun e => absurd e hp
    windowHasWriter := hw }

theorem setupChain_length (n : Nat) (v : Byte) (chain : List ChipImage) : (setupChain n v chain).length = chain.length := by
  simp [setupChain, refreshedChain_length]

/-- A refresh sends whole transactions (R133). -/
theorem State.Inv.afterRefresh (h : s.Inv) {n : Byte} (hn : s.chips = some n) (hp : s.phase ≠ .preSetup) (m : Memory) :
    (s.afterRefresh n.toNat m).Inv :=
  { h with
    traceBracketed := fun k hk => by
      cases hn.symm.trans hk
      exact bracketed_append_true (h.traceBracketed n hn) (bracketed_refresh _ m)
    traceEmptyPreSetup := fun e => absurd e hp
    chainLength := (refreshedChain_length _ m s.chain).trans h.chainLength }

/-- `SETCHIPS` in `PRE_SETUP` finds no buffer and an empty trace (R181). -/
theorem State.Inv.setchips (h : s.Inv) {n : Byte} (hp : s.phase = .preSetup) (hn : 1 ≤ n.toNat) :
    State.Inv { s with chips := some n } :=
  { h with
    chipsRange := fun k hk => by cases hk; exact hn
    settingsKnown := fun e => absurd hp e
    bufferSize := fun m _ hm => nomatch (h.noBufferIffPreSetup.mp hp).symm.trans hm
    traceBracketed := fun k _ => by simp [h.traceEmptyPreSetup hp, bracketed] }

theorem State.Inv.setint (h : s.Inv) {v : Byte} (hv : v.toNat ≤ 15) : State.Inv { s with intensity := some v } :=
  { h with
    intensityRange := fun k hk => by cases hk; exact hv
    settingsKnown := fun e => ⟨(h.settingsKnown e).1, nofun⟩ }

theorem State.Inv.setwr (h : s.Inv) {w : Byte} (hw : w.toNat < s.par.writerCount) : State.Inv { s with writer := some w } :=
  { h with
    writerKnown := fun k hk => by cases hk; exact hw
    windowHasWriter := fun _ => nofun }

/-- `SETUP` creates the buffer, enters `RUNNING` and sends whole transactions (R110, R111). -/
theorem State.Inv.setup (h : s.Inv) {n v : Byte} (hn : s.chips = some n) (hv : s.intensity = some v) :
    State.Inv { s with fb := some (Memory.zeros (8 * n.toNat)), phase := .running,
                       busTrace := s.busTrace ++ setupEvents n.toNat v, chain := setupChain n.toNat v s.chain } :=
  { h with
    noBufferIffPreSetup := ⟨nofun, nofun⟩
    settingsKnown := fun _ => ⟨by simp [hn], by simp [hv]⟩
    bufferSize := fun m k hm hk => by cases hm; cases hn.symm.trans hk; rfl
    bufferWf := fun m hm => by cases hm; rfl
    traceBracketed := fun k hk => by
      cases hn.symm.trans hk
      exact bracketed_append_true (h.traceBracketed n hn) (bracketed_setup _ v)
    traceEmptyPreSetup := nofun
    windowHasWriter := nofun
    chainLength := (setupChain_length _ v s.chain).trans h.chainLength }

/-- Every effect keeps the invariant. -/
theorem Effect.keeps_inv {i : Instr} {t : State} (h : s.Inv) (he : Effect s i t) : t.Inv := by
  cases he with
  | setint v hp hv => exact h.setint hv
  | setchips n hp hn => exact h.setchips hp hn
  | setwr w hp hw => exact h.setwr hw
  | setup n v hp hn hv => exact h.setup hn hv
  | updateNoWriter n m hd hp hw =>
    exact (h.rebuffered hd (Memory.zeros_size _) (Memory.zeros_wf _)).afterRefresh hd.chips hd.afterSetup _
  | updateWriter n w m hd hp hw =>
    exact (h.rebuffered hd (Memory.zeros_size _) (Memory.zeros_wf _)).rephased hd.afterSetup nofun fun _ => by simp [hw]
  | display n m hd hp => exact h.afterRefresh hd.chips hd.afterSetup m
  | drawDone n m hd hp => exact (h.afterRefresh hd.chips hd.afterSetup m).rephased hd.afterSetup nofun nofun
  | setcol idx v n m m' hd hm => exact h.rebuffered hd (Memory.write_size hm) (Memory.write_keeps_wf hd.wf hm)
  | setcolOut => exact h
  | print i start str n m t hi hd ht =>
    obtain ⟨hrest, m', hfb, hsize, hwf, -⟩ := ht
    rw [hrest, hfb]
    exact (h.rebuffered hd hsize hwf).replied _ _
  | width => exact h.replied _ _
  | height => exact h.replied _ _
  | frame i reg val hi hr => exact h.chipUpdated _ _

/-- Every instruction keeps the invariant. -/
theorem exec_keeps_inv {i : Instr} {t : State} (h : s.Inv) (he : exec i s = .next t) : t.Inv := by
  rcases exec_cases h he with ⟨f, -, rfl⟩ | ⟨r, -, rfl⟩ | heffect
  · exact h.markFault _ _
  · exact h.markRefusal _ _
  · exact heffect.keeps_inv h

theorem receiveReserved_keeps_inv {reg val : Byte} {t : State} (h : s.Inv) (hr : receiveReserved reg val s = .next t) :
    t.Inv := by
  rcases receiveReserved_cases hr with rfl | rfl
  · exact h.chipUpdated _ _
  · exact h.markFault _ _

end Keeping

/-- Settles O3: whatever the step does, it begins by taking from the inbox, and that and what follows keep the invariant. -/
theorem everyStepKeepsTheInvariant : Obligations.EveryStepKeepsTheInvariant := by
  intro s t hs h
  rcases step_cases h with rfl | ⟨rest, chip, ⟨i, hi⟩ | ⟨bytes, rfl⟩ | ⟨reg, val, hr⟩⟩
  · exact hs
  · exact exec_keeps_inv (hs.taken rest chip) hi
  · exact (hs.taken rest chip).markRefusal _ _
  · exact receiveReserved_keeps_inv (hs.taken rest chip) hr

end Sys2Proof.Machine
end

section
/-! The lifecycle (R26): which instructions move the phase, and from where to where. -/

namespace Sys2Proof.Machine

/-- What an effect does to the phase: nothing, or one of the three moves of the lifecycle (R26). -/
theorem Effect.phase_cases {i : Instr} {s t : State} (he : Effect s i t) :
    t.phase = s.phase ∨ (i = .setup ∧ s.phase = .preSetup ∧ t.phase = .running) ∨
      (i = .update ∧ s.phase = .running ∧ s.writer ≠ none ∧ t.phase = .inCallback) ∨
      (i = .drawDone ∧ s.phase = .inCallback ∧ t.phase = .running) := by
  cases he
  case setup n v hp hn hv => exact .inr (.inl ⟨rfl, hp, rfl⟩)
  case updateWriter n w m hd hp hw => exact .inr (.inr (.inl ⟨rfl, hp, by simp [hw], rfl⟩))
  case drawDone n m hd hp => exact .inr (.inr (.inr ⟨rfl, hp, rfl⟩))
  case print start str n m hi hd ht => exact .inl (by rw [ht.1])
  all_goals exact .inl rfl

/-- Settles O31: a mark leaves the phase, and an effect moves it as the lifecycle says or not at all. -/
theorem phaseChangesAsTheLifecycleSays : Obligations.PhaseChangesAsTheLifecycleSays := by
  intro i s t hs h hne
  rcases exec_cases hs h with ⟨f, -, rfl⟩ | ⟨r, -, rfl⟩ | heffect
  · exact absurd rfl hne
  · exact absurd rfl hne
  · exact heffect.phase_cases.resolve_left hne

end Sys2Proof.Machine
end

section
/-! The access table (R37): which fields each instruction may write, that it writes no other, and that the intensity and the
writer are read by `SETUP` and `UPDATE` alone. -/

namespace Sys2Proof.Machine

/-- The fields of the access table, with the chain, the transaction state and the results. -/
inductive StateField where
  | chips | intensity | writer | phase | fb | txnOpen | busTrace | logTrace | chain | results

/-- What a field holds. -/
def StateField.Value : StateField → Type
  | .chips | .intensity | .writer => Option Byte
  | .phase => Phase
  | .fb => Option Memory
  | .txnOpen => Bool
  | .busTrace => List BusEvent
  | .logTrace => List LogEvent
  | .chain => List ChipImage
  | .results => List Nat

/-- The field of a state. -/
def StateField.get : (k : StateField) → State → k.Value
  | .chips => State.chips
  | .intensity => State.intensity
  | .writer => State.writer
  | .phase => State.phase
  | .fb => State.fb
  | .txnOpen => State.txnOpen
  | .busTrace => State.busTrace
  | .logTrace => State.logTrace
  | .chain => State.chain
  | .results => State.results

/-- The state with another value in the field. -/
def StateField.set : (k : StateField) → k.Value → State → State
  | .chips, x, s => { s with chips := x }
  | .intensity, x, s => { s with intensity := x }
  | .writer, x, s => { s with writer := x }
  | .phase, x, s => { s with phase := x }
  | .fb, x, s => { s with fb := x }
  | .txnOpen, x, s => { s with txnOpen := x }
  | .busTrace, x, s => { s with busTrace := x }
  | .logTrace, x, s => { s with logTrace := x }
  | .chain, x, s => { s with chain := x }
  | .results, x, s => { s with results := x }

/-- `f` looks away from the field. -/
def Off {γ : Type} (f : State → γ) (k : StateField) : Prop := ∀ (x : k.Value) (s : State), f (k.set x s) = f s

/-- A field looks away from every other. -/
theorem StateField.get_off {k j : StateField} (h : j ≠ k) : Off k.get j := by
  intro x s
  cases k <;> cases j <;> first | rfl | exact absurd rfl h

theorem StateField.get_offMarks (k : StateField) : OffMarks k.get := by
  intro s g r c
  cases k <;> exact ⟨rfl, rfl⟩

/-- The w entries of an instruction's row of the access table (R37); `DRAW_DONE` is the end of an `UPDATE` (R138), and a frame
writes its chip. -/
def writtenFields : Instr → List StateField
  | .setint _ => [.intensity]
  | .setchips _ => [.chips]
  | .setwr _ => [.writer]
  | .setup | .update => [.phase, .fb, .txnOpen, .busTrace, .chain]
  | .display => [.txnOpen, .busTrace, .chain]
  | .drawDone => [.phase, .txnOpen, .busTrace, .chain]
  | .setcol _ _ => [.fb]
  | .printat _ _ | .print _ | .printfat _ _ | .printf _ | .strftat _ _ | .strft _ => [.fb, .logTrace, .results]
  | .width | .height => [.results]
  | .noop _ | .row1 _ | .row2 _ | .row3 _ | .row4 _ | .row5 _ | .row6 _ | .row7 _ | .row8 _ | .decode _ | .intensity _
  | .scanlimit _ | .shutdown _ | .disptest _ => [.chain]

/-! ### The setters' equations -/

theorem exec_setint (v : Byte) (s : State) : exec (.setint v) s = guarded (admitSetter s.phase) (.setint v)
    (fun s => if v.toNat ≤ 15 then { s with intensity := some v } else refuse .rRange (.setint v) s) s := rfl

theorem exec_setchips (n : Byte) (s : State) : exec (.setchips n) s = guarded (admitSetchips s.phase) (.setchips n)
    (fun s => if 1 ≤ n.toNat then { s with chips := some n } else refuse .rRange (.setchips n) s) s := rfl

theorem exec_setwr (w : Byte) (s : State) : exec (.setwr w) s = guarded (admitSetter s.phase) (.setwr w)
    (fun s => if w.toNat < s.par.writerCount then { s with writer := some w } else refuse .rBadWriter (.setwr w) s) s := rfl

/-! ### What an instruction writes -/

section Unwritten

variable {γ : Type} {f : State → γ}

theorem offBus_of_off (ho : Off f .txnOpen) (hb : Off f .busTrace) (hc : Off f .chain) : OffBus f := fun s o tr c =>
  calc f { s with txnOpen := o, busTrace := tr, chain := c }
    _ = f { s with txnOpen := o, busTrace := tr } := hc c { s with txnOpen := o, busTrace := tr }
    _ = f { s with txnOpen := o } := hb tr { s with txnOpen := o }
    _ = f s := ho o s

theorem offPrint_of_off (hm : Off f .fb) (hl : Off f .logTrace) (hr : Off f .results) : OffPrint f := fun s m l r =>
  calc f { s with fb := m, logTrace := l, results := r }
    _ = f { s with fb := m, logTrace := l } := hr r { s with fb := m, logTrace := l }
    _ = f { s with fb := m } := hl l { s with fb := m }
    _ = f s := hm m s

variable (hm : OffMarks f)
include hm

/-- A setter in range writes its setting, and out of range only its mark. -/
theorem ite_refuse_same {c : Prop} [Decidable c] {r : Refusal} {i : Instr} {s u : State} (hu : f u = f s) :
    f (if c then u else refuse r i s) = f s := by
  split
  · exact hu
  · exact (hm s .fTxn r _).2

theorem runSetup_same {s : State} (h : ∀ v, Keeps (Same f) (setupSequence v)) : f (runSetup s) = f s := by
  unfold runSetup
  split
  · exact concluded_same hm (h _) _ s
  · exact (hm s .fUnset .rRange _).1

theorem frame_same {i : Instr} {reg val : Byte} {s t : State} (hc : Off f .chain)
    (h : conclude i (chipReceives reg val) s = .next t) : f t = f s := by
  cases h
  exact concluded_same hm (chipReceives_same (fun s c => hc c s) reg val) i s

/-- An instruction writes nothing that looks away from the fields of its row, the marks aside. -/
theorem exec_same {i : Instr} {s t : State} (hoff : ∀ k ∈ writtenFields i, Off f k) (h : exec i s = .next t) : f t = f s := by
  cases i
  case setint v =>
    rw [exec_setint] at h
    exact guarded_same hm (ite_refuse_same hm (hoff .intensity (by simp [writtenFields]) (some v) s)) h
  case setchips n =>
    rw [exec_setchips] at h
    exact guarded_same hm (ite_refuse_same hm (hoff .chips (by simp [writtenFields]) (some n) s)) h
  case setwr w =>
    rw [exec_setwr] at h
    exact guarded_same hm (ite_refuse_same hm (hoff .writer (by simp [writtenFields]) (some w) s)) h
  case setup =>
    simp only [writtenFields, List.forall_mem_cons] at hoff
    obtain ⟨hp, hfb, ho, hb, hc, -⟩ := hoff
    exact guarded_same hm (runSetup_same hm fun v => setupSequence_same (offBus_of_off ho hb hc) (fun s m => hfb m s)
      (fun s p => hp p s) v) h
  case update =>
    simp only [writtenFields, List.forall_mem_cons] at hoff
    obtain ⟨hp, hfb, ho, hb, hc, -⟩ := hoff
    have hclear : Keeps (Same f) clear := clear_same fun s m => hfb m s
    refine guarded_same hm (concluded_same hm ?_ _ s) h
    split
    · exact bind_same hclear fun _ => refresh_same (offBus_of_off ho hb hc)
    · exact bind_same hclear fun _ => setPhase_same (fun s p => hp p s) _
  case display =>
    simp only [writtenFields, List.forall_mem_cons] at hoff
    obtain ⟨ho, hb, hc, -⟩ := hoff
    exact guarded_same hm (concluded_same hm (refresh_same (offBus_of_off ho hb hc)) _ s) h
  case drawDone =>
    simp only [writtenFields, List.forall_mem_cons] at hoff
    obtain ⟨hp, ho, hb, hc, -⟩ := hoff
    exact guarded_same hm (concluded_same hm (bind_same (refresh_same (offBus_of_off ho hb hc)) fun _ =>
      setPhase_same (fun s p => hp p s) _) _ s) h
  case setcol idx v =>
    have hfb : Off f .fb := hoff .fb (by simp [writtenFields])
    exact guarded_same hm (concluded_same hm (writeColumn_same (fun s m => hfb m s) _ v) _ s) h
  case width =>
    have hr : Off f .results := hoff .results (by simp [writtenFields])
    cases h
    exact concluded_same hm (replyWidth_same fun s r => hr r s) _ s
  case height =>
    have hr : Off f .results := hoff .results (by simp [writtenFields])
    cases h
    exact concluded_same hm (reply_same (fun s r => hr r s) _) _ s
  case printat | print | printfat | printf | strftat | strft =>
    simp only [writtenFields, List.forall_mem_cons] at hoff
    obtain ⟨hfb, hl, hr, -⟩ := hoff
    exact guarded_same hm (concluded_same hm (renderAndReply_same (offPrint_of_off hfb hl hr) _ _) _ s) h
  all_goals exact frame_same hm (hoff .chain (by simp [writtenFields])) h

end Unwritten

/-- A field that an instruction changes stands in its row of the access table. -/
theorem mem_writtenFields_of_exec {i : Instr} {s t : State} (k : StateField) (h : exec i s = .next t)
    (hne : k.get t ≠ k.get s) : k ∈ writtenFields i := by
  by_contra hk
  exact hne (exec_same k.get_offMarks (fun j hj => StateField.get_off fun e => hk (e ▸ hj)) h)

/-! ### The columns of the access table -/

theorem mem_writtenFields_chips {i : Instr} (h : .chips ∈ writtenFields i) : ∃ n, i = .setchips n := by
  cases i <;> simp [writtenFields] at h ⊢

theorem mem_writtenFields_intensity {i : Instr} (h : .intensity ∈ writtenFields i) : ∃ v, i = .setint v := by
  cases i <;> simp [writtenFields] at h ⊢

theorem mem_writtenFields_writer {i : Instr} (h : .writer ∈ writtenFields i) : ∃ w, i = .setwr w := by
  cases i <;> simp [writtenFields] at h ⊢

theorem mem_writtenFields_phase {i : Instr} (h : .phase ∈ writtenFields i) : i ∈ [Instr.setup, .update, .drawDone] := by
  cases i <;> simp [writtenFields] at h ⊢

theorem mem_writtenFields_fb {i : Instr} (h : .fb ∈ writtenFields i) :
    i ∈ [Instr.setup, .update] ∨ (∃ idx v, i = .setcol idx v) ∨ isPrint i = true := by
  cases i <;> simp [writtenFields, isPrint] at h ⊢

theorem mem_writtenFields_bus {i : Instr} (h : .busTrace ∈ writtenFields i ∨ .txnOpen ∈ writtenFields i) :
    i ∈ [Instr.setup, .update, .display, .drawDone] := by
  cases i <;> simp [writtenFields] at h ⊢

theorem mem_writtenFields_logTrace {i : Instr} (h : .logTrace ∈ writtenFields i) : isPrint i = true := by
  cases i <;> simp [writtenFields, isPrint] at h ⊢

theorem mem_writtenFields_chain {i : Instr} (h : .chain ∈ writtenFields i) :
    i ∈ [Instr.setup, .update, .display, .drawDone] ∨ i.port = .chain := by
  cases i <;> simp [writtenFields, Instr.port] at h ⊢

theorem mem_writtenFields_results {i : Instr} (h : .results ∈ writtenFields i) :
    i ∈ [Instr.width, .height] ∨ isPrint i = true := by
  cases i <;> simp [writtenFields, isPrint] at h ⊢

/-! ### The setters -/

/-- A setter that changes anything but a mark was admitted, had its operand in range, and had its effect. -/
theorem setter_changes {γ : Type} {f : State → γ} (hm : OffMarks f) {a : Admission} {i : Instr} {r : Refusal}
    {c : State → Prop} [DecidablePred c] {g : State → State} {s t : State}
    (h : guarded a i (fun s => if c s then g s else refuse r i s) s = .next t) (hne : f t ≠ f s) :
    a = .admitted ∧ c s ∧ t = g s := by
  rcases guarded_cases h with ⟨e, -, rfl⟩ | ⟨q, -, rfl⟩ | ⟨ha, rfl⟩
  · exact absurd (hm s e .rRange _).1 hne
  · exact absurd (hm s .fTxn q _).2 hne
  · by_cases hc : c s
    · exact ⟨ha, hc, if_pos hc⟩
    · exact absurd ((congrArg f (if_neg hc)).trans (hm s .fTxn r _).2) hne

theorem phase_of_admitSetter {p : Phase} (h : admitSetter p = .admitted) : p ≠ .inCallback := by
  rintro rfl
  cases h

theorem phase_of_admitSetchips {p : Phase} (h : admitSetchips p = .admitted) : p = .preSetup := by
  cases p with
  | preSetup => rfl
  | running => cases h
  | inCallback => cases h

/-- Settles O18: the row of the access table names the setter, and the setter's own test gives the phase and the range. -/
theorem settingsAreWrittenBySettersOnly : Obligations.SettingsAreWrittenBySettersOnly := by
  intro i s t h
  refine ⟨fun hne => ?_, fun hne => ?_, fun hne => ?_⟩
  · obtain ⟨n, rfl⟩ := mem_writtenFields_chips (mem_writtenFields_of_exec .chips h hne)
    rw [exec_setchips] at h
    obtain ⟨ha, hn, rfl⟩ := setter_changes StateField.chips.get_offMarks h hne
    exact ⟨phase_of_admitSetchips ha, n, rfl, hn, rfl⟩
  · obtain ⟨v, rfl⟩ := mem_writtenFields_intensity (mem_writtenFields_of_exec .intensity h hne)
    rw [exec_setint] at h
    obtain ⟨ha, hv, rfl⟩ := setter_changes StateField.intensity.get_offMarks h hne
    exact ⟨phase_of_admitSetter ha, v, rfl, hv, rfl⟩
  · obtain ⟨w, rfl⟩ := mem_writtenFields_writer (mem_writtenFields_of_exec .writer h hne)
    rw [exec_setwr] at h
    obtain ⟨ha, hw, rfl⟩ := setter_changes StateField.writer.get_offMarks h hne
    exact ⟨phase_of_admitSetter ha, w, rfl, hw, rfl⟩

/-! ### What is not read -/

theorem ite_refuse_blind {c : Prop} [Decidable c] {r : Refusal} {i : Instr} {fi fw : Option Byte → Option Byte} {s u u' : State}
    (hu : u' = u.resettle fi fw) :
    (if c then u' else refuse r i (s.resettle fi fw)) = (if c then u else refuse r i s).resettle fi fw := by
  split
  · exact hu
  · rfl

theorem runSetup_blind (fw : Option Byte → Option Byte) (s : State) :
    runSetup (s.resettle id fw) = (runSetup s).resettle id fw := by
  have hchips : (s.resettle id fw).chips = s.chips := rfl
  have hintensity : (s.resettle id fw).intensity = s.intensity := rfl
  simp only [runSetup, hchips, hintensity]
  split
  · exact concluded_blind (setupSequence_blind _) _ _ _ s
  · rfl

theorem frame_blind {i : Instr} {reg val : Byte} {fi fw : Option Byte → Option Byte} {s t : State}
    (h : conclude i (chipReceives reg val) s = .next t) :
    conclude i (chipReceives reg val) (s.resettle fi fw) = .next (t.resettle fi fw) := by
  cases h
  exact congrArg _ (concluded_blind (chipReceives_blind reg val) i fi fw s)

/-- With other settings an instruction does the same, if the intensity is another for none but `SETUP` and its setter, and the
writer for none but `UPDATE` and its setter. -/
theorem exec_resettle {i : Instr} {s t : State} {fi fw : Option Byte → Option Byte}
    (hi : fi = id ∨ i ≠ .setup ∧ ∀ v, i ≠ .setint v) (hw : fw = id ∨ i ≠ .update ∧ ∀ w, i ≠ .setwr w)
    (h : exec i s = .next t) : exec i (s.resettle fi fw) = .next (t.resettle fi fw) := by
  cases i
  case setint v =>
    obtain rfl : fi = id := hi.resolve_right fun hv => hv.2 v rfl
    rw [exec_setint] at h ⊢
    exact guarded_blind (ite_refuse_blind (by rfl)) h
  case setchips n =>
    rw [exec_setchips] at h ⊢
    exact guarded_blind (ite_refuse_blind (by rfl)) h
  case setwr w =>
    obtain rfl : fw = id := hw.resolve_right fun hv => hv.2 w rfl
    rw [exec_setwr] at h ⊢
    exact guarded_blind (ite_refuse_blind (by rfl)) h
  case setup =>
    obtain rfl : fi = id := hi.resolve_right fun hv => hv.1 rfl
    exact guarded_blind (runSetup_blind fw s) h
  case update =>
    obtain rfl : fw = id := hw.resolve_right fun hv => hv.1 rfl
    refine guarded_blind (concluded_blind ?_ .update fi id s) h
    split
    · exact updateNoWriter_blind
    · exact updateOpenWindow_blind
  case display => exact guarded_blind (concluded_blind refresh_blind _ _ _ s) h
  case drawDone => exact guarded_blind (concluded_blind closeWindow_blind _ _ _ s) h
  case setcol idx v => exact guarded_blind (concluded_blind (writeColumn_blind _ v) _ _ _ s) h
  case width =>
    cases h
    exact congrArg _ (concluded_blind replyWidth_blind _ _ _ s)
  case height =>
    cases h
    exact congrArg _ (concluded_blind (reply_blind _) _ _ _ s)
  case printat | print | printfat | printf | strftat | strft =>
    exact guarded_blind (concluded_blind (renderAndReply_blind _ _) _ _ _ s) h
  all_goals exact frame_blind h

/-- Settles O48: a changed field stands in the instruction's row of the access table, whose columns say whose rows those are;
and the two settings are replaced by `State.resettle`. -/
theorem fieldsAreWrittenByTheirTableRowsOnly : Obligations.FieldsAreWrittenByTheirTableRowsOnly := by
  refine ⟨fun i s t h => ?_, fun i s t x h => ⟨fun hsetup hsetint => ?_, fun hupdate hsetwr => ?_⟩⟩
  · have written : ∀ k : StateField, k.get t ≠ k.get s → k ∈ writtenFields i := fun k => mem_writtenFields_of_exec k h
    exact ⟨fun hne => mem_writtenFields_chips (written .chips hne),
      fun hne => mem_writtenFields_intensity (written .intensity hne),
      fun hne => mem_writtenFields_writer (written .writer hne), fun hne => mem_writtenFields_phase (written .phase hne),
      fun hne => mem_writtenFields_fb (written .fb hne),
      fun hne => mem_writtenFields_bus (hne.imp (written .busTrace) (written .txnOpen)),
      fun hne => mem_writtenFields_logTrace (written .logTrace hne),
      fun hne => mem_writtenFields_chain (written .chain hne), fun hne => mem_writtenFields_results (written .results hne)⟩
  · exact exec_resettle (fi := fun _ => x) (fw := id) (.inr ⟨hsetup, hsetint⟩) (.inl rfl) h
  · exact exec_resettle (fi := id) (fw := fun _ => x) (.inl rfl) (.inr ⟨hupdate, hsetwr⟩) h

end Sys2Proof.Machine
end

section
/-! The buffer's primitives (R53), and what `DISPLAY` makes of a buffer that stays (R60, R136). -/

namespace Sys2Proof.Machine

theorem State.column_of_fb {s : State} {m : Memory} (h : s.fb = some m) (c : Nat) : s.column c = m.read c := by
  simp [State.column, h]

theorem memRead_out {s : State} {m : Memory} {c : Nat} (hf : s.fb = some m) (hc : m.size ≤ c) :
    memRead c s = .error (.fOob c) s := by
  simp [memRead, hf, Memory.read_of_le hc]

theorem memWrite_out {s : State} {m : Memory} {c : Nat} (v : Byte) (hf : s.fb = some m) (hc : m.size ≤ c) :
    memWrite c v s = .error (.fOob c) s := by
  simp [memWrite, hf, Memory.write_none v hc]

/-- Settles O55: below the size the primitives are the buffer's own read and write, from the size up they find no column. -/
theorem memoryPrimitivesAreBounded : Obligations.MemoryPrimitivesAreBounded := by
  refine fun s m c v hf hw => ⟨fun hc => ⟨?_, ?_⟩, fun hc => ⟨memRead_out hf hc, memWrite_out v hf hc⟩⟩
  · exact ⟨_, memRead_ok hf hc, (State.column_of_fb hf c).trans (Memory.read_of_lt hc)⟩
  · obtain ⟨m', hm, -, -, hsame, hother⟩ := Memory.write_spec v hw hc
    exact ⟨_, memWrite_ok hf hm, rfl, hsame, fun d hd => (hother d hd).trans (State.column_of_fb hf d).symm⟩

theorem State.Drawable.afterRefresh {s : State} {n : Byte} {m : Memory} (h : s.Drawable n m) :
    (s.afterRefresh n.toNat m).Drawable n m :=
  { h with chain := (refreshedChain_length _ m s.chain).trans h.chain }

theorem State.Drawable.exec_display {s : State} {n : Byte} {m : Memory} (h : s.Drawable n m) (hp : s.phase = .running) :
    exec .display s = .next (s.afterRefresh n.toNat m) := by
  have hadmit : admitCycle s.phase = .admitted := by rw [hp]; rfl
  calc exec .display s
    _ = guarded (admitCycle s.phase) .display (concluded .display refresh) s := rfl
    _ = .next (concluded .display refresh s) := by rw [hadmit, guarded_admitted]
    _ = .next (s.afterRefresh n.toNat m) := by rw [concluded_ok h.refresh_ok]

/-- A refresh sends something, even to no chip: its eight transactions begin. -/
theorem refreshEvents_ne_nil (n : Nat) (m : Memory) : refreshEvents n m ≠ [] := by
  intro h
  have hbegins : beginsIn (refreshEvents n m) = 8 := beginsIn_refresh n m
  simp [h, beginsIn] at hbegins

/-- Settles O24: a refresh leaves chip count and buffer, of which alone its events are made, so the second sends them again. -/
theorem displayTwiceSendsTheSame : Obligations.DisplayTwiceSendsTheSame := by
  intro s t u n m hd hp ht hu
  cases (hd.exec_display hp).symm.trans ht
  cases (hd.afterRefresh.exec_display hp).symm.trans hu
  exact ⟨refreshEvents n.toNat m, rfl, rfl, rfl, rfl, refreshEvents_ne_nil _ m⟩

end Sys2Proof.Machine
end

section
/-! The order of a frame's bits on the wire (R55, R56, R103). -/

namespace Sys2Proof.Machine

/-- Two bytes leave as the 16-bit word they make does, most significant bit first. -/
theorem wireBits_append (hi lo : Byte) :
    wireBits hi ++ wireBits lo = (List.range 16).map fun k => (hi ++ lo).getLsbD (15 - k) := by
  have hhigh : ∀ k ∈ List.range 8, hi.getLsbD (7 - k) = (hi ++ lo).getLsbD (15 - k) := by
    intro k hk
    rw [List.mem_range] at hk
    rw [BitVec.getLsbD_append, if_neg (by omega), show 15 - k - 8 = 7 - k by omega]
  have hlow : ∀ k ∈ List.range 8, lo.getLsbD (7 - k) = (hi ++ lo).getLsbD (15 - (8 + k)) := by
    intro k _
    rw [BitVec.getLsbD_append, if_pos (by omega), show 15 - (8 + k) = 7 - k by omega]
  rw [show 16 = 8 + 8 from rfl, List.range_add, List.map_append, List.map_map]
  exact congrArg₂ (· ++ ·) (List.map_congr_left hhigh) (List.map_congr_left hlow)

theorem wireOf_frameEvents (reg val : Byte) : wireOf (frameEvents (reg, val)) = wireBits reg ++ wireBits val := by
  simp [wireOf]

/-- Settles O50: a frame is its two byte events, and these are the word's bits in order. -/
theorem framesLeaveMostSignificantBitFirst : Obligations.FramesLeaveMostSignificantBitFirst := fun _ reg val hopen =>
  ⟨sendFrame_ok reg val hopen, (wireOf_frameEvents reg val).trans (wireBits_append reg val)⟩

end Sys2Proof.Machine
end

section
/-! The decoder and the encoder (R70–R85): an encoded instruction is read back, and what is read is an encoding. -/

namespace Sys2Proof

/-! ### What the encoder writes is read back -/

theorem withImm16Imm8_encode (mk : Half → Byte → Instr) (h : Half) (v : Byte) (rest : List Byte) :
    withImm16Imm8 mk (encodeImm16 h ++ v :: rest) = .ok (mk h v, rest) := by
  simp [withImm16Imm8, encodeImm16]

theorem withStr_encode (mk : List Byte → Instr) {str : List Byte} (rest : List Byte) (h : str.length ≤ maxStr) :
    withStr mk (encodeStr str ++ rest) = .ok (mk str, rest) := by
  simp only [withStr, takeStr_encodeStr str rest h]

theorem withImm16Str_encode (mk : Half → List Byte → Instr) (pos : Half) {str : List Byte} (rest : List Byte)
    (h : str.length ≤ maxStr) : withImm16Str mk (encodeImm16 pos ++ encodeStr str ++ rest) = .ok (mk pos str, rest) := by
  simp only [encodeImm16, List.cons_append, List.nil_append, withImm16Str, Machine.imm16_hi_lo, withStr_encode _ rest h]

/-- Settles O8: byte 0 selects the row, and the row's operand form reads back what the encoder wrote; the commands and frames of
fixed length compute. -/
theorem decodeOfEncodeIsTheInstruction : Obligations.DecodeOfEncodeIsTheInstruction := by
  intro i rest hwf
  cases i
  case setcol idx v => exact withImm16Imm8_encode .setcol idx v rest
  case print | printf | strft => exact withStr_encode _ rest (of_decide_eq_true hwf)
  case printat | printfat | strftat => exact withImm16Str_encode _ _ rest (of_decide_eq_true hwf)
  all_goals rfl

/-- The same at the host command port. -/
theorem decodeCommand_encode {i : Instr} (rest : List Byte) (hwf : i.wellFormed = true) (hport : i.port = .host) :
    decodeCommand (encode i ++ rest) = .ok (i, rest) := by
  have h := decodeOfEncodeIsTheInstruction i rest hwf
  rwa [hport] at h

/-! ### What is read is an encoding -/

/-- `read` is the operand reader of the commands with opcode `op`: what it reads is well-formed commands, spelt as the encoder
spells them, and all it rejects is a string that ends too early (R83). -/
structure ReadsOperandsOf (op : Byte) (read : List Byte → Except DecodeError (Instr × List Byte)) : Prop where
  sound : ∀ {bytes i rest}, read bytes = .ok (i, rest) → i.wellFormed = true ∧ i.port = .host ∧ op :: bytes = encode i ++ rest
  rejects : ∀ {bytes e}, read bytes = .error e → e = .truncated

/-- A command without operands. -/
theorem readsOperandsOf_bare {op : Byte} (i : Instr) (hi : i.wellFormed = true ∧ i.port = .host ∧ encode i = [op]) :
    ReadsOperandsOf op fun bytes => .ok (i, bytes) := by
  obtain ⟨hwf, hport, henc⟩ := hi
  refine ⟨fun h => ?_, nofun⟩
  cases h
  exact ⟨hwf, hport, by rw [henc]; rfl⟩

/-- A command with an `imm8`. -/
theorem readsOperandsOf_imm8 {op : Byte} {mk : Byte → Instr}
    (hmk : ∀ v, (mk v).wellFormed = true ∧ (mk v).port = .host ∧ encode (mk v) = [op, v]) :
    ReadsOperandsOf op (withImm8 mk) := by
  refine ⟨fun {bytes i rest} h => ?_, fun {bytes e} h => ?_⟩
  · match bytes, h with
    | v :: _, rfl =>
      obtain ⟨hwf, hport, henc⟩ := hmk v
      exact ⟨hwf, hport, by rw [henc]; rfl⟩
  · match bytes, h with
    | [], rfl => rfl

/-- A command with an `imm16` and an `imm8`. -/
theorem readsOperandsOf_imm16Imm8 {op : Byte} {mk : Half → Byte → Instr}
    (hmk : ∀ h v, (mk h v).wellFormed = true ∧ (mk h v).port = .host ∧ encode (mk h v) = op :: encodeImm16 h ++ [v]) :
    ReadsOperandsOf op (withImm16Imm8 mk) := by
  refine ⟨fun {bytes i rest} h => ?_, fun {bytes e} h => ?_⟩
  · match bytes, h with
    | hi :: lo :: v :: _, rfl =>
      obtain ⟨hwf, hport, henc⟩ := hmk (Machine.imm16 hi lo) v
      exact ⟨hwf, hport, by simp [henc, encodeImm16]⟩
  · match bytes, h with
    | [], rfl => rfl
    | [_], rfl => rfl
    | [_, _], rfl => rfl

theorem takeStr_error {bytes : List Byte} {e : DecodeError} (h : takeStr bytes = .error e) : e = .truncated := by
  cases bytes with
  | nil => cases h; rfl
  | cons len tail =>
    rw [takeStr_cons] at h
    split at h <;> cases h
    rfl

theorem withStr_error {mk : List Byte → Instr} {bytes : List Byte} {e : DecodeError} (h : withStr mk bytes = .error e) :
    e = .truncated := by
  unfold withStr at h
  split at h
  · cases h
  · next he => cases h; exact takeStr_error he

theorem withStr_ok {mk : List Byte → Instr} {bytes rest : List Byte} {i : Instr} (h : withStr mk bytes = .ok (i, rest)) :
    ∃ str, i = mk str ∧ str.length ≤ maxStr ∧ bytes = encodeStr str ++ rest := by
  unfold withStr at h
  split at h
  · next str _ hs => cases h; exact ⟨str, rfl, encodeStr_of_takeStr hs⟩
  · cases h

/-- A command with a `str`. -/
theorem readsOperandsOf_str {op : Byte} {mk : List Byte → Instr}
    (hmk : ∀ str, (mk str).wellFormed = decide (str.length ≤ maxStr) ∧ (mk str).port = .host ∧
      encode (mk str) = op :: encodeStr str) :
    ReadsOperandsOf op (withStr mk) := by
  refine ⟨fun h => ?_, withStr_error⟩
  obtain ⟨str, rfl, hlen, rfl⟩ := withStr_ok h
  obtain ⟨hwf, hport, henc⟩ := hmk str
  exact ⟨by simp [hwf, hlen], hport, by rw [henc]; rfl⟩

/-- A command with an `imm16` and a `str`. -/
theorem readsOperandsOf_imm16Str {op : Byte} {mk : Half → List Byte → Instr}
    (hmk : ∀ h str, (mk h str).wellFormed = decide (str.length ≤ maxStr) ∧ (mk h str).port = .host ∧
      encode (mk h str) = op :: encodeImm16 h ++ encodeStr str) :
    ReadsOperandsOf op (withImm16Str mk) := by
  refine ⟨fun {bytes i rest} h => ?_, fun {bytes e} h => ?_⟩
  · match bytes, h with
    | hi :: lo :: _, h =>
      obtain ⟨str, rfl, hlen, rfl⟩ := withStr_ok h
      obtain ⟨hwf, hport, henc⟩ := hmk (Machine.imm16 hi lo) str
      exact ⟨by simp [hwf, hlen], hport, by simp [henc, encodeImm16]⟩
  · match bytes, h with
    | [], rfl => rfl
    | [_], rfl => rfl
    | _ :: _ :: _, h => exact withStr_error h

/-- The opcodes of the table of R82. -/
def opcodes : List Byte :=
  [0x01#8, 0x02#8, 0x03#8, 0x10#8, 0x11#8, 0x12#8, 0x13#8, 0x20#8, 0x21#8, 0x22#8, 0x23#8, 0x24#8, 0x25#8, 0x26#8, 0x30#8,
    0x31#8]

/-- An opcode of the table selects a reader of its row's operands, whatever the bytes after it. -/
theorem decodeCommand_of_mem_opcodes {op : Byte} (h : op ∈ opcodes) :
    ∃ read, ReadsOperandsOf op read ∧ ∀ bytes, decodeCommand (op :: bytes) = read bytes := by
  simp only [opcodes, List.mem_cons, List.not_mem_nil, or_false] at h
  rcases h with rfl | rfl | rfl | rfl | rfl | rfl | rfl | rfl | rfl | rfl | rfl | rfl | rfl | rfl | rfl | rfl
  · exact ⟨_, readsOperandsOf_imm8 (mk := .setint) fun _ => ⟨rfl, rfl, rfl⟩, fun _ => rfl⟩
  · exact ⟨_, readsOperandsOf_imm8 (mk := .setchips) fun _ => ⟨rfl, rfl, rfl⟩, fun _ => rfl⟩
  · exact ⟨_, readsOperandsOf_imm8 (mk := .setwr) fun _ => ⟨rfl, rfl, rfl⟩, fun _ => rfl⟩
  · exact ⟨_, readsOperandsOf_bare .setup ⟨rfl, rfl, rfl⟩, fun _ => rfl⟩
  · exact ⟨_, readsOperandsOf_bare .update ⟨rfl, rfl, rfl⟩, fun _ => rfl⟩
  · exact ⟨_, readsOperandsOf_bare .display ⟨rfl, rfl, rfl⟩, fun _ => rfl⟩
  · exact ⟨_, readsOperandsOf_bare .drawDone ⟨rfl, rfl, rfl⟩, fun _ => rfl⟩
  · exact ⟨_, readsOperandsOf_imm16Imm8 (mk := .setcol) fun _ _ => ⟨rfl, rfl, rfl⟩, fun _ => rfl⟩
  · exact ⟨_, readsOperandsOf_imm16Str (mk := .printat) fun _ _ => ⟨rfl, rfl, rfl⟩, fun _ => rfl⟩
  · exact ⟨_, readsOperandsOf_str (mk := .print) fun _ => ⟨rfl, rfl, rfl⟩, fun _ => rfl⟩
  · exact ⟨_, readsOperandsOf_imm16Str (mk := .printfat) fun _ _ => ⟨rfl, rfl, rfl⟩, fun _ => rfl⟩
  · exact ⟨_, readsOperandsOf_str (mk := .printf) fun _ => ⟨rfl, rfl, rfl⟩, fun _ => rfl⟩
  · exact ⟨_, readsOperandsOf_imm16Str (mk := .strftat) fun _ _ => ⟨rfl, rfl, rfl⟩, fun _ => rfl⟩
  · exact ⟨_, readsOperandsOf_str (mk := .strft) fun _ => ⟨rfl, rfl, rfl⟩, fun _ => rfl⟩
  · exact ⟨_, readsOperandsOf_bare .width ⟨rfl, rfl, rfl⟩, fun _ => rfl⟩
  · exact ⟨_, readsOperandsOf_bare .height ⟨rfl, rfl, rfl⟩, fun _ => rfl⟩

/-- Any other byte spells no command, whatever the bytes after it (R84). -/
theorem decodeCommand_of_not_mem_opcodes {op : Byte} (h : op ∉ opcodes) (bytes : List Byte) :
    decodeCommand (op :: bytes) = .error (.opcode op) := by
  simp only [opcodes, List.mem_cons, List.not_mem_nil, or_false, not_or] at h
  simp [decodeCommand, h]

theorem mem_opcodes_of_decodeCommand {op : Byte} {bytes : List Byte} {found : Instr × List Byte}
    (h : decodeCommand (op :: bytes) = .ok found) : op ∈ opcodes := by
  by_contra hop
  cases (decodeCommand_of_not_mem_opcodes hop bytes).symm.trans h

/-- The commands the decoder reads are well-formed and spelt as the encoder spells them. -/
theorem decodeCommand_sound {bytes rest : List Byte} {i : Instr} (h : decodeCommand bytes = .ok (i, rest)) :
    i.wellFormed = true ∧ i.port = .host ∧ bytes = encode i ++ rest := by
  cases bytes with
  | nil => cases h
  | cons op bytes =>
    obtain ⟨read, hreads, hread⟩ := decodeCommand_of_mem_opcodes (mem_opcodes_of_decodeCommand h)
    exact hreads.sound (hread bytes ▸ h)

theorem ite_ok_cases {p : Prop} [Decidable p] {i j : Instr} {x : Except DecodeError Instr}
    (h : (if p then .ok i else x) = .ok j) : (p ∧ i = j) ∨ x = .ok j := by
  by_cases hp : p
  · rw [if_pos hp] at h
    exact .inl ⟨hp, Except.ok.inj h⟩
  · rw [if_neg hp] at h
    exact .inr h

/-- The frames the decoder reads are spelt as the encoder spells them. -/
theorem decodeFrame_sound {reg val : Byte} {i : Instr} (h : decodeFrame reg val = .ok i) :
    i.wellFormed = true ∧ i.port = .chain ∧ encode i = [reg, val] := by
  unfold decodeFrame at h
  iterate 14
    rcases ite_ok_cases h with ⟨rfl, rfl⟩ | h
    · exact ⟨rfl, rfl, rfl⟩
  cases h

/-- Settles O9, port by port. -/
theorem decodedBytesAreTheEncoding : Obligations.DecodedBytesAreTheEncoding := by
  intro p bytes i rest h
  cases p with
  | host => exact decodeCommand_sound h
  | chain =>
    match bytes, h with
    | reg :: val :: tail, h =>
      simp only [decode] at h
      split at h
      · next hframe =>
        cases h
        obtain ⟨hwf, hport, henc⟩ := decodeFrame_sound hframe
        exact ⟨hwf, hport, by rw [henc]; rfl⟩
      · cases h

/-! ### What is rejected -/

/-- A string that decodes to its end is truncated wherever it is cut (R83): a command read from the shorter string would be read
from the whole one too, with bytes left over. -/
theorem decodeCommand_truncated_of_append {front back : List Byte} {i : Instr} (hback : back ≠ [])
    (h : decodeCommand (front ++ back) = .ok (i, [])) : decodeCommand front = .error .truncated := by
  cases front with
  | nil => rfl
  | cons op tail =>
    obtain ⟨read, hreads, hread⟩ := decodeCommand_of_mem_opcodes (mem_opcodes_of_decodeCommand h)
    cases hfront : decodeCommand (op :: tail) with
    | error e => rw [hreads.rejects ((hread tail).symm.trans hfront)]
    | ok found =>
      obtain ⟨j, rest⟩ := found
      obtain ⟨hwf, hport, hbytes⟩ := decodeCommand_sound hfront
      have hwhole : decodeCommand (op :: tail ++ back) = .ok (j, rest ++ back) := by
        rw [hbytes, List.append_assoc]
        exact decodeCommand_encode (rest ++ back) hwf hport
      have hnil : rest ++ back = [] := (Prod.mk.inj (Except.ok.inj (hwhole.symm.trans h))).2
      exact absurd (List.append_eq_nil_iff.mp hnil).2 hback

/-- Settles O10: the encoding decodes to its end, and fewer of its bytes are it cut short. -/
theorem truncatedCommandsAreInvalid : Obligations.TruncatedCommandsAreInvalid := by
  intro i k hwf hport hk
  have hdecode : decodeCommand (encode i) = .ok (i, []) := by
    simpa using decodeCommand_encode [] hwf hport
  have hback : (encode i).drop k ≠ [] := by simpa using hk
  rw [← List.take_append_drop k (encode i)] at hdecode
  exact decodeCommand_truncated_of_append hback hdecode

/-- A command string is rejected because it ends too early or because of its first byte, and for no other reason. -/
theorem decodeCommand_error {bytes : List Byte} {e : DecodeError} (h : decodeCommand bytes = .error e) :
    e = .truncated ∨ ∃ op tail, bytes = op :: tail ∧ e = .opcode op := by
  cases bytes with
  | nil => cases h; exact .inl rfl
  | cons op tail =>
    by_cases hop : op ∈ opcodes
    · obtain ⟨read, hreads, hread⟩ := decodeCommand_of_mem_opcodes hop
      exact .inl (hreads.rejects (hread tail ▸ h))
    · cases (decodeCommand_of_not_mem_opcodes hop tail).symm.trans h
      exact .inr ⟨op, tail, rfl, rfl⟩

/-- The ranges of R84 hold no opcode of the table. -/
theorem opcodes_outside_unused_ranges : ∀ op ∈ opcodes,
    ¬(op.toNat = 0x00 ∨ (0x04 ≤ op.toNat ∧ op.toNat ≤ 0x0F) ∨ (0x14 ≤ op.toNat ∧ op.toNat ≤ 0x1F) ∨
      (0x27 ≤ op.toNat ∧ op.toNat ≤ 0x2F) ∨ 0x32 ≤ op.toNat) := by
  decide

/-- Settles O12: the decoder computes them. -/
theorem knownWordsDecode : Obligations.KnownWordsDecode := ⟨rfl, rfl, rfl, rfl, rfl, rfl, rfl, rfl, rfl⟩

end Sys2Proof
end

section
/-! What a step does with the other two heads of the inbox (R83, R84, R210): a string that spells no command, and a frame. -/

namespace Sys2Proof.Machine

theorem step_of_undecoded_command {s : State} {bytes : List Byte} {rest : List Input} {e : DecodeError}
    (hinbox : s.inbox = .command bytes :: rest) (hdecode : decode .host bytes = .error e) :
    step s = .next (({ s with inbox := rest } : State).markRefusal .rIllegal (.bytes bytes)) := by
  have hfetch : fetch s = .illegal bytes { s with inbox := rest } := by simp only [fetch, hinbox, hdecode]
  simp only [step, hfetch, refuseIllegal]

/-- Settles O11: the ranges of R84 hold no opcode, and the step refuses what the decoder rejects. -/
theorem undecodableCommandsAreRefused : Obligations.UndecodableCommandsAreRefused := by
  refine ⟨fun op tail hop => ?_, fun s bytes rest e hinbox hdecode => ⟨decodeCommand_error hdecode, ?_⟩⟩
  · exact decodeCommand_of_not_mem_opcodes (fun hmem => opcodes_outside_unused_ranges op hmem hop) tail
  · exact step_of_undecoded_command hinbox hdecode

theorem fetch_of_received_frame {s : State} {j : Nat} {reg val : Byte} {rest : List Input} {i : Instr} {tail : List Byte}
    (hinbox : s.inbox = .frame j reg val :: rest) (hdecode : decode .chain [reg, val] = .ok (i, tail)) :
    fetch s = .run i { s with inbox := rest, rxChip := j } := by
  simp only [fetch, hinbox, hdecode]

/-- Settles O14: the fetch takes the frame off the inbox and notes its chip, and the step runs what was fetched. -/
theorem stepRunsTheReceivedFrame : Obligations.StepRunsTheReceivedFrame := fun _ _ _ _ _ _ _ hinbox hdecode =>
  step_of_fetch_run (fetch_of_received_frame hinbox hdecode)

end Sys2Proof.Machine
end

section
/-! The print commands without a position (R87): a command that completes does not record which command it was. -/

namespace Sys2Proof.Machine

/-- An admitted operation that succeeds ends alike whatever instruction called it. -/
theorem guarded_concluded_ok {a : Admission} {act : Act Unit} {s t : State} (i : Instr) (ha : a = .admitted)
    (hact : act s = .ok () t) : guarded a i (concluded i act) s = .next t := by
  rw [ha, guarded_admitted, concluded_ok hact]

/-- Settles O42: each pair renders the same string at the same column under the same test, which a drawable state passes. -/
theorem defaultColumnIsZero : Obligations.DefaultColumnIsZero := by
  intro s n m str hd
  have hprint : admitBufferUse s.phase = .admitted := admitBufferUse_drawable hd
  obtain ⟨t, ht, -⟩ := hd.renderAndReply_ok 0 str
  obtain ⟨u, hu, -⟩ := hd.renderAndReply_ok 0 (formatted str)
  refine ⟨?_, ?_, fun hsource hlen => ?_⟩
  · exact (guarded_concluded_ok (.print str) hprint ht).trans (guarded_concluded_ok (.printat 0 str) hprint ht).symm
  · exact (guarded_concluded_ok (.printf str) hprint hu).trans (guarded_concluded_ok (.printfat 0 str) hprint hu).symm
  · have htime : admitTime s.par.timeSource s.phase str = .admitted := by
      simp [admitTime, hsource, hprint, withinTimeMax, hlen]
    exact (guarded_concluded_ok (.strft str) htime ht).trans (guarded_concluded_ok (.strftat 0 str) htime ht).symm

end Sys2Proof.Machine
end

section
/-! The register bytes of the bus trace (R74, R75): whatever a step appends to a trace without reserved ones has none. -/

namespace Sys2Proof.Machine

theorem sentRegs_append_broadcast (tr : List BusEvent) (n : Nat) (reg val : Byte) :
    sentRegs (tr ++ broadcastEvents n reg val) = sentRegs tr ++ List.replicate n reg := by
  simpa [sentRegs, sentRegsFrom, broadcastEvents] using sentRegsFrom_txn true tr (List.replicate n (reg, val)) []

/-- A delay sends nothing, wherever in a frame it stands. -/
theorem sentRegsFrom_append_delay (next : Bool) (tr : List BusEvent) (d : Nat) :
    sentRegsFrom next (tr ++ [.delay d]) = sentRegsFrom next tr := by
  induction tr generalizing next with
  | nil => cases next <;> rfl
  | cons x tr ih => cases x <;> cases next <;> simp [sentRegsFrom, ih]

theorem sentRegs_append_refresh (tr : List BusEvent) (n : Nat) (m : Memory) :
    sentRegs (tr ++ refreshEvents n m) = sentRegs tr ++ sentRegs (refreshEvents n m) := by
  have hfirst : refreshEvents n m
      = txnEvents (passFrames n m 0) ++ (List.range' 1 7).flatMap fun i => txnEvents (passFrames n m i) := rfl
  rw [hfirst]
  exact (sentRegsFrom_txn true tr _ _).trans (congrArg _ (sentRegsFrom_txn true [] _ _).symm)

theorem reservedReg_row : ∀ i < 8, reservedReg (BitVec.ofNat 8 (8 - i)) = false := by decide

/-- No register byte of the trace is a reserved frame address. -/
def NoReservedRegs (tr : List BusEvent) : Prop := ∀ r ∈ sentRegs tr, reservedReg r = false

section Appending

variable {tr : List BusEvent}

theorem NoReservedRegs.broadcast (h : NoReservedRegs tr) (n : Nat) {reg : Byte} (val : Byte) (hreg : reservedReg reg = false) :
    NoReservedRegs (tr ++ broadcastEvents n reg val) := by
  intro r hr
  rw [sentRegs_append_broadcast, List.mem_append] at hr
  rcases hr with hr | hr
  · exact h r hr
  · rwa [List.eq_of_mem_replicate hr]

theorem NoReservedRegs.delay (h : NoReservedRegs tr) (d : Nat) : NoReservedRegs (tr ++ [.delay d]) := by
  intro r hr
  rw [sentRegs, sentRegsFrom_append_delay] at hr
  exact h r hr

/-- A refresh addresses the row registers (R132). -/
theorem NoReservedRegs.refresh (h : NoReservedRegs tr) (n : Nat) (m : Memory) : NoReservedRegs (tr ++ refreshEvents n m) := by
  intro r hr
  rw [sentRegs_append_refresh, List.mem_append] at hr
  rcases hr with hr | hr
  · exact h r hr
  · obtain ⟨i, hi, rfl⟩ := sentRegs_refresh hr
    exact reservedReg_row i hi

/-- The initialization sequence addresses the control registers and the row registers (R111). -/
theorem NoReservedRegs.setup (h : NoReservedRegs tr) (n : Nat) (v : Byte) : NoReservedRegs (tr ++ setupEvents n v) := by
  have hshutdown := h.broadcast n (reg := 0x0C#8) 0x00#8 rfl
  have hdispTest := hshutdown.broadcast n (reg := 0x0F#8) 0x00#8 rfl
  have hscanLimit := hdispTest.broadcast n (reg := 0x0B#8) 0x07#8 rfl
  have hdecode := hscanLimit.broadcast n (reg := 0x09#8) 0x00#8 rfl
  have hintensity := hdecode.broadcast n (reg := 0x0A#8) v rfl
  have hrefresh := (hintensity.delay 250).refresh n (Memory.zeros (8 * n))
  have hexit := hrefresh.broadcast n (reg := 0x0C#8) 0x01#8 rfl
  simpa only [setupEvents, List.append_assoc] using hexit

end Appending

theorem Effect.keeps_noReservedRegs {i : Instr} {s t : State} (h : NoReservedRegs s.busTrace) (he : Effect s i t) :
    NoReservedRegs t.busTrace := by
  cases he
  case setup n v hp hn hv => exact h.setup _ v
  case updateNoWriter | display | drawDone => exact h.refresh _ _
  case print start str n m hi hd ht => rwa [ht.1]
  all_goals exact h

theorem exec_keeps_noReservedRegs {i : Instr} {s t : State} (hs : s.Inv) (h : NoReservedRegs s.busTrace)
    (he : exec i s = .next t) : NoReservedRegs t.busTrace := by
  rcases exec_cases hs he with ⟨f, -, rfl⟩ | ⟨r, -, rfl⟩ | heffect
  · exact h
  · exact h
  · exact heffect.keeps_noReservedRegs h

theorem step_keeps_noReservedRegs {s t : State} (hs : s.Inv) (h : NoReservedRegs s.busTrace) (ht : step s = .next t) :
    NoReservedRegs t.busTrace := by
  rcases step_cases ht with rfl | ⟨rest, chip, ⟨i, hi⟩ | ⟨bytes, rfl⟩ | ⟨reg, val, hr⟩⟩
  · exact h
  · exact exec_keeps_noReservedRegs (hs.taken rest chip) h hi
  · exact h
  · rcases receiveReserved_cases hr with rfl | rfl <;> exact h

theorem lt_of_reservedReg_eq_false {r : Byte} (h : reservedReg r = false) : r.toNat < 16 := by
  simp only [reservedReg, Bool.or_eq_false_iff, decide_eq_false_iff_not] at h
  exact Nat.lt_of_not_le h.2

/-- Settles O34: every step keeps the trace free of reserved register bytes, and the others are below 16. -/
theorem reservedAddressesAreNeverEmitted : Obligations.ReservedAddressesAreNeverEmitted := fun _ _ hs h ht r hr =>
  have hfree := step_keeps_noReservedRegs hs h ht r hr
  ⟨hfree, lt_of_reservedReg_eq_false hfree⟩

end Sys2Proof.Machine
end

section
/-! The bus primitives in the transaction state that does not allow them (R100–R102, R106). -/

namespace Sys2Proof.Machine

section Refused

variable {s : State}

theorem busBegin_of_txnOpen (h : s.txnOpen = true) : busBegin s = .error .fTxn s := by simp [busBegin, h]

theorem delay_of_txnOpen (n : Nat) (h : s.txnOpen = true) : delay n s = .error .fTxn s := by simp [delay, h]

theorem busWrite_of_not_txnOpen (b : Byte) (h : s.txnOpen = false) : busWrite b s = .error .fTxn s := by simp [busWrite, h]

theorem busEnd_of_not_txnOpen (h : s.txnOpen = false) : busEnd s = .error .fTxn s := by simp [busEnd, h]

end Refused

/-- Settles O49: in either transaction state two primitives have their effect and the other two are refused. -/
theorem busPrimitivesKeepTheTransactionState : Obligations.BusPrimitivesKeepTheTransactionState := fun _ b k =>
  ⟨fun h => ⟨busBegin_ok h, delay_ok k h, busWrite_of_not_txnOpen b h, busEnd_of_not_txnOpen h⟩,
    fun h => ⟨busWrite_ok b h, busEnd_ok h, busBegin_of_txnOpen h, delay_of_txnOpen k h⟩⟩

end Sys2Proof.Machine
end

section
/-! The chips after one transaction (R200): chip `j` has received frame `j`, and a chip with no frame is as before; then
`BROADCAST` (R104) and `WRITE_ONE` (R105), which are one transaction each. -/

namespace Sys2Proof.Machine

section AfterFrames

variable {s : State} {fs : List (Byte × Byte)} {j : Nat}

theorem State.chip_afterFrames_of_getElem? {f : Byte × Byte} (hf : fs[j]? = some f) (hj : j < s.chain.length) :
    (s.afterFrames fs).chip j = (s.chip j).receive f.1 f.2 := by
  have hlt : j < fs.length := (List.getElem?_eq_some_iff.mp hf).1
  have hget : fs.getD j (0, 0) = f := by rw [List.getD_eq_getElem?_getD, hf, Option.getD_some]
  exact (applyFrames_get fs s.chain j hlt hj).trans (by rw [hget, State.chip])

theorem State.chip_afterFrames_of_le (hj : fs.length ≤ j) : (s.afterFrames fs).chip j = s.chip j :=
  applyFrames_get_beyond fs s.chain j hj

end AfterFrames

section Received

variable {s t : State} {j : Nat} {reg val : Byte} (ht : t.chip j = (s.chip j).receive reg val)
  (hreg : ChipReg.ofAddr reg ≠ none)
include ht hreg

/-- A chip that has received a frame holds the value where the address has a cell (R202–R207). -/
theorem State.chipReg_of_receive_same : t.chipReg j reg = some val := by
  obtain ⟨r, hr⟩ := Option.ne_none_iff_exists'.mp hreg
  rw [State.chipReg, ht, ChipImage.cell_receive_same _ _ hr]

/-- A chip that has received a frame keeps its other cells where the address has a cell (R202–R207). -/
theorem State.chipReg_of_receive_other {a : Byte} (ha : a ≠ reg) : t.chipReg j a = s.chipReg j a := by
  obtain ⟨r, hr⟩ := Option.ne_none_iff_exists'.mp hreg
  rw [State.chipReg, ht, ChipImage.cell_receive_other _ _ hr ha, State.chipReg]

end Received

/-- The chain has a position for every chip. -/
theorem toNat_le_chainLength {s : State} (n : Byte) (hlen : s.chain.length = 255) : n.toNat ≤ s.chain.length := by
  have hn : n.toNat < 256 := n.isLt
  omega

/-- Settles O53: every chip below `N` receives one of the `N` equal frames, and no position beyond has one. -/
theorem broadcastReachesEveryChip : Obligations.BroadcastReachesEveryChip := by
  intro s n reg val hn hclosed hlen
  have hchip : ∀ j, j < n.toNat →
      (s.afterFrames (List.replicate n.toNat (reg, val))).chip j = (s.chip j).receive reg val := fun j hj =>
    State.chip_afterFrames_of_getElem? (f := (reg, val)) (by simp [hj]) (hj.trans_le (toNat_le_chainLength n hlen))
  refine ⟨_, broadcast_ok reg val hn hclosed, rfl, hchip, fun hreg j hj => ⟨?_, fun a ha => ?_⟩, fun j hj => ?_⟩
  · exact State.chipReg_of_receive_same (hchip j hj) hreg
  · exact State.chipReg_of_receive_other (hchip j hj) hreg ha
  · exact State.chip_afterFrames_of_le (by simpa using hj)

theorem writeOne_out {s : State} {n : Byte} {k : Nat} (reg val : Byte) (hn : s.chips = some n) (hk : n.toNat ≤ k) :
    writeOne k reg val s = .error (.fOob k) s := by
  have hpos : checkPosition k n.toNat s = .error (.fOob k) s := by simp [checkPosition, Nat.not_lt.mpr hk]
  rw [writeOne, Act.bind_ok (chipCount_ok hn), Act.bind_error hpos]

/-- The frames of `WRITE_ONE` (R105): the real one at position `k`, the dummy frame at every other. -/
def writeOneFrames (n k : Nat) (reg val : Byte) : List (Byte × Byte) :=
  (List.range n).map fun j => if j = k then (reg, val) else (0x00#8, 0x00#8)

section WriteOneFrames

variable {s : State} {n k j : Nat} {reg val : Byte}

theorem State.chip_afterWriteOne_same (hk : k < n) (hc : k < s.chain.length) :
    (s.afterFrames (writeOneFrames n k reg val)).chip k = (s.chip k).receive reg val :=
  State.chip_afterFrames_of_getElem? (f := (reg, val)) (by simp [writeOneFrames, hk]) hc

/-- The dummy frame changes nothing, and a position beyond the chips has no frame. -/
theorem State.chip_afterWriteOne_other (hn : n ≤ s.chain.length) (hj : j ≠ k) :
    (s.afterFrames (writeOneFrames n k reg val)).chip j = s.chip j := by
  by_cases hlt : j < n
  · have hf : (writeOneFrames n k reg val)[j]? = some (0x00#8, 0x00#8) := by simp [writeOneFrames, hlt, hj]
    rw [State.chip_afterFrames_of_getElem? hf (by omega), ChipImage.receive_noop]
  · exact State.chip_afterFrames_of_le (by simpa [writeOneFrames] using hlt)

end WriteOneFrames

/-- Settles O54: chip `k` receives the real frame, the others a dummy or none. -/
theorem writeOneTargetsOneChip : Obligations.WriteOneTargetsOneChip := by
  intro s n k reg val hn hclosed hlen
  refine ⟨fun hk => ?_, writeOne_out reg val hn⟩
  have hsame : (s.afterFrames (writeOneFrames n.toNat k reg val)).chip k = (s.chip k).receive reg val :=
    State.chip_afterWriteOne_same hk (hk.trans_le (toNat_le_chainLength n hlen))
  have hother : ∀ j, j ≠ k → (s.afterFrames (writeOneFrames n.toNat k reg val)).chip j = s.chip j := fun j hj =>
    State.chip_afterWriteOne_other (toNat_le_chainLength n hlen) hj
  refine ⟨_, writeOne_ok reg val hn hclosed hk, rfl, hsame, hother, fun hreg => ⟨?_, fun j a hne => ?_⟩⟩
  · exact State.chipReg_of_receive_same hsame hreg
  · by_cases hj : j = k
    · subst hj
      exact State.chipReg_of_receive_other hsame hreg (hne.resolve_left fun h => h rfl)
    · exact congrArg (·.cell a) (hother j hj)

end Sys2Proof.Machine
end

section
/-! `SETUP` (R110, R111): its tests, its effect, and the transactions of its sequence. -/

namespace Sys2Proof.Machine

theorem exec_setup (s : State) : exec .setup s = guarded (admitSetup s.phase) .setup runSetup s := rfl

theorem runSetup_ok {s : State} {n v : Byte} (hn : s.chips = some n) (hv : s.intensity = some v) (hclosed : s.txnOpen = false) :
    runSetup s = { s with fb := some (Memory.zeros (8 * n.toNat)), phase := .running,
                          busTrace := s.busTrace ++ setupEvents n.toNat v, chain := setupChain n.toNat v s.chain } := by
  simp only [runSetup, hn, hv, concluded_ok (setupSequence_ok v hn hclosed)]

theorem runSetup_unset {s : State} (h : s.chips = none ∨ s.intensity = none) :
    runSetup s = s.markFault .fUnset (.instr .setup) := by
  rcases h with h | h
  · simp only [runSetup, h, raise_eq]
  · cases hn : s.chips <;> simp only [runSetup, hn, h, raise_eq]

/-- `SETUP` in `PRE_SETUP` with both settings (R110). -/
theorem exec_setup_ok {s : State} {n v : Byte} (hp : s.phase = .preSetup) (hn : s.chips = some n) (hv : s.intensity = some v)
    (hclosed : s.txnOpen = false) :
    exec .setup s = .next { s with fb := some (Memory.zeros (8 * n.toNat)), phase := .running,
                                   busTrace := s.busTrace ++ setupEvents n.toNat v,
                                   chain := setupChain n.toNat v s.chain } := by
  rw [exec_setup, hp, admitSetup, guarded_admitted, runSetup_ok hn hv hclosed]

/-- Settles O19: the test of the phase comes first, then the reading of both settings, then the sequence. -/
theorem setupRunsTheInitializationSequence : Obligations.SetupRunsTheInitializationSequence := by
  refine ⟨fun _ => rfl, fun s n v hp hn hv hclosed => ⟨_, exec_setup_ok hp hn hv hclosed⟩, fun s => ⟨?_, ?_, ?_⟩⟩
  · intro hp hunset
    rw [exec_setup, hp, admitSetup, guarded_admitted, runSetup_unset hunset]
  · intro hp
    rw [exec_setup, hp, admitSetup, guarded_refused]
  · intro hp
    rw [exec_setup, hp, admitSetup, guarded_refused]

/-- A refresh of a blank buffer sends zeros to every row register (R111). -/
theorem refreshEvents_zeros (n w : Nat) : refreshEvents n (Memory.zeros w)
    = (List.range 8).flatMap fun i => txnEvents (List.replicate n (BitVec.ofNat 8 (8 - i), 0x00#8)) := by
  have hread : ∀ c, ((Memory.zeros w).read c).getD blankByte = 0x00#8 := fun c => by
    rw [Memory.read_zeros]
    split <;> rfl
  simp only [refreshEvents, passFrames, hread, List.map_const', List.length_range]

section Counts

variable (n : Nat) (reg val v : Byte)

theorem beginsIn_broadcast : beginsIn (broadcastEvents n reg val) = 1 := beginsIn_txn _

theorem delaysIn_broadcast : delaysIn (broadcastEvents n reg val) = [] := delaysIn_txn _

theorem length_bytesIn_broadcast : (bytesIn (broadcastEvents n reg val)).length = 2 * n := by
  rw [broadcastEvents, bytesIn_txn, length_flatMap_pairs, List.length_replicate]

/-- Six broadcasts and a refresh of eight transactions (R111). -/
theorem beginsIn_setup : beginsIn (setupEvents n v) = 14 := by
  simp only [setupEvents, beginsIn_append, beginsIn_broadcast, beginsIn_refresh]
  rfl

theorem delaysIn_setup : delaysIn (setupEvents n v) = [250] := by
  simp only [setupEvents, delaysIn_append, delaysIn_broadcast, delaysIn_refresh]
  rfl

/-- A byte for each register and value: `2n` for each of the fourteen transactions (R111). -/
theorem length_bytesIn_setup : (bytesIn (setupEvents n v)).length = 28 * n := by
  simp only [setupEvents, bytesIn_append, List.length_append, length_bytesIn_broadcast, bytesIn_refresh, bytesIn,
    List.length_nil]
  omega

end Counts

/-- Settles O20: the events are those of `setupEvents`, whose refresh is one of a blank buffer. -/
theorem setupEmitsFourteenTransactions : Obligations.SetupEmitsFourteenTransactions := by
  intro s t n v hp hn hv hclosed ht
  cases (exec_setup_ok hp hn hv hclosed).symm.trans ht
  refine ⟨_, rfl, ?_, beginsIn_setup _ v, delaysIn_setup _ v, length_bytesIn_setup _ v⟩
  simp [setupEvents, broadcastEvents, refreshEvents_zeros]

end Sys2Proof.Machine
end

section
/-! What a host command other than `SETUP` sends (R114): nothing, or one refresh, which addresses the row registers alone. -/

namespace Sys2Proof.Machine

/-- A row register is no control register (R72). -/
theorem regRow_not_mem_controlRegs : ∀ i < 8, BitVec.ofNat 8 (8 - i) ∉ controlRegs := by decide

/-- The state change of a command that leaves the chain and the bus. -/
structure Silent (s t : State) : Prop where
  chain : t.chain = s.chain
  bus   : t.busTrace = s.busTrace

/-- The state change of a command that refreshes `n` chips from the buffer `m`, as far as the chain and the bus see it. -/
structure Refreshes (s t : State) (n : Byte) (m : Memory) : Prop where
  chain : t.chain = refreshedChain n.toNat m s.chain
  bus   : t.busTrace = s.busTrace ++ refreshEvents n.toNat m

theorem Effect.silent_or_refreshes {i : Instr} {s t : State} (hport : i.port = .host) (hsetup : i ≠ .setup)
    (he : Effect s i t) :
    Silent s t ∨ i ∈ [Instr.update, .display, .drawDone] ∧ ∃ n m, s.Drawable n m ∧ ∃ m', Refreshes s t n m' := by
  cases he
  case setup => exact absurd rfl hsetup
  case frame hchain => cases hchain.symm.trans hport
  case updateNoWriter n m hd hp hw => exact .inr ⟨by simp, n, m, hd, _, rfl, rfl⟩
  case display n m hd hp => exact .inr ⟨by simp, n, m, hd, m, rfl, rfl⟩
  case drawDone n m hd hp => exact .inr ⟨by simp, n, m, hd, m, rfl, rfl⟩
  case print start str n m hi hd ht => exact .inl ⟨by rw [ht.1], by rw [ht.1]⟩
  all_goals exact .inl ⟨rfl, rfl⟩

/-- What a host command other than `SETUP` does to the chain and the bus: nothing, or a refresh. -/
theorem exec_silent_or_refreshes {i : Instr} {s t : State} (hs : s.Inv) (hport : i.port = .host) (hsetup : i ≠ .setup)
    (h : exec i s = .next t) :
    Silent s t ∨ i ∈ [Instr.update, .display, .drawDone] ∧ ∃ n m, s.Drawable n m ∧ ∃ m', Refreshes s t n m' := by
  rcases exec_cases hs h with ⟨f, -, rfl⟩ | ⟨r, -, rfl⟩ | heffect
  · exact .inl ⟨rfl, rfl⟩
  · exact .inl ⟨rfl, rfl⟩
  · exact heffect.silent_or_refreshes hport hsetup

theorem Silent.chipReg {s t : State} (h : Silent s t) (j : Nat) (a : Byte) : t.chipReg j a = s.chipReg j a := by
  rw [State.chipReg, State.chip, h.chain, State.chipReg, State.chip]

/-- A refresh leaves the control registers of every chip (R209). -/
theorem Refreshes.chipReg_control {s t : State} {n : Byte} {m m' : Memory} (h : Refreshes s t n m') (hd : s.Drawable n m)
    {j : Nat} (hj : j < s.chipLimit) {a : Byte} (ha : a ∈ controlRegs) : t.chipReg j a = s.chipReg j a := by
  have hlt : j < n.toNat := by simpa [State.chipLimit, hd.chips] using hj
  have hlen : n.toNat ≤ s.chain.length := toNat_le_chainLength n hd.chain
  rw [State.chipReg, State.chip, h.chain]
  exact refreshedChain_other m' s.chain a (fun i hi e => regRow_not_mem_controlRegs i hi (e ▸ ha)) hlt hlen

/-- A refresh sends no frame to a control register (R132). -/
theorem not_mem_controlRegs_of_sentRegs_refresh {n : Nat} {m : Memory} {r : Byte} (h : r ∈ sentRegs (refreshEvents n m)) :
    r ∉ controlRegs := by
  obtain ⟨i, hi, rfl⟩ := sentRegs_refresh h
  exact regRow_not_mem_controlRegs i hi

/-- Settles O33: the command is silent, or it is one of three and refreshes. -/
theorem onlySetupSendsControlRegisters : Obligations.OnlySetupSendsControlRegisters := by
  intro i s t hs hport hsetup h
  rcases exec_silent_or_refreshes hs hport hsetup h with hsilent | ⟨hi, n, m, hd, m', hrefresh⟩
  · exact ⟨fun j _ a _ => hsilent.chipReg j a, ⟨[], by simp [hsilent.bus], nofun⟩,
      fun _ => ⟨hsilent.chain, hsilent.bus⟩⟩
  · exact ⟨fun j hj a ha => hrefresh.chipReg_control hd hj ha,
      ⟨_, hrefresh.bus, fun r hr => not_mem_controlRegs_of_sentRegs_refresh hr⟩, fun hni => absurd hi hni⟩

end Sys2Proof.Machine
end

section
/-! `REFRESH` read through the machine (R133): its events in terms of the columns of the buffer, and what it leaves in the row
registers of every chip. -/

namespace Sys2Proof.Machine

/-- The events of a refresh in terms of the columns of the state that it refreshes (R132). -/
theorem refreshEvents_of_fb {s : State} {m : Memory} (n : Nat) (h : s.fb = some m) :
    refreshEvents n m = (List.range 8).flatMap fun i => txnEvents ((List.range n).map fun j =>
      (BitVec.ofNat 8 (8 - i), (s.column (8 * j + i)).getD 0)) := by
  simp only [State.column_of_fb h]
  rfl

section Columns

variable {s : State} {n : Byte} {m : Memory} (h : s.Drawable n m) {j i : Nat} (hi : i < 8) (hj : j < n.toNat)
include h hi hj

theorem State.Drawable.column_ne_none : s.column (8 * j + i) ≠ none := by
  have hlt : 8 * j + i < m.size := by
    rw [h.size]
    omega
  rw [State.column_of_fb h.fb, Memory.read_of_lt hlt]
  exact Option.some_ne_none _

theorem State.Drawable.chipReg_afterRefresh_row :
    (s.afterRefresh n.toNat m).chipReg j (BitVec.ofNat 8 (8 - i)) = s.column (8 * j + i) := by
  have hlen : n.toNat ≤ s.chain.length := toNat_le_chainLength n h.chain
  obtain ⟨b, hb⟩ := Option.ne_none_iff_exists'.mp (h.column_ne_none hi hj)
  have hread : m.read (8 * j + i) = some b := (State.column_of_fb h.fb _).symm.trans hb
  calc (s.afterRefresh n.toNat m).chipReg j (BitVec.ofNat 8 (8 - i))
    _ = some ((m.read (8 * j + i)).getD blankByte) := refreshedChain_row m s.chain hi hj hlen
    _ = s.column (8 * j + i) := by rw [hread, hb, Option.getD_some]

end Columns

/-- Settles O22: a refresh of a drawable state succeeds; row register `a` is that of pass `8 − a`. -/
theorem refreshSerializesTheBuffer : Obligations.RefreshSerializesTheBuffer := by
  intro s n m hd
  refine ⟨_, refreshEvents n.toNat m, hd.refresh_ok, rfl, rfl, refreshEvents_of_fb _ hd.fb, beginsIn_refresh _ m,
    delaysIn_refresh _ m, bytesIn_refresh _ m, fun j hj a ha1 ha8 => ?_⟩
  have hi : 8 - a < 8 := by omega
  have hrow : 8 - (8 - a) = a := by omega
  have hcolumn : 8 * j + 8 - a = 8 * j + (8 - a) := by omega
  rw [hcolumn]
  refine ⟨?_, hd.column_ne_none hi hj⟩
  have hcell := hd.chipReg_afterRefresh_row hi hj
  rwa [hrow] at hcell

end Sys2Proof.Machine
end

section
/-! The update cycle (R135, R136, R138): `DISPLAY`, `UPDATE` with and without a writer, and `DRAW_DONE`, each in the phase that
admits it and in the others. -/

namespace Sys2Proof.Machine

theorem exec_display (s : State) :
    exec .display s = guarded (admitCycle s.phase) .display (concluded .display refresh) s := rfl

theorem exec_drawDone (s : State) :
    exec .drawDone s = guarded (admitDrawDone s.phase) .drawDone (concluded .drawDone closeWindow) s := rfl

theorem exec_update_of_no_writer {s : State} (hw : s.writer = none) :
    exec .update s = guarded (admitCycle s.phase) .update (concluded .update updateNoWriter) s := by
  rw [exec, execUpdate, hw]

theorem exec_update_of_writer {s : State} {w : Byte} (hw : s.writer = some w) :
    exec .update s = guarded (admitCycle s.phase) .update (concluded .update updateOpenWindow) s := by
  rw [exec, execUpdate, hw]

/-- Before setup there is no buffer to clear, whether or not there is a writer (R135). -/
theorem exec_update_preSetup {s : State} (hp : s.phase = .preSetup) :
    exec .update s = .next (s.markFault .fNoBuffer (.instr .update)) := by
  rw [exec, execUpdate, hp, admitCycle, guarded_raises]

/-- A window admits no second update, whether or not there is a writer (R135). -/
theorem exec_update_inCallback {s : State} (hp : s.phase = .inCallback) :
    exec .update s = .next (s.markRefusal .rContext (.instr .update)) := by
  rw [exec, execUpdate, hp, admitCycle, guarded_refused]

theorem admitDrawDone_of_ne {p : Phase} (hp : p ≠ .inCallback) : admitDrawDone p = .refusedWith .rContext := by
  cases p with
  | preSetup => rfl
  | running => rfl
  | inCallback => exact absurd rfl hp

section Completion

variable {s : State} {n : Byte} {m : Memory} (h : s.Drawable n m)
include h

/-- `UPDATE` in `RUNNING` with no writer: steps U1 and U3 at once (R135). -/
theorem State.Drawable.exec_update_ok (hp : s.phase = .running) (hw : s.writer = none) :
    exec .update s = .next ({ s with fb := some (Memory.zeros (8 * n.toNat)) }.afterRefresh n.toNat
      (Memory.zeros (8 * n.toNat))) := by
  have hadmit : admitCycle s.phase = .admitted := by rw [hp, admitCycle]
  rw [exec_update_of_no_writer hw, guarded_concluded_ok _ hadmit h.updateNoWriter_ok, h.size]

/-- `UPDATE` in `RUNNING` with a writer: step U1 alone (R135). -/
theorem State.Drawable.exec_update_opens (hp : s.phase = .running) {w : Byte} (hw : s.writer = some w) :
    exec .update s = .next { s with fb := some (Memory.zeros (8 * n.toNat)), phase := .inCallback } := by
  have hadmit : admitCycle s.phase = .admitted := by rw [hp, admitCycle]
  rw [exec_update_of_writer hw, guarded_concluded_ok _ hadmit h.updateOpenWindow_ok, h.size]

/-- `DRAW_DONE` in a window: step U3, and the window closes (R138). -/
theorem State.Drawable.exec_drawDone_ok (hp : s.phase = .inCallback) :
    exec .drawDone s = .next { s.afterRefresh n.toNat m with phase := .running } := by
  have hadmit : admitDrawDone s.phase = .admitted := by rw [hp, admitDrawDone]
  rw [exec_drawDone, guarded_concluded_ok _ hadmit h.closeWindow_ok]

/-- The window that an `UPDATE` opens is drawable, with the cleared buffer. -/
theorem State.Drawable.openedWindow :
    State.Drawable { s with fb := some (Memory.zeros (8 * n.toNat)), phase := .inCallback } n
      (Memory.zeros (8 * n.toNat)) :=
  { h with afterSetup := nofun, fb := rfl, size := rfl, wf := rfl }

theorem State.Drawable.withoutWriter : State.Drawable { s with writer := none } n m := { h with }

end Completion

/-- Settles O23: `RUNNING` admits the refresh, and the two other phases are turned away by the admission test. -/
theorem displaySendsTheBuffer : Obligations.DisplaySendsTheBuffer := by
  refine ⟨fun _ => rfl, fun s n m hd hp => hd.exec_display hp, fun s hp => ?_, fun s hp => ?_⟩
  · rw [exec_display, hp, admitCycle, guarded_raises]
  · rw [exec_display, hp, admitCycle, guarded_refused]

/-- Settles O25: the clear leaves a drawable state whose buffer is blank, and the refresh sends that. -/
theorem updateWithoutWriterClearsAndSends : Obligations.UpdateWithoutWriterClearsAndSends :=
  ⟨fun _ => rfl, fun _ _ _ hd hp hw => hd.exec_update_ok hp hw, fun _ hp => exec_update_preSetup hp,
    fun _ hp => exec_update_inCallback hp⟩

/-- Settles O26: the refresh is one of a blank buffer. -/
theorem idleUpdateCycleSendsZeros : Obligations.IdleUpdateCycleSendsZeros := by
  intro s t n m hd hp hw ht
  cases (hd.exec_update_ok hp hw).symm.trans ht
  exact congrArg (s.busTrace ++ ·) (refreshEvents_zeros _ _)

/-- Settles O27: the clear, then the phase, and no refresh. -/
theorem updateWithWriterOpensTheWindow : Obligations.UpdateWithWriterOpensTheWindow :=
  fun _ _ _ _ hd hp hw => hd.exec_update_opens hp hw

/-- Settles O28: a window admits the refresh that closes it, and no other phase does. -/
theorem drawDoneSendsAndClosesTheWindow : Obligations.DrawDoneSendsAndClosesTheWindow := by
  refine ⟨fun _ => rfl, fun s n m hd hp => hd.exec_drawDone_ok hp, fun s hp => ?_⟩
  rw [exec_drawDone, admitDrawDone_of_ne hp, guarded_refused]

/-- Settles O29: both clear the buffer and send the blank one, the window's phase being `RUNNING` again at its end. -/
theorem emptyWindowIsAnUpdateWithoutWriter : Obligations.EmptyWindowIsAnUpdateWithoutWriter := by
  intro s t u n w m hd hp hw ht hu
  cases (hd.exec_update_opens hp hw).symm.trans ht
  cases (hd.openedWindow.exec_drawDone_ok rfl).symm.trans hu
  refine ⟨_, hd.withoutWriter.exec_update_ok hp rfl, ?_⟩
  simp only [State.afterRefresh, hp, hw]

end Sys2Proof.Machine
end

section
/-! The print commands (R155–R160, R162) and the order in which a time-formatted one is tested (R237). -/

namespace Sys2Proof.Machine

theorem printCommand_preSetup {s : State} (hp : s.phase = .preSetup) (i : Instr) (start : Nat) (str : List Byte) :
    printCommand i start str s = .next (s.markFault .fNoBuffer (.instr i)) := by
  rw [printCommand, hp, admitBufferUse, guarded_raises]

/-- Settles O38: both are print commands of the whole string. -/
theorem printRendersTheString : Obligations.PrintRendersTheString :=
  ⟨fun _ _ _ pos str hd => ⟨hd.printCommand_ok (.printat pos str) pos.toNat str, hd.printCommand_ok (.print str) 0 str⟩,
    fun _ pos str hp => ⟨printCommand_preSetup hp (.printat pos str) pos.toNat str, printCommand_preSetup hp (.print str) 0 str⟩⟩

/-- Settles O39: both are print commands of what the adapter keeps of the string. -/
theorem printfRendersAtMost63Bytes : Obligations.PrintfRendersAtMost63Bytes :=
  ⟨fun _ _ _ pos str hd =>
      ⟨hd.printCommand_ok (.printfat pos str) pos.toNat (formatted str), hd.printCommand_ok (.printf str) 0 (formatted str)⟩,
    fun _ pos str hp => ⟨printCommand_preSetup hp (.printfat pos str) pos.toNat (formatted str),
      printCommand_preSetup hp (.printf str) 0 (formatted str)⟩⟩

/-- Settles O40: both are time-formatted commands that pass their tests. -/
theorem strftRendersTheTimeString : Obligations.StrftRendersTheTimeString :=
  fun _ _ _ pos str hd hsource hlen =>
    ⟨hd.timeCommand_ok (.strftat pos str) pos.toNat str hsource hlen, hd.timeCommand_ok (.strft str) 0 str hsource hlen⟩

theorem exec_time {i : Instr} {str : List Byte} (hi : i = .strft str ∨ ∃ pos, i = .strftat pos str) :
    ∃ start, ∀ s, exec i s = timeCommand i start str s := by
  rcases hi with rfl | ⟨pos, rfl⟩
  · exact ⟨0, fun _ => rfl⟩
  · exact ⟨operand pos, fun _ => rfl⟩

theorem admitTime_of_no_source (p : Phase) (str : List Byte) : admitTime false p str = .refusedWith .rNoTimesrc := rfl

theorem admitTime_preSetup (str : List Byte) : admitTime true .preSetup str = .raises .fNoBuffer := rfl

theorem admitTime_of_long {p : Phase} {str : List Byte} (hp : p ≠ .preSetup) (hlen : 63 < str.length) :
    admitTime true p str = .refusedWith .rTooLong := by
  have hlong : withinTimeMax str = false := decide_eq_false (Nat.not_le.mpr hlen)
  cases p with
  | preSetup => exact absurd rfl hp
  | running | inCallback => simp [admitTime, admitBufferUse, hlong]

/-- Settles O41: the answer of the admission test in each of the three cases. -/
theorem strftTestsComeInOrder : Obligations.StrftTestsComeInOrder := by
  intro s str i hi
  obtain ⟨start, hexec⟩ := exec_time hi
  rw [hexec, timeCommand]
  refine ⟨fun hsource => ?_, fun hsource hp => ?_, fun hsource hp hlen => ?_⟩
  · rw [hsource, admitTime_of_no_source, guarded_refused]
  · rw [hsource, hp, admitTime_preSetup, guarded_raises]
  · rw [hsource, admitTime_of_long hp hlen, guarded_refused]

end Sys2Proof.Machine
end

section
/-! `RENDER` read through the machine (R150–R153, R161): the count, the log and the columns that the layout of a string gives. -/

namespace Sys2Proof.Machine

/-! ### Columns, counts and logs of layouts -/

section DrawnColumn

variable {par : Params} {start c : Nat} {ds : List Drawn}

theorem drawnColumn_of_outside (hc : c < start ∨ start + ds.length ≤ c) (old : Option Byte) :
    drawnColumn par start ds c old = old := by
  unfold drawnColumn
  rcases hc with hlt | hle
  · rw [if_neg (by omega)]
  · rw [List.getElem?_eq_none (by omega), ite_self]

theorem drawnColumn_of_getElem? {k : Nat} {d : Drawn} (hd : ds[k]? = some d) (old : Option Byte) :
    drawnColumn par start ds (start + k) old = old.map (d.byte par) := by
  simp [drawnColumn, hd]

end DrawnColumn

theorem drawnColumn_single (par : Params) (start : Nat) (d : Drawn) (old : Option Byte) :
    drawnColumn par start [d] start old = old.map (d.byte par) :=
  drawnColumn_of_getElem? (k := 0) rfl old

theorem drawnColumn_snoc_last (par : Params) (start : Nat) (ds : List Drawn) (d : Drawn) (old : Option Byte) :
    drawnColumn par start (ds ++ [d]) (start + ds.length) old = old.map (d.byte par) := by
  rw [drawnColumn_append, if_pos rfl]

theorem renderCount_eq_length_take (w start : Nat) (str : List Byte) :
    renderCount w start str = ((layout str).take (w - start)).length := by
  rw [renderCount, List.length_take, Nat.min_comm]

/-- Of the columns that a string consumes only a leading dot's holds no character (R152). -/
theorem length_take_layout (k : Nat) (str : List Byte) :
    ((layout str).take k).length = (((layout str).take k).filter fun d => d.char.isSome).length
      + if str.head? = some 0x2E#8 ∧ 0 < k then 1 else 0 := by
  cases str with
  | nil => simp [layout]
  | cons ch rest =>
    obtain ⟨dot, ext, hlayout, hext⟩ := layout_head ch rest
    have hchars : (ext.take (k - 1)).filter (fun d => d.char.isSome) = ext.take (k - 1) :=
      List.filter_eq_self.mpr fun d hd => hext d (List.mem_of_mem_take hd)
    cases k with
    | zero => simp
    | succ k =>
      rw [Nat.add_sub_cancel] at hchars
      rw [hlayout]
      by_cases hdot : ch = 0x2E#8 <;> simp [hdot, hchars]

theorem filter_overflow_warnings (cur : Nat) (ds : List Drawn) : (warnings cur ds).filter (fun e => e.code = 2) = [] :=
  List.filter_eq_nil_iff.mpr fun e he => by simp [warnings_code ds cur e he]

theorem length_filter_overflow_renderLog (w start : Nat) (str : List Byte) :
    ((renderLog w start str).filter fun e => e.code = 2).length ≤ 1 := by
  rw [renderLog, List.filter_append, filter_overflow_warnings, List.nil_append]
  exact (List.length_filter_le _ _).trans (by split <;> simp)

section Fits

variable {w start : Nat} {str : List Byte} (hfits : (layout str).length ≤ w - start)
include hfits

theorem renderCount_of_fits : renderCount w start str = (layout str).length := Nat.min_eq_left hfits

theorem renderLog_of_fits : renderLog w start str = warnings start (layout str) := by
  rw [renderLog, if_neg (Nat.not_lt.mpr hfits), List.append_nil, List.take_of_length_le (by omega)]

end Fits

section Overflows

variable {w start : Nat} {str : List Byte} (hover : w - start < (layout str).length)
include hover

theorem renderCount_of_overflow : renderCount w start str = w - start := Nat.min_eq_right hover.le

theorem renderLog_of_overflow : renderLog w start str
    = warnings start ((layout str).take (w - start + 1)) ++ [.overflow (start + (w - start))] := by
  rw [renderLog, if_pos hover]

end Overflows

/-! ### A string with more characters after it -/

/-- Later characters mark at most the last column of the string before them. -/
theorem layout_append {str : List Byte} (h : layout str ≠ []) (more : List Byte) :
    ∃ ds d dot ext, layout str = ds ++ [d] ∧ layout (str ++ more) = ds ++ { d with dotted := dot } :: ext := by
  have hne : str.foldl layoutStep [] ≠ [] := fun e => h (by rw [layout, e, List.reverse_nil])
  obtain ⟨d, ds, hfold⟩ := List.exists_cons_of_ne_nil hne
  obtain ⟨dot, ext, hmore⟩ := foldl_layout_cons more d ds
  exact ⟨ds.reverse, d, dot, ext, by rw [layout, hfold, List.reverse_cons],
    by rw [layout, List.foldl_append, hfold, hmore]⟩

/-- Warnings are about characters, dotted or not. -/
theorem warnings_congr {as bs : List Drawn} (h : as.map Drawn.char = bs.map Drawn.char) (cur : Nat) :
    warnings cur as = warnings cur bs := by
  induction as generalizing bs cur with
  | nil => rw [List.map_eq_nil_iff.mp h.symm]
  | cons a as ih =>
    cases bs with
    | nil => cases h
    | cons b bs =>
      obtain ⟨hchar, htail⟩ := List.cons_eq_cons.mp h
      rw [warnings, warnings, Drawn.warning, Drawn.warning, hchar, ih htail]

section OverflowsBefore

variable {k : Nat} {str : List Byte} (hlt : k < (layout str).length) (more : List Byte)
include hlt

theorem take_layout_append : (layout (str ++ more)).take k = (layout str).take k := by
  obtain ⟨ds, d, dot, ext, hstr, hmore⟩ := layout_append (List.ne_nil_of_length_pos (Nat.zero_lt_of_lt hlt)) more
  have hk : k ≤ ds.length := by simpa [hstr, Nat.lt_succ_iff] using hlt
  rw [hstr, hmore, List.take_append_of_le_length hk, List.take_append_of_le_length hk]

theorem chars_take_layout_append :
    ((layout (str ++ more)).take (k + 1)).map Drawn.char = ((layout str).take (k + 1)).map Drawn.char := by
  obtain ⟨ds, d, dot, ext, hstr, hmore⟩ := layout_append (List.ne_nil_of_length_pos (Nat.zero_lt_of_lt hlt)) more
  have hk : k + 1 ≤ ((ds ++ [d]).map Drawn.char).length := by simpa [hstr] using hlt
  have hchars : (ds ++ { d with dotted := dot } :: ext).map Drawn.char
      = (ds ++ [d]).map Drawn.char ++ ext.map Drawn.char := by simp
  rw [hstr, hmore, List.map_take, List.map_take, hchars, List.take_append_of_le_length hk]

theorem length_layout_append : k < (layout (str ++ more)).length := by
  have hlen := congrArg List.length (chars_take_layout_append hlt more)
  simp only [List.length_map, List.length_take] at hlen
  omega

end OverflowsBefore

/-- What follows a string that overflows changes nothing in the log (R153). -/
theorem renderLog_append_of_overflow {w start : Nat} {str : List Byte} (hover : w - start < (layout str).length)
    (more : List Byte) : renderLog w start (str ++ more) = renderLog w start str := by
  rw [renderLog_of_overflow hover, renderLog_of_overflow (length_layout_append hover more),
    warnings_congr (chars_take_layout_append hover more)]

/-! ### `RENDER` in a drawable state -/

section Render

variable {s : State} {n : Byte} {m : Memory} (h : s.Drawable n m) (start : Nat)
include h

/-- `RENDER` in terms of the columns of the state that it leaves. -/
theorem State.Drawable.render_ok (str : List Byte) :
    ∃ t, render start str s = .ok (renderCount (8 * n.toNat) start str) t ∧
      t.logTrace = s.logTrace ++ renderLog (8 * n.toNat) start str ∧
      ∀ c, t.column c = drawnColumn s.par start ((layout str).take (8 * n.toNat - start)) c (s.column c) := by
  obtain ⟨m', hrender, -, -, hread⟩ := render_spec start str h.chips h.fb h.size h.wf h.rom
  refine ⟨_, hrender, rfl, fun c => ?_⟩
  rw [State.column_of_fb h.fb, State.column_of_fb rfl, hread]

/-- `RENDER` of a string that fits. -/
theorem State.Drawable.render_of_fits {str : List Byte} (hfits : (layout str).length ≤ 8 * n.toNat - start) :
    ∃ t, render start str s = .ok (layout str).length t ∧ t.logTrace = s.logTrace ++ warnings start (layout str) ∧
      ∀ c, t.column c = drawnColumn s.par start (layout str) c (s.column c) := by
  simpa only [renderCount_of_fits hfits, renderLog_of_fits hfits, List.take_of_length_le hfits] using h.render_ok start str

/-- `RENDER` answers alike for two strings with the same count, log and columns: equal contents are equal buffers. -/
theorem State.Drawable.render_congr {a b : List Byte}
    (hcount : renderCount (8 * n.toNat) start a = renderCount (8 * n.toNat) start b)
    (hlog : renderLog (8 * n.toNat) start a = renderLog (8 * n.toNat) start b)
    (hcolumns : (layout a).take (8 * n.toNat - start) = (layout b).take (8 * n.toNat - start)) :
    render start a s = render start b s := by
  obtain ⟨ma, ha, hsizea, hwfa, hreada⟩ := render_spec start a h.chips h.fb h.size h.wf h.rom
  obtain ⟨mb, hb, hsizeb, hwfb, hreadb⟩ := render_spec start b h.chips h.fb h.size h.wf h.rom
  have hbuffer : ma = mb := Memory.ext_of_read hwfa hwfb (hsizea.trans hsizeb.symm) fun c => by
    rw [hreada, hreadb, hcolumns]
  rw [ha, hb, hcount, hlog, hbuffer]

/-- `RENDER` with no room leaves the buffer as it was (R153). -/
theorem State.Drawable.render_keeps_fb (hroom : 8 * n.toNat ≤ start) {str : List Byte} {r : Nat} {t : State}
    (ht : render start str s = .ok r t) : t.fb = s.fb := by
  obtain ⟨m', hrender, hsize, hwf, hread⟩ := render_spec start str h.chips h.fb h.size h.wf h.rom
  have hbuffer : m' = m := Memory.ext_of_read hwf h.wf hsize fun c => by
    rw [hread, Nat.sub_eq_zero_of_le hroom, List.take_zero, drawnColumn_nil]
  cases hrender.symm.trans ht
  rw [hbuffer, h.fb]

theorem State.Drawable.exists_column {c : Nat} (hc : c < 8 * n.toNat) : ∃ b, s.column c = some b :=
  ⟨_, (State.column_of_fb h.fb c).trans (Memory.read_of_lt (h.size ▸ hc))⟩

end Render

/-! ### The laws -/

theorem Drawn.byte_char (par : Params) (old ch : Byte) :
    Drawn.byte par old { char := some ch, dotted := false } = patternOf par ch := rfl

/-- Settles O43: the count is the number of the columns drawn, and those are the columns that change. -/
theorem renderingObeysItsLaws : Obligations.RenderingObeysItsLaws := by
  intro s n m start str hd
  obtain ⟨t, hrender, hlog, hcolumn⟩ := hd.render_ok start str
  have hcount := renderCount_eq_length_take (8 * n.toNat) start str
  have hbound : renderCount (8 * n.toNat) start str ≤ 8 * n.toNat - start := Nat.min_le_right _ _
  refine ⟨_, t, _, hrender, hlog, fun _ => hbound, fun hroom => by omega, fun c hc => ?_, ?_, ⟨rfl, hcolumn⟩,
    fun hdots hfits => ?_, length_filter_overflow_renderLog _ _ _⟩
  · rw [hcolumn, drawnColumn_of_outside (hcount ▸ hc)]
  · rw [hcount, length_take_layout]
    simp only [Nat.sub_pos_iff_lt]
    rfl
  · have hlayout := layout_of_no_dots str hdots
    have hlen : (layout str).length = str.length := by rw [hlayout, List.length_map]
    have hroom : (layout str).length ≤ 8 * n.toNat - start := by omega
    refine ⟨(renderCount_of_fits hroom).trans hlen, fun k hk => ?_⟩
    obtain ⟨old, hold⟩ := hd.exists_column (c := start + k) (by omega)
    have hdrawn : (layout str)[k]? = some { char := some str[k], dotted := false } := by simp [hlayout, hk]
    rw [hcolumn, List.take_of_length_le hroom, drawnColumn_of_getElem? hdrawn, hold, List.getElem?_eq_getElem hk,
      Option.map_some, Option.map_some, Drawn.byte_char]

section Glyph

variable {par : Params} {ch : Byte}

theorem patternOf_of_glyph (hrom : par.glyphs.length = Param.glyphCount) (hrange : 0x20 ≤ ch.toNat ∧ ch.toNat ≤ 0x7D) :
    some (patternOf par ch) = par.glyphs[ch.toNat - 0x20]? := by
  have hcount : Param.glyphCount = 94 := rfl
  have hlt : ch.toNat - 0x20 < par.glyphs.length := by omega
  simp [patternOf, hrange, List.getElem?_eq_getElem hlt]

theorem patternOf_of_no_glyph (hrange : ¬(0x20 ≤ ch.toNat ∧ ch.toNat ≤ 0x7D)) : patternOf par ch = par.unknownGlyph :=
  if_neg hrange

theorem warnings_of_glyph (hrange : 0x20 ≤ ch.toNat ∧ ch.toNat ≤ 0x7D) (cur : Nat) (dot : Bool) :
    warnings cur [{ char := some ch, dotted := dot }] = [] :=
  (warnings_single _ _).trans (if_pos hrange)

theorem warnings_of_no_glyph (hrange : ¬(0x20 ≤ ch.toNat ∧ ch.toNat ≤ 0x7D)) (cur : Nat) (dot : Bool) :
    warnings cur [{ char := some ch, dotted := dot }] = [.unknownGlyph ch cur] :=
  (warnings_single _ _).trans (if_neg hrange)

end Glyph

/-- Settles O44: the string is one column, which takes the character's pattern and raises its warning. -/
theorem glyphsAreSelectedByRange : Obligations.GlyphsAreSelectedByRange := by
  intro s n m start ch hd hroom hdot
  have hlayout : layout [ch] = [{ char := some ch, dotted := false }] :=
    layout_of_no_dots [ch] fun _ hc => List.mem_singleton.mp hc ▸ hdot
  obtain ⟨t, hrender, hlog, hcolumn⟩ := hd.render_of_fits start (str := [ch]) (by rw [hlayout, List.length_singleton]; omega)
  rw [hlayout] at hrender hlog hcolumn
  obtain ⟨old, hold⟩ := hd.exists_column hroom
  have hpattern : t.column start = some (patternOf s.par ch) := by
    rw [hcolumn, drawnColumn_single, hold, Option.map_some, Drawn.byte_char]
  refine ⟨t, hrender, hpattern ▸ Option.some_ne_none _, fun hrange => ?_, fun hrange => ?_⟩
  · exact ⟨hpattern.trans (patternOf_of_glyph hd.rom hrange), by rw [hlog, warnings_of_glyph hrange, List.append_nil]⟩
  · have hout : ¬(0x20 ≤ ch.toNat ∧ ch.toNat ≤ 0x7D) := by omega
    exact ⟨hpattern.trans (congrArg some (patternOf_of_no_glyph hout)), by rw [hlog, warnings_of_no_glyph hout]⟩

/-- A dot on the latest column is a dot over what the column holds (R152). -/
theorem drawnColumn_snoc_dotted (par : Params) (start : Nat) (ds : List Drawn) (d : Drawn) (old : Option Byte) :
    drawnColumn par start (ds ++ [{ d with dotted := true }]) (start + ds.length) old
      = (drawnColumn par start (ds ++ [d]) (start + ds.length) old).map (· ||| 0x80#8) := by
  simp only [drawnColumn_snoc_last, Option.map_map, Function.comp_def, Drawn.byte_dotted]

theorem drawnColumn_snoc_of_ne {start c : Nat} {ds : List Drawn} (hc : c ≠ start + ds.length) (par : Params) (d : Drawn)
    (old : Option Byte) : drawnColumn par start (ds ++ [d]) c old = drawnColumn par start ds c old := by
  rw [drawnColumn_append, if_neg hc]

theorem warnings_snoc_dotted (cur : Nat) (ds : List Drawn) (d : Drawn) (dot : Bool) :
    warnings cur (ds ++ [{ d with dotted := dot }]) = warnings cur (ds ++ [d]) :=
  warnings_congr (by simp) cur

/-- Settles O45: a leading dot is a column of its own, and a later dot is drawn over the last column. -/
theorem dotsCombineWithTheColumnBefore : Obligations.DotsCombineWithTheColumnBefore := by
  intro s n m start hd hroom
  refine ⟨?_, fun str hne hfits => ?_⟩
  · obtain ⟨t, hrender, hlog, hcolumn⟩ := hd.render_of_fits start (str := [0x2E#8]) (Nat.sub_pos_of_lt hroom)
    have hlayout : layout [0x2E#8] = [{ char := none, dotted := true }] := rfl
    rw [hlayout] at hcolumn hlog
    refine ⟨t, hrender, ?_, hlog.trans (List.append_nil _), fun c hc => ?_⟩
    · rw [hcolumn, drawnColumn_single]
      rfl
    · rw [hcolumn, drawnColumn_of_outside (by rw [List.length_singleton]; omega)]
  · obtain ⟨ds, d, hlast, hdotted⟩ := layout_snoc_dot str hne
    have hlen : (layout (str ++ [0x2E#8])).length = (layout str).length := by simp [hlast, hdotted]
    obtain ⟨t, ht, htlog, htcolumn⟩ := hd.render_of_fits start hfits
    obtain ⟨u, hu, hulog, hucolumn⟩ := hd.render_of_fits start (hlen ▸ hfits)
    have hcount : (layout str).length = ds.length + 1 := by rw [hlast, List.length_append, List.length_singleton]
    rw [hcount] at ht
    rw [hlen, hcount] at hu
    rw [hlast] at htlog htcolumn
    rw [hdotted] at hulog hucolumn
    refine ⟨ds.length, t, u, ht, hu, ?_, fun c hc => ?_, ?_⟩
    · rw [hucolumn, htcolumn, drawnColumn_snoc_dotted]
      rfl
    · rw [hucolumn, htcolumn, drawnColumn_snoc_of_ne hc, drawnColumn_snoc_of_ne hc]
    · rw [hulog, htlog, warnings_snoc_dotted]

/-- Settles O46: the columns drawn are those there is room for, and what follows leaves them and the warnings. -/
theorem overflowTruncatesAndLogsOnce : Obligations.OverflowTruncatesAndLogsOnce := by
  intro s n m start str more hd hover
  obtain ⟨t, hrender, hlog, hcolumn⟩ := hd.render_ok start str
  rw [renderCount_of_overflow hover] at hrender
  rw [renderLog_of_overflow hover, ← List.append_assoc] at hlog
  have hcount : renderCount (8 * n.toNat) start (str ++ more) = renderCount (8 * n.toNat) start str := by
    rw [renderCount_of_overflow hover, renderCount_of_overflow (length_layout_append hover more)]
  have hmore : render start (str ++ more) s = render start str s :=
    hd.render_congr start hcount (renderLog_append_of_overflow hover more) (take_layout_append hover more)
  exact ⟨t, _, hrender, hlog, warnings_code _ start, hmore, hcolumn, fun hroom => hd.render_keeps_fb start hroom hrender⟩

end Sys2Proof.Machine
end

section
/-! The configuration setters (R180–R182): what an admitted setter does with its operand, and `SETINT`, `SETCHIPS` and `SETWR` in
every phase. -/

namespace Sys2Proof.Machine

theorem admitSetter_of_ne {p : Phase} (hp : p ≠ .inCallback) : admitSetter p = .admitted := by
  cases p with
  | preSetup => rfl
  | running => rfl
  | inCallback => exact absurd rfl hp

section Setter

variable {a : Admission} {i : Instr} {r : Refusal} {c : State → Prop} [DecidablePred c] {g : State → State} {s : State}
  (ha : a = .admitted)
include ha

/-- An admitted setter whose operand is in range has its effect. -/
theorem guarded_setter_stores (hc : c s) :
    guarded a i (fun s => if c s then g s else refuse r i s) s = .next (g s) := by
  rw [ha, guarded_admitted, if_pos hc]

/-- An admitted setter whose operand is out of range is refused. -/
theorem guarded_setter_refuses (hc : ¬c s) :
    guarded a i (fun s => if c s then g s else refuse r i s) s = .next (s.markRefusal r (.instr i)) := by
  rw [ha, guarded_admitted, if_neg hc, refuse_eq]

end Setter

/-- Settles O15: outside a window the range decides, in a window the admission test. -/
theorem setintStoresTheIntensity : Obligations.SetintStoresTheIntensity := by
  intro v s rest
  rw [exec_setint]
  refine ⟨rfl, fun hp hv => ?_, fun hp hv => ?_, fun hp => ?_⟩
  · exact guarded_setter_stores (admitSetter_of_ne hp) hv
  · exact guarded_setter_refuses (admitSetter_of_ne hp) (Nat.not_le.mpr hv)
  · rw [hp, admitSetter, guarded_refused]

/-- Settles O16: before setup the range decides, afterwards the admission test. -/
theorem setchipsStoresTheCountBeforeSetup : Obligations.SetchipsStoresTheCountBeforeSetup := by
  intro n s rest
  rw [exec_setchips]
  have hadmit (hp : s.phase = .preSetup) : admitSetchips s.phase = .admitted := by rw [hp, admitSetchips]
  refine ⟨rfl, fun hp hn => ?_, fun hp hn => ?_, fun hp => ?_, fun hp => ?_⟩
  · exact guarded_setter_stores (hadmit hp) hn
  · exact guarded_setter_refuses (hadmit hp) (by omega)
  · rw [hp, admitSetchips, guarded_refused]
  · rw [hp, admitSetchips, guarded_refused]

/-- Settles O17: outside a window the size of `WRITERS` decides, in a window the admission test. -/
theorem setwrRegistersTheWriter : Obligations.SetwrRegistersTheWriter := by
  intro w s rest
  rw [exec_setwr]
  refine ⟨rfl, fun hp hw => ?_, fun hp hw => ?_, fun hp => ?_⟩
  · exact guarded_setter_stores (c := fun s => w.toNat < s.par.writerCount) (admitSetter_of_ne hp) hw
  · exact guarded_setter_refuses (c := fun s => w.toNat < s.par.writerCount) (admitSetter_of_ne hp) (Nat.not_lt.mpr hw)
  · rw [hp, admitSetter, guarded_refused]

end Sys2Proof.Machine
end

section
/-! The column surface (R183–R185): `SETCOL`, `WIDTH` and `HEIGHT`. -/

namespace Sys2Proof.Machine

theorem exec_setcol (idx : Half) (v : Byte) (s : State) : exec (.setcol idx v) s
    = guarded (admitBufferUse s.phase) (.setcol idx v) (concluded (.setcol idx v) (writeColumn idx.toNat v)) s := rfl

/-- Settles O35: after setup `SETCOL` is admitted and is a buffer write in range and nothing out of range; before setup its
admission test finds no buffer. -/
theorem setcolWritesOneColumn : Obligations.SetcolWritesOneColumn := by
  refine ⟨fun _ _ _ _ => rfl, fun s n m idx v hd hidx => ?_, fun s n m idx v hd hidx => ?_, fun s idx v hp => ?_⟩
  · obtain ⟨m', -, hwrite, hsize, hwf, hsame, hother⟩ := hd.writeColumn_ok v hidx
    refine ⟨m', ?_, hsize, hwf, hsame, hother⟩
    rw [exec_setcol, guarded_concluded_ok _ (admitBufferUse_drawable hd) hwrite]
  · rw [exec_setcol, guarded_concluded_ok _ (admitBufferUse_drawable hd) (hd.writeColumn_out v hidx)]
  · rw [exec_setcol, hp, admitBufferUse, guarded_raises]

theorem exec_width (s : State) : exec .width s = conclude .width replyWidth s := rfl

theorem exec_height (s : State) : exec .height s = conclude .height (reply 8) s := rfl

theorem reply_ok (v : Nat) (s : State) : reply v s = .ok () { s with results := s.results ++ [v] } := rfl

theorem replyWidth_ok {s : State} {n : Byte} (hn : s.chips = some n) :
    replyWidth s = .ok () { s with results := s.results ++ [8 * n.toNat] } :=
  Act.run_ok (bufferWidth_ok hn) (reply_ok _ s)

theorem chipCount_unset {s : State} (h : s.chips = none) : chipCount s = .error .fUnset s := by simp [chipCount, h]

theorem replyWidth_unset {s : State} (h : s.chips = none) : replyWidth s = .error .fUnset s :=
  Act.bind_error (Act.bind_error (chipCount_unset h))

/-- Settles O36: the width is asked for in every phase, and a chip count is a byte. -/
theorem widthReturnsEightPerChip : Obligations.WidthReturnsEightPerChip := by
  intro s rest
  rw [exec_width]
  refine ⟨rfl, fun n hn => ⟨conclude_ok (replyWidth_ok hn), ?_⟩, fun hunset => conclude_error (replyWidth_unset hunset)⟩
  have hbyte : n.toNat < 256 := n.isLt
  omega

/-- Settles O37: the reply is a constant. -/
theorem heightReturnsEight : Obligations.HeightReturnsEight := by
  intro s rest
  rw [exec_height]
  exact ⟨rfl, conclude_ok (reply_ok 8 s)⟩

end Sys2Proof.Machine
end

section
/-! A frame as an instruction (R201–R207): the chip at the receiving position takes the frame that the encoder spells, and
nothing else of the machine changes. -/

namespace Sys2Proof.Machine

/-- The state when the chip at the receiving position has taken one frame. -/
def State.received (s : State) (reg val : Byte) : State :=
  { s with chain := updateChip (·.receive reg val) s.rxChip s.chain }

section Received

variable {s : State} {i : Instr} {reg val : Byte}

theorem State.chip_received_same (hlen : s.rxChip < s.chain.length) :
    (s.received reg val).chip s.rxChip = (s.chip s.rxChip).receive reg val :=
  updateChip_get_same _ _ _ hlen

theorem State.chip_received_other {k : Nat} (hk : k ≠ s.rxChip) : (s.received reg val).chip k = s.chip k :=
  updateChip_get_other _ _ _ _ hk

theorem updateChip_id (j : Nat) (chain : List ChipImage) : updateChip id j chain = chain := by
  induction chain generalizing j with
  | nil => cases j <;> rfl
  | cons c cs ih => cases j with
    | zero => rfl
    | succ j => exact congrArg (c :: ·) (ih j)

/-- Address 0 is received without effect (R201). -/
theorem State.received_noop (s : State) (val : Byte) : s.received 0x00#8 val = s := by
  have hid : (fun c : ChipImage => c.receive 0x00#8 val) = id := funext fun c => c.receive_noop val
  rw [State.received, hid, updateChip_id]

/-- A frame to an address with a cell writes that cell of the receiving chip (R202–R207). -/
theorem State.received_writesCell (hlen : s.rxChip < s.chain.length) (hreg : ChipReg.ofAddr reg ≠ none) :
    WritesCell s (s.received reg val) s.rxChip reg val := by
  have hsame : (s.received reg val).chip s.rxChip = (s.chip s.rxChip).receive reg val := State.chip_received_same hlen
  refine ⟨rfl, State.chipReg_of_receive_same hsame hreg, fun k a hne => ?_⟩
  by_cases hk : k = s.rxChip
  · subst hk
    exact State.chipReg_of_receive_other hsame hreg (hne.resolve_left fun h => h rfl)
  · exact congrArg (·.cell a) (State.chip_received_other hk)

/-- There are positions for the chips of the chain only. -/
theorem State.chipLimit_le (s : State) : s.chipLimit ≤ 255 := by
  cases hn : s.chips with
  | none => simp [State.chipLimit, hn]
  | some n =>
    have hbyte : n.toNat < 256 := n.isLt
    simp only [State.chipLimit, hn]
    omega

theorem State.rxChip_lt_length (hr : s.rxChip < s.chipLimit) (hlen : s.chain.length = 255) : s.rxChip < s.chain.length := by
  have hlimit : s.chipLimit ≤ 255 := s.chipLimit_le
  omega

/-- A frame instruction is the receipt of the two bytes the encoder spells it with. -/
theorem exec_frame (hport : i.port = .chain) (henc : encode i = [reg, val]) (s : State) :
    exec i s = conclude i (chipReceives reg val) s := by
  cases i
  case noop | row1 | row2 | row3 | row4 | row5 | row6 | row7 | row8 | decode | intensity | scanlimit | shutdown | disptest =>
    cases henc
    rfl
  all_goals cases hport

theorem exec_frame_ok (hport : i.port = .chain) (henc : encode i = [reg, val]) (hr : s.rxChip < s.chipLimit) :
    exec i s = .next (s.received reg val) :=
  (exec_frame hport henc s).trans (conclude_ok (chipReceives_ok reg val hr))

theorem exec_frame_writesCell (hport : i.port = .chain) (henc : encode i = [reg, val]) (hreg : ChipReg.ofAddr reg ≠ none)
    (hr : s.rxChip < s.chipLimit) (hlen : s.chain.length = 255) :
    ∃ t, exec i s = .next t ∧ WritesCell s t s.rxChip reg val :=
  ⟨_, exec_frame_ok hport henc hr, State.received_writesCell (State.rxChip_lt_length hr hlen) hreg⟩

end Received

/-- Settles O56: each frame is spelt with the address of its row register, which has a cell. -/
theorem rowFramesWriteTheirRegister : Obligations.RowFramesWriteTheirRegister := by
  intro s v hr hlen
  refine ⟨?_, ?_, ?_, ?_, ?_, ?_, ?_, ?_⟩ <;> exact exec_frame_writesCell rfl rfl (by decide) hr hlen

/-- Settles O57: each frame is spelt with the address of its control register, which has a cell. -/
theorem controlFramesWriteTheirRegister : Obligations.ControlFramesWriteTheirRegister := by
  intro s v hr hlen
  refine ⟨?_, ?_, ?_, ?_, ?_⟩ <;> exact exec_frame_writesCell rfl rfl (by decide) hr hlen

/-- Settles O58: the frame is spelt with address 0, which is received without effect. -/
theorem noopFrameChangesNothing : Obligations.NoopFrameChangesNothing := by
  intro s v hr
  rw [exec_frame_ok (i := .noop v) rfl rfl hr, State.received_noop]

end Sys2Proof.Machine
end

section
/-! A frame with a reserved register address (R75, R210): it spells no instruction, and its chip becomes unknown. -/

namespace Sys2Proof.Machine

/-- An address with a cell is no reserved one (R34, R75). -/
theorem ofAddr_of_reservedReg {reg : Byte} (h : reservedReg reg = true) : ChipReg.ofAddr reg = none := by
  cases hr : ChipReg.ofAddr reg with
  | none => rfl
  | some r =>
    rw [ChipReg.addr_of_ofAddr hr] at h
    cases r <;> cases h

/-- The frames of the table have no reserved address (R72, R75). -/
theorem reservedReg_of_encode {i : Instr} {reg val : Byte} (hport : i.port = .chain) (henc : encode i = [reg, val]) :
    reservedReg reg = false := by
  cases i
  case noop | row1 | row2 | row3 | row4 | row5 | row6 | row7 | row8 | decode | intensity | scanlimit | shutdown | disptest =>
    cases henc
    rfl
  all_goals cases hport

theorem decode_reserved {reg : Byte} (val : Byte) (h : reservedReg reg = true) : ∃ e, decode .chain [reg, val] = .error e := by
  cases hframe : decodeFrame reg val with
  | error e => exact ⟨e, by simp only [decode, hframe]⟩
  | ok i =>
    obtain ⟨-, hport, henc⟩ := decodeFrame_sound hframe
    cases h.symm.trans (reservedReg_of_encode hport henc)

theorem step_of_undecoded_frame {s : State} {j : Nat} {reg val : Byte} {rest : List Input} {e : DecodeError}
    (hinbox : s.inbox = .frame j reg val :: rest) (hdecode : decode .chain [reg, val] = .error e) :
    step s = receiveReserved reg val (s.taken rest j) := by
  have hfetch : fetch s = .reserved reg val (s.taken rest j) := by simp only [fetch, hinbox, hdecode, State.taken]
  simp only [step, hfetch]

theorem receiveReserved_ok {s : State} (reg val : Byte) (hr : s.rxChip < s.chipLimit) :
    receiveReserved reg val s = .next (s.received reg val) := by
  simp only [receiveReserved, chipReceives_ok reg val hr, State.received]

theorem State.chip_received_reserved {s : State} {reg : Byte} (val : Byte) (hreserved : reservedReg reg = true)
    (hlen : s.rxChip < s.chain.length) : (s.received reg val).chip s.rxChip = ChipImage.unknown := by
  have hnoop : reg ≠ 0x00#8 := by
    rintro rfl
    cases hreserved
  rw [State.chip_received_same hlen, ChipImage.receive_reserved _ val hnoop (ofAddr_of_reservedReg hreserved)]

/-- Settles O60: the frame does not decode, so that the step hands it to its chip, whose every cell it makes `⊥`. -/
theorem reservedFramesUnsettleTheirChip : Obligations.ReservedFramesUnsettleTheirChip := by
  intro s j reg val rest hinbox hreserved hj hlen
  obtain ⟨e, hdecode⟩ := decode_reserved val hreserved
  have hr : (s.taken rest j).rxChip < (s.taken rest j).chipLimit := hj
  have hunknown : ((s.taken rest j).received reg val).chip j = ChipImage.unknown :=
    State.chip_received_reserved val hreserved (State.rxChip_lt_length hr hlen)
  refine ⟨_, (step_of_undecoded_frame hinbox hdecode).trans (receiveReserved_ok reg val hr), rfl, fun a => ?_, fun k hk => ?_⟩
  · rw [State.chipReg, hunknown, ChipImage.cell_unknown]
  · exact State.chip_received_other (s := s.taken rest j) hk

end Sys2Proof.Machine
end

section
/-! The latch of `BusEnd()` (R200): frame `j` is received by chip `j`, as the frame's own instruction has it received. -/

namespace Sys2Proof.Machine

section Latch

variable {n : Byte} {bytes : List Byte} {chain : List ChipImage} {j : Nat}

/-- `2N` bytes are `N` frames, applied to the chips in order (R200). -/
theorem latch_get (hlen : bytes.length = 2 * n.toNat) (hj : j < n.toNat) (hn : n.toNat ≤ chain.length) :
    (latch (some n) bytes chain).getD j ChipImage.unknown
      = (chain.getD j ChipImage.unknown).receive (bytes.getD (2 * j) 0) (bytes.getD (2 * j + 1) 0) := by
  obtain ⟨hframes, hframe⟩ := framesOf_pairs n.toNat bytes hlen
  simp only [latch]
  rw [if_pos hlen, applyFrames_get _ _ _ (hframes.symm ▸ hj) (hj.trans_le hn), hframe j hj]

theorem latch_get_beyond (hlen : bytes.length = 2 * n.toNat) (hj : n.toNat ≤ j) :
    (latch (some n) bytes chain).getD j ChipImage.unknown = chain.getD j ChipImage.unknown := by
  obtain ⟨hframes, -⟩ := framesOf_pairs n.toNat bytes hlen
  simp only [latch]
  rw [if_pos hlen, applyFrames_get_beyond _ _ _ (hframes.trans_le hj)]

/-- A transaction of another length makes every chip unknown (R200). -/
theorem latch_get_wrongLength (hlen : bytes.length ≠ 2 * n.toNat) :
    (latch (some n) bytes chain).getD j ChipImage.unknown = ChipImage.unknown := by
  simp only [latch]
  rw [if_neg hlen, List.map_const', List.getD_eq_getElem?_getD, List.getElem?_replicate]
  split <;> rfl

end Latch

/-- `BusEnd()` latches the bytes sent since the transaction began (R102, R200). -/
theorem busEnd_latches {s : State} {n : Byte} {bytes : List Byte} (hn : s.chips = some n) (hopen : s.txnOpen = true)
    (hbytes : openBytes s.busTrace = bytes) :
    ∃ t, busEnd s = .ok () t ∧ t.chain = latch (some n) bytes s.chain := by
  refine ⟨_, busEnd_ok hopen, ?_⟩
  simp only [hn, hbytes]

/-- Settles O51: the latch in each of its cases. -/
theorem latchAppliesFrameJToChipJ : Obligations.LatchAppliesFrameJToChipJ := by
  intro s n bytes earlier hn hopen hchain htrace
  obtain ⟨t, ht, hlatch⟩ := busEnd_latches hn hopen (htrace ▸ openBytes_bytes earlier bytes)
  have hchip : ∀ j, t.chip j = (latch (some n) bytes s.chain).getD j ChipImage.unknown := fun j => by
    rw [State.chip, hlatch]
  refine ⟨t, ht, fun hlen => ⟨fun j hj => ?_, fun j hj => ?_⟩, fun hlen j a => ?_⟩
  · exact (hchip j).trans (latch_get hlen hj (toNat_le_chainLength n hchain))
  · exact (hchip j).trans (latch_get_beyond hlen hj)
  · rw [State.chipReg, hchip, latch_get_wrongLength hlen, ChipImage.cell_unknown]

theorem decodeFrame_of_decode {reg val : Byte} {i : Instr} {rest : List Byte} (h : decode .chain [reg, val] = .ok (i, rest)) :
    decodeFrame reg val = .ok i := by
  cases hframe : decodeFrame reg val with
  | error e =>
    simp only [decode, hframe] at h
    cases h
  | ok k =>
    simp only [decode, hframe] at h
    cases h
    rfl

/-- Settles O52: on both sides chip `j` receives the two bytes of frame `j`. -/
theorem latchIsTheFramesMeaning : Obligations.LatchIsTheFramesMeaning := by
  intro s n frames earlier j i rest hn hopen hchain hframes htrace hj hdecode
  have hlt : j < s.chain.length := hj.trans_le (toNat_le_chainLength n hchain)
  have hr : ({ s with rxChip := j } : State).rxChip < ({ s with rxChip := j } : State).chipLimit := by
    simpa only [State.chipLimit, hn] using hj
  obtain ⟨t, ht, hlatch⟩ := busEnd_latches hn hopen (htrace ▸ openBytes_frames earlier frames)
  obtain ⟨-, hport, henc⟩ := decodeFrame_sound (decodeFrame_of_decode hdecode)
  refine ⟨t, _, ht, exec_frame_ok hport henc hr, ?_⟩
  calc t.chip j
    _ = (applyFrames frames s.chain).getD j ChipImage.unknown := by rw [State.chip, hlatch, latch_frames hframes]
    _ = (s.chip j).receive (frames.getD j (0, 0)).1 (frames.getD j (0, 0)).2 :=
      applyFrames_get frames s.chain j (hframes.symm ▸ hj) hlt
    _ = _ := (State.chip_received_same (s := { s with rxChip := j }) hlt).symm

end Sys2Proof.Machine
end

section
/-! The chips after `SETUP` and after `DISPLAY` (R208, R209). -/

namespace Sys2Proof.Machine

/-- What R208 has in the control register at an address after a `SETUP` at the intensity `v`. -/
def programmedValue (v a : Byte) : Byte :=
  if a = 0x0C#8 then 0x01#8
  else if a = 0x0A#8 then v
  else if a = 0x0B#8 then 0x07#8
  else 0x00#8

section Programmed

variable {n j : Nat} {v : Byte} {chain : List ChipImage}

/-- `SETUP`'s refresh of a blank buffer and the broadcast after it leave 0x00 in every row register (R208). -/
theorem setupChain_row {i : Nat} (hi : i < 8) (hj : j < n) (hn : n ≤ chain.length) :
    ((setupChain n v chain).getD j ChipImage.unknown).cell (BitVec.ofNat 8 (8 - i)) = some 0x00#8 := by
  have hrow : BitVec.ofNat 8 (8 - i) ≠ 0x0C#8 := fun e => regRow_not_mem_controlRegs i hi (by simp [e, controlRegs])
  have hcolumn : 8 * j + i < 8 * n := by omega
  rw [setupChain, equalFrames_cell _ _ _ hj (by simpa using hn) rfl, if_neg hrow,
    refreshedChain_row _ _ hi hj (by simpa using hn), Memory.read_zeros, if_pos hcolumn]
  rfl

/-- Of the broadcasts to a control register the last one's value stays (R110, R208). -/
theorem setupChain_control {a : Byte} (ha : a ∈ controlRegs) (hj : j < n) (hn : n ≤ chain.length) :
    ((setupChain n v chain).getD j ChipImage.unknown).cell a = some (programmedValue v a) := by
  have hrow : ∀ i, i < 8 → a ≠ BitVec.ofNat 8 (8 - i) := fun i hi e => regRow_not_mem_controlRegs i hi (e ▸ ha)
  rw [setupChain, equalFrames_cell _ _ _ hj (by simpa using hn) rfl, refreshedChain_other _ _ _ hrow hj (by simpa using hn),
    equalFrames_cell _ _ _ hj (by simpa using hn) rfl, equalFrames_cell _ _ _ hj (by simpa using hn) rfl,
    equalFrames_cell _ _ _ hj (by simpa using hn) rfl, equalFrames_cell _ _ _ hj (by simpa using hn) rfl,
    equalFrames_cell _ _ _ hj hn rfl]
  simp only [controlRegs, List.mem_cons, List.not_mem_nil, or_false] at ha
  rcases ha with rfl | rfl | rfl | rfl | rfl <;> rfl

theorem setupChain_beyond (hj : n ≤ j) :
    (setupChain n v chain).getD j ChipImage.unknown = chain.getD j ChipImage.unknown := by
  have hbroadcast : ∀ (reg val : Byte) (cs : List ChipImage),
      (applyFrames (List.replicate n (reg, val)) cs).getD j ChipImage.unknown = cs.getD j ChipImage.unknown :=
    fun reg val cs => applyFrames_get_beyond _ cs j (by simpa using hj)
  simp only [setupChain, hbroadcast, refreshedChain_beyond _ _ hj]

end Programmed

/-- The row registers by the pass that writes them (R132). -/
theorem exists_pass_of_row {a : Nat} (h1 : 1 ≤ a) (h8 : a ≤ 8) : ∃ i, i < 8 ∧ a = 8 - i := ⟨8 - a, by omega, by omega⟩

/-- Settles O21: the last frame to each register of a chip is the one R208 names, and no frame goes beyond the chips. -/
theorem setupProgramsEveryChip : Obligations.SetupProgramsEveryChip := by
  intro s t n v hp hn hv hclosed hlen ht
  cases (exec_setup_ok hp hn hv hclosed).symm.trans ht
  refine ⟨fun j hj => ?_, fun j hj => setupChain_beyond hj⟩
  have hchain : n.toNat ≤ s.chain.length := toNat_le_chainLength n hlen
  have hcontrol : ∀ a ∈ controlRegs,
      ((setupChain n.toNat v s.chain).getD j ChipImage.unknown).cell a = some (programmedValue v a) :=
    fun _ ha => setupChain_control ha hj hchain
  refine ⟨hcontrol 0x0C#8 (by decide), hcontrol 0x0F#8 (by decide), hcontrol 0x0B#8 (by decide), hcontrol 0x09#8 (by decide),
    hcontrol 0x0A#8 (by decide), fun a h1 h8 => ?_⟩
  obtain ⟨i, hi, rfl⟩ := exists_pass_of_row h1 h8
  exact setupChain_row hi hj hchain

/-- Settles O30: `DISPLAY` is a refresh, which leaves the control registers and puts each column in its row register. -/
theorem displayShowsTheBufferOnTheChain : Obligations.DisplayShowsTheBufferOnTheChain := by
  intro s t n m hd hp ht j hj
  cases (hd.exec_display hp).symm.trans ht
  have hlimit : j < s.chipLimit := by simpa only [State.chipLimit, hd.chips] using hj
  have hrefreshes : Refreshes s (s.afterRefresh n.toNat m) n m := ⟨rfl, rfl⟩
  refine ⟨fun a ha => hrefreshes.chipReg_control hd hlimit ha, fun a h1 h8 => ?_⟩
  obtain ⟨i, hi, rfl⟩ := exists_pass_of_row h1 h8
  have hcolumn : 8 * j + 8 - (8 - i) = 8 * j + i := by omega
  rw [hd.chipReg_afterRefresh_row hi hj, State.column_of_fb hd.fb, hcolumn]

end Sys2Proof.Machine
end

section
/-! Outcomes that are marks (R230, R234–R236): whatever is fetched ends in a next state, and a record is added by a mark alone,
never by an effect. -/

namespace Sys2Proof.Machine

/-- An effect adds no record: faults and refusals are outcomes of their own (R235, R236). -/
theorem Effect.keeps_records {i : Instr} {s t : State} (he : Effect s i t) :
    t.faultLog = s.faultLog ∧ t.refusalLog = s.refusalLog := by
  cases he
  case print start str n m hi hd ht => exact ⟨by rw [ht.1], by rw [ht.1]⟩
  all_goals exact ⟨rfl, rfl⟩

/-- The tables give a host command no fault but a missing setting or a missing buffer (R234). -/
theorem State.faultsOf_host {s : State} {i : Instr} {f : Fault} (hf : f ∈ s.faultsOf i) (hport : i.port = .host) :
    f = .fUnset ∨ f = .fNoBuffer := by
  cases i
  case setint | setchips | setwr | drawDone | height => cases hf
  case setup | width => exact .inl (List.mem_singleton.mp hf)
  case update | display | setcol | printat | print | printfat | printf | strftat | strft =>
    exact .inr (List.mem_singleton.mp hf)
  all_goals cases hport

/-- Settles O47: of the three outcomes of an instruction only a marked fault grows the one record, and only a marked refusal
the other. -/
theorem markedCommandsHaveNoOtherEffect : Obligations.MarkedCommandsHaveNoOtherEffect := by
  intro i s t hs h
  rcases exec_cases hs h with ⟨f, hf, rfl⟩ | ⟨r, hr, rfl⟩ | heffect
  · exact ⟨fun _ => ⟨f, hf, rfl, State.faultsOf_host hf⟩, fun hne => absurd rfl hne⟩
  · exact ⟨fun hne => absurd rfl hne, fun _ => ⟨r, hr, rfl⟩⟩
  · obtain ⟨hfaults, hrefusals⟩ := heffect.keeps_records
    exact ⟨fun hne => absurd hfaults hne, fun hne => absurd hrefusals hne⟩

/-- A reserved frame answers a next state, at a chip's position and beyond (R210, R234). -/
theorem receiveReserved_next (reg val : Byte) (s : State) : ∃ t, receiveReserved reg val s = .next t := by
  unfold receiveReserved
  cases chipReceives reg val s with
  | ok u t => exact ⟨t, rfl⟩
  | error f t => exact ⟨_, rfl⟩

/-- Settles O4: each of the four things that a fetch finds has a next state. -/
theorem everyStepGoesOn : Obligations.EveryStepGoesOn := by
  intro s
  unfold step
  cases fetch s with
  | idle => exact ⟨s, rfl⟩
  | run i t => exact exec_next i t
  | illegal bytes t => exact ⟨_, rfl⟩
  | reserved reg val t => exact receiveReserved_next reg val t

/-- A frame instruction is spelt with two bytes (R70). -/
theorem encode_frame {i : Instr} (hport : i.port = .chain) : ∃ reg val, encode i = [reg, val] := by
  cases i
  case noop | row1 | row2 | row3 | row4 | row5 | row6 | row7 | row8 | decode | intensity | scanlimit | shutdown | disptest =>
    exact ⟨_, _, rfl⟩
  all_goals cases hport

/-- Settles O59: a frame is received whatever two bytes spell it, and no position from the limit up receives. -/
theorem framesBeyondTheChainAreOutOfBounds : Obligations.FramesBeyondTheChainAreOutOfBounds := by
  intro i s hport hlimit
  obtain ⟨reg, val, henc⟩ := encode_frame hport
  rw [exec_frame hport henc, conclude_error (chipReceives_oob reg val hlimit)]

end Sys2Proof.Machine
end

section
/-! Reset (R260, R261), and the hazard of a column written outside a window (R266): the next `UPDATE` clears the buffer first,
so it does not depend on the columns that it finds. -/

namespace Sys2Proof.Machine

/-- Settles O1: the record is the literal one of `State.reset`, and every chip of its chain is unknown. -/
theorem resetHoldsTheResetValues : Obligations.ResetHoldsTheResetValues := by
  refine ⟨rfl, rfl, rfl, rfl, rfl, rfl, rfl, rfl, rfl, rfl, fun j a => ?_⟩
  rw [State.chipReg, State.reset_chip, ChipImage.cell_unknown]

section Erasure

variable {s : State} {n : Byte} {m : Memory} (h : s.Drawable n m)
include h

theorem State.Drawable.rebuffered {m' : Memory} (hsize : m'.size = m.size) (hwf : m'.wf = true) :
    State.Drawable { s with fb := some m' } n m' :=
  { h with fb := rfl, size := hsize.trans h.size, wf := hwf }

/-- Both forms of `UPDATE` start with the clear, so what the buffer held is of no effect (R135). -/
theorem State.Drawable.exec_update_rebuffered (hp : s.phase = .running) {m' : Memory} (hsize : m'.size = m.size)
    (hwf : m'.wf = true) : exec .update { s with fb := some m' } = exec .update s := by
  have hd := h.rebuffered hsize hwf
  rcases Option.eq_none_or_eq_some s.writer with hw | ⟨w, hw⟩
  · exact (hd.exec_update_ok hp hw).trans (h.exec_update_ok hp hw).symm
  · exact (hd.exec_update_opens hp hw).trans (h.exec_update_opens hp hw).symm

/-- `SETCOL` after setup does no more than replace the buffer by one of the same form; out of range it keeps it (R183). -/
theorem State.Drawable.exec_setcol_rebuffers (idx : Half) (v : Byte) : ∃ m', m'.size = m.size ∧ m'.wf = true ∧
    exec (.setcol idx v) s = .next { s with fb := some m' } := by
  obtain ⟨-, hin, hout, -⟩ := setcolWritesOneColumn
  rcases Nat.lt_or_ge idx.toNat (8 * n.toNat) with hidx | hidx
  · obtain ⟨m', hexec, hsize, hwf, -, -⟩ := hin s n m idx v h hidx
    exact ⟨m', hsize, hwf, hexec⟩
  · refine ⟨m, rfl, h.wf, ?_⟩
    rw [hout s n m idx v h hidx, ← h.fb]

end Erasure

/-- Settles O32: `SETCOL` changes only the buffer, in range or out of it, and `UPDATE` erases that change. -/
theorem updateErasesAnEarlierColumn : Obligations.UpdateErasesAnEarlierColumn := by
  intro s t n m idx v hd hp ht
  obtain ⟨m', hsize, hwf, hexec⟩ := hd.exec_setcol_rebuffers idx v
  cases hexec.symm.trans ht
  obtain ⟨u, hu⟩ := exec_next .update s
  exact ⟨u, (hd.exec_update_rebuffered hp hsize hwf).trans hu, hu⟩

end Sys2Proof.Machine
end
